-- ==== Sys2Proof/Word.lean ====
section
/-! DEFINITION. The words of the lerp block (spec/00_scope.md R7, R11). -/

namespace Sys2Proof

/-- A register-port or draw-buffer word, and an address of the memory port (R10, R19). -/
abbrev Word := BitVec 32

/-- The smallest addressable unit of the memory port (R41); also a channel value and a residual entry. -/
abbrev Byte := BitVec 8

/-- A packed colour word: `W = CPP * BPC = 24` bits (R7). -/
abbrev Colour := BitVec 24

end Sys2Proof
end

