-- ==== Sys2Proof/Syntax.lean ====
section
/-! DEFINITION. The instructions of the block: its five commands (R62, section 2 of spec/30_encoding.md). -/

namespace Sys2Proof

/-- A command, with the value of its ARG field. NOP, SWEEP and TRANSPOSE ignore ARG but any value is a legal
encoding of them (R63), so the field is kept. -/
inductive Instr where
  /-- OP 0x0: no operation (R99). -/
  | nop (arg : Nat)
  /-- OP 0x1: one full refresh (R97). -/
  | sweep (arg : Nat)
  /-- OP 0x2: refresh the LED index `led` (R98). -/
  | sweepLed (led : Nat)
  /-- OP 0x3: encode the pixel with linear index `pixel` into RESULT (R86). -/
  | encode (pixel : Nat)
  /-- OP 0x4: transpose XIN0..XIN7 into XOUT0..XOUT5 (R94). -/
  | transpose (arg : Nat)
  deriving DecidableEq, Repr

/-- The value of a command's ARG field (R63). -/
def Instr.arg : Instr → Nat
  | .nop a => a
  | .sweep a => a
  | .sweepLed l => l
  | .encode i => i
  | .transpose a => a

/-- A command's opcode (section 2 of spec/30_encoding.md). -/
def Instr.opcode : Instr → BitVec 4
  | .nop _ => 0x0
  | .sweep _ => 0x1
  | .sweepLed _ => 0x2
  | .encode _ => 0x3
  | .transpose _ => 0x4

end Sys2Proof
end

