-- ==== Sys2Proof/Decode.lean ====
section
/-! DEFINITION. Command words: the decoder, total on every 32-bit word (R62), and after it the encoder. -/

namespace Sys2Proof

/-- Why a word is no command. The block reports one code for every such word (R62, R66). -/
inductive DecodeError where
  /-- RSV is not 0, or OP is none of the five opcodes: ILLEGAL_CMD (R66). -/
  | illegalCmd
  deriving DecidableEq, Repr

/-- OP, bits [3:0] of a command word (R62). -/
def opField (w : Word) : BitVec 4 := w.extractLsb' 0 4

/-- RSV, bits [7:4] of a command word (R62). -/
def rsvField (w : Word) : BitVec 4 := w.extractLsb' 4 4

/-- ARG, bits [31:8] of a command word, unchanged as an unsigned integer (R62, R63). -/
def argField (w : Word) : Nat := (w.extractLsb' 8 24).toNat

/-- The command of an opcode and an argument, from the opcode map of section 2 of spec/30_encoding.md. -/
def commandOf (op : BitVec 4) (arg : Nat) : Except DecodeError Instr :=
  match op.toNat with
  | 0x0 => .ok (.nop arg)
  | 0x1 => .ok (.sweep arg)
  | 0x2 => .ok (.sweepLed arg)
  | 0x3 => .ok (.encode arg)
  | 0x4 => .ok (.transpose arg)
  | _ => .error .illegalCmd

/-- Decoding a command word (R62): one of the five commands, or ILLEGAL_CMD. -/
def decode (w : Word) : Except DecodeError Instr :=
  if rsvField w = 0 then commandOf (opField w) (argField w) else .error .illegalCmd

/-- The word of a command: ARG in [31:8], RSV = 0, OP in [3:0] (R62, R67). -/
def encode (i : Instr) : Word :=
  BitVec.ofNat 24 i.arg ++ 0#4 ++ i.opcode

/-- The command the decoder reads from a table row's bits. A command is one 32-bit word written to CMD as a whole
(R64, R19), so no byte order enters; bits from `nbits` on are 0. -/
def decodeTableWord (nbits w : Nat) : Option Instr :=
  match decode (BitVec.ofNat 32 (w % 2 ^ nbits)) with
  | .ok i => some i
  | .error _ => none

end Sys2Proof
end

