-- ==== Sys2Proof/Config.lean ====
section
/-! DEFINITION. What one build and one platform fix (R8, R108), and the values the spec leaves free (R56, R57, R108, R117). -/

namespace Sys2Proof

/-- The parameters the spec leaves open and fixes "when the block is built" or by the platform. They are plain
data carried in the state, which no step changes, so every statement over a state holds for every choice. -/
structure Config where
  /-- `MAX_LEDS`, `1 <= MAX_LEDS <= 65535` (R8). DESIGN CHOICE of the value at reset: log 3. -/
  maxLeds : BitVec 16
  /-- `BusError(addr)`: the memory port answers an access with an error in these ranges, both ends included
  (R108). Any set of addresses is such a list. DESIGN CHOICE of the value at reset: log 4. -/
  busErrors : List (Word × Word)
  deriving DecidableEq, Repr

/-- The build of `State.reset`: 64 LEDs per strip, no address that answers with an error. DESIGN CHOICE: logs 3, 4. -/
def Config.initial : Config := { maxLeds := 64, busErrors := [] }

/-- The free bytes of the model: the `n`-th byte drawn where the spec says "any value" (R56, R108). No body:
nothing can be proved of a drawn value. Log 6. -/
opaque Config.freeByte : Nat → Byte

/-- The free choices of the model: the `n`-th choice between an old and a new value (R57, R117). No body. Log 7. -/
opaque Config.freeChoice : Nat → Bool

end Sys2Proof
end

