-- ==== Sys2Proof/Machine/State.lean ====
section
/-! DEFINITION. The state of the block and of what it acts on (spec/10_state.md), and the state after reset (R116). -/

namespace Sys2Proof.Machine

/-- CTRL.GMODE (R23): the gamma-table format. -/
inductive GammaMode where
  /-- 0: 65536 entries per channel, read by index (R74). -/
  | direct
  /-- 1: 257 entries per channel, interpolated (R75). -/
  | interp257
  deriving DecidableEq, Repr

/-- CTRL.CHORD (R79): which quantised channels stand in bits [23:16], [15:8] and [7:0] of a colour word. The
values 6 and 7 cannot be held (R24), so there is no constructor for them. -/
inductive ChannelOrder where
  /-- CHORD 0, the reset value: q2, q1, q0. -/
  | q2q1q0
  /-- CHORD 1: q1, q0, q2. -/
  | q1q0q2
  /-- CHORD 2: q0, q1, q2. -/
  | q0q1q2
  /-- CHORD 3: q0, q2, q1. -/
  | q0q2q1
  /-- CHORD 4: q1, q2, q0. -/
  | q1q2q0
  /-- CHORD 5: q2, q0, q1. -/
  | q2q0q1
  deriving DecidableEq, Repr

/-- The error codes of STATUS.ERRCODE (R104). Codes 9..15 are never recorded. -/
inductive ErrCode where
  | none | illegalCmd | busy | cfgStrips | cfgLeds | cfgCoeff | align | argRange | busErr
  deriving DecidableEq, Repr

/-- The registers of the window (the table of section 2 of spec/10_state.md), reserved offsets left out. -/
inductive Reg where
  | id | cap | ctrl | status | cmd | coeff | leds | strips | prevBase | nextBase | outBase | gammaBase | result
  | xin (s : Fin 8)
  | xout (j : Fin 6)
  deriving DecidableEq, Repr

/-- The configuration a command uses, which the engine snapshots at acceptance (R38). -/
structure Setup where
  gmode : GammaMode
  chord : ChannelOrder
  coeff : BitVec 17
  leds : BitVec 16
  strips : BitVec 4
  prevBase : Word
  nextBase : Word
  outBase : Word
  gammaBase : Word
  deriving DecidableEq, Repr

/-- The bits of STATUS that are held (R25). BUSY is not here: it is the presence of a command in flight (R38). -/
structure Status where
  done : Bool
  err : Bool
  errOvf : Bool
  errCode : ErrCode
  deriving DecidableEq, Repr

/-- The command in flight, with its snapshot of the configuration (R38). -/
structure InFlight where
  cmd : Instr
  snapshot : Setup
  deriving DecidableEq, Repr

/-- Byte-wide storage by address: ascending keys, and no entry equal to 0, which is what an unlisted key reads as.
Used for the memory behind the port (log 5) and for the residual store (log 15). -/
abbrev Memory := List Host.Cell

/-- Access widths of other agents on memory: 1, 2 or 4 bytes. DESIGN CHOICE: log 9. -/
inductive Width where
  | byte | half | word
  deriving DecidableEq, Repr

/-- Whose half of a command `exec` performs: the host's write to CMD (the acceptance) or the engine's completion
step (R15, R100). Log 2. -/
inductive Agent where
  | host | engine
  deriving DecidableEq, Repr

/-- One move of an agent outside or inside the block, at the grain of R100. Log 1. -/
inductive Move where
  /-- The engine takes its step now: the completion of the command in flight, nothing when idle (R100). -/
  | engine
  /-- The host writes a 32-bit value at a byte offset of the register window (R19, `WR`). -/
  | write (offset : BitVec 8) (value : Word)
  /-- The host reads the register window at a byte offset (R19, `RD`). -/
  | read (offset : BitVec 8)
  /-- The host repeats `RD STATUS` until BUSY reads 0 (R69, `WAIT`). Log 17. -/
  | wait
  /-- Another agent writes memory (R56). -/
  | memWrite (width : Width) (addr : Word) (value : Word)
  /-- Another agent reads memory (R57). -/
  | memRead (width : Width) (addr : Word)
  /-- The reset input (R116). -/
  | reset
  deriving DecidableEq, Repr

/-- Reasons to stop with a fault: none. Every error of the block is recorded in STATUS and the block goes on
(R103), so nobody raises one (log 14). -/
inductive Fault where
  deriving DecidableEq, Repr

/-- Reasons to have no next state. -/
inductive Refusal where
  /-- `exec`, for an instruction without a meaning yet. Safe. -/
  | notModelled (mnemonic : String)
  /-- `step`, for a register-port access with offset bits [1:0] not 0: "not a transaction of this port: the model
  refuses it" (R19). Safe. -/
  | misalignedAccess
  deriving DecidableEq, Repr

/-- The machine. -/
structure State where
  /-- CTRL.IE_DONE (R23). -/
  ieDone : Bool
  /-- CTRL.IE_ERR (R23). -/
  ieErr : Bool
  /-- STATUS but for BUSY (R25). -/
  status : Status
  /-- GMODE, CHORD, COEFF, LEDS, STRIPS and the four bases (R23, R28 to R31). -/
  setup : Setup
  /-- RESULT (R32). -/
  result : Colour
  /-- XIN0..XIN7 (R33). -/
  xin : Vector Colour 8
  /-- XOUT0..XOUT5 (R34). -/
  xout : Vector Word 6
  /-- The residual store (R35); `Res[i][ch]` has the key `3 * i + ch`. -/
  residuals : Memory
  /-- The engine: BUSY and the command in flight (R38). -/
  inflight : Option InFlight
  /-- The memory behind the master port (R41). -/
  mem : Memory
  /-- The build and platform parameters (R8, R108). No step changes them. -/
  config : Config
  /-- The model's bus-fault mark, which no step clears (R108, R116). Log 11. -/
  busFault : Bool
  /-- The bytes that other agents wrote since the acceptance of the command in flight (R56), the first write first:
  each address with the value it held before that write, so that the first entry of an address is its value before the
  command (R57). Log 6. -/
  raced : List Host.Cell
  /-- How many free bytes have been drawn. The model's own counter. Log 6. -/
  draws : Nat
  /-- How many free choices have been made. The model's own counter. Log 7. -/
  choices : Nat
  /-- Which half of a command `exec` performs. The model's own field. Log 2. -/
  mover : Agent
  /-- The moves still to come, the next one first. The model's own field. Log 1. -/
  schedule : List Move
  /-- What the host's last register read returned. The model's own field. Log 10. -/
  portData : Word
  /-- What the last memory read of another agent returned. The model's own field. Log 10. -/
  memData : Word
  deriving DecidableEq, Repr

/-- The configuration registers after reset (R116). -/
def Setup.reset : Setup :=
  { gmode := .direct, chord := .q2q1q0, coeff := 0, leds := 0, strips := 0
    prevBase := 0, nextBase := 0, outBase := 0, gammaBase := 0 }

/-- STATUS after reset (R116). -/
def Status.reset : Status := { done := false, err := false, errOvf := false, errCode := .none }

/-- The machine right after reset (R116), with nothing listed in memory and no move to come. -/
def State.reset : State :=
  { ieDone := false, ieErr := false, status := Status.reset, setup := Setup.reset
    result := 0, xin := #v[0, 0, 0, 0, 0, 0, 0, 0], xout := #v[0, 0, 0, 0, 0, 0]
    residuals := [], inflight := none, mem := [], config := Config.initial
    busFault := false, raced := [], draws := 0, choices := 0
    mover := .host, schedule := [], portData := 0, memData := 0 }

end Sys2Proof.Machine
end

