-- ==== Sys2Proof/Machine/Operands.lean ====
section
/-! DEFINITION. The operands of a command: the configuration fields as numbers (R9), pixel indices (R14) and the
address of every access (spec/20_memory.md section 2). -/

namespace Sys2Proof.Machine

/-- `L`, ledsPerStrip (R29). -/
def Setup.L (c : Setup) : Nat := c.leds.toNat

/-- `N`, activeStripCount (R30). -/
def Setup.N (c : Setup) : Nat := c.strips.toNat

/-- How many strips are encoded: `N`, and never more than the eight there are (R88, R95). -/
def Setup.activeStrips (c : Setup) : Nat := min c.N 8

/-- The configuration a completion step uses: the snapshot of the command in flight (R38, R124). With nothing in
flight, which no step of the machine leads to, the registers. Log 20. -/
def State.command (s : State) : Setup :=
  match s.inflight with
  | some f => f.snapshot
  | none => s.setup

/-- The addresses that other agents wrote since the acceptance of the command in flight (R56). -/
def State.racedAddrs (s : State) : List Nat := s.raced.map Prod.fst

/-- STATUS.BUSY: a command is in flight (R25, R38). -/
def State.busy (s : State) : Bool := s.inflight.isSome

/-- The linear index of strip `s`, LED `l`: `i = s * L + l` (R48). -/
def Setup.pixel (c : Setup) (s l : Nat) : Nat := s * c.L + l

/-- An address `k` bytes past a base, modulo 2^32 (R42). -/
def addrAt (base : Word) (k : Nat) : Word := base + BitVec.ofNat 32 k

/-- The byte that holds channel `ch` of pixel `i` of the framebuffer at `base` (R48). -/
def channelAddr (base : Word) (i ch : Nat) : Word := addrAt base (3 * i + ch)

/-- Entries of one channel's gamma table (R49). -/
def GammaMode.entries : GammaMode → Nat
  | .direct => 65536
  | .interp257 => 257

/-- The address of entry `k` of channel `ch` of the gamma table (R49). -/
def gammaAddr (c : Setup) (ch k : Nat) : Word := addrAt c.gammaBase (2 * (c.gmode.entries * ch + k))

/-- The address of the first draw-buffer word of LED index `l` (R50). -/
def groupAddr (c : Setup) (l : Nat) : Word := addrAt c.outBase (24 * l)

/-- Whether an address lies in the `len` bytes from `base`, modulo 2^32. -/
def inRange (base : Word) (len : Nat) (a : Word) : Bool := decide ((a - base).toNat < len)

/-- The key of `Res[i][ch]` in the residual store (R35). -/
def residualKey (i ch : Nat) : Nat := 3 * i + ch

/-- Bytes of an access of another agent. -/
def Width.bytes : Width → Nat
  | .byte => 1
  | .half => 2
  | .word => 4

/-- The pixels a SWEEP encodes: `0 .. N*L - 1` (R97). -/
def sweepPixels (c : Setup) : List Nat := List.range (c.activeStrips * c.L)

/-- The pixels a SWEEP_LED encodes: one for each active strip (R98). -/
def ledPixels (c : Setup) (l : Nat) : List Nat := (List.range c.activeStrips).map fun s => c.pixel s l

/-- The write range of a command (R55): its first byte and its length. NOP, ENCODE and TRANSPOSE write no memory. -/
def writeRange (f : InFlight) : Word × Nat :=
  match f.cmd with
  | .sweep _ => (f.snapshot.outBase, 24 * f.snapshot.L)
  | .sweepLed l => (groupAddr f.snapshot l, 24)
  | .nop _ => (f.snapshot.outBase, 0)
  | .encode _ => (f.snapshot.outBase, 0)
  | .transpose _ => (f.snapshot.outBase, 0)

end Sys2Proof.Machine
end

