-- ==== Sys2Proof/Machine/Flags.lean ====
section
/-! DEFINITION. The flags: the words CTRL and STATUS read as, what a write of them does, and the interrupt level
(R23 to R26, R39, R40). No operation of the data path sets a flag (R39, R109). -/

namespace Sys2Proof.Machine

/-- The bit of CTRL.GMODE (R23). -/
def GammaMode.bit : GammaMode → Bool
  | .direct => false
  | .interp257 => true

/-- The format a GMODE bit selects (R23). -/
def GammaMode.ofBit (b : Bool) : GammaMode := if b then .interp257 else .direct

/-- The three bits of CTRL.CHORD (R79). -/
def ChannelOrder.bits : ChannelOrder → BitVec 3
  | .q2q1q0 => 0
  | .q1q0q2 => 1
  | .q0q1q2 => 2
  | .q0q2q1 => 3
  | .q1q2q0 => 4
  | .q2q0q1 => 5

/-- CHORD after a write of three bits over `old`: 6 and 7 leave it unchanged (R24). -/
def ChannelOrder.written (bits : BitVec 3) (old : ChannelOrder) : ChannelOrder :=
  match bits.toNat with
  | 0 => .q2q1q0
  | 1 => .q1q0q2
  | 2 => .q0q1q2
  | 3 => .q0q2q1
  | 4 => .q1q2q0
  | 5 => .q2q0q1
  | _ => old

/-- The four bits of STATUS.ERRCODE (R104). -/
def ErrCode.bits : ErrCode → BitVec 4
  | .none => 0x0
  | .illegalCmd => 0x1
  | .busy => 0x2
  | .cfgStrips => 0x3
  | .cfgLeds => 0x4
  | .cfgCoeff => 0x5
  | .align => 0x6
  | .argRange => 0x7
  | .busErr => 0x8

/-- What CTRL reads: [0] IE_DONE, [1] IE_ERR, [2] GMODE, [3] 0, [6:4] CHORD, the rest 0 (R23). -/
def State.ctrlWord (s : State) : Word :=
  0#25 ++ s.setup.chord.bits ++ 0#1 ++ BitVec.ofBool s.setup.gmode.bit ++ BitVec.ofBool s.ieErr ++
    BitVec.ofBool s.ieDone

/-- What STATUS reads: [0] BUSY, [1] DONE, [2] ERR, [3] ERR_OVF, [7:4] 0, [11:8] ERRCODE, the rest 0 (R25). -/
def State.statusWord (s : State) : Word :=
  0#20 ++ s.status.errCode.bits ++ 0#4 ++ BitVec.ofBool s.status.errOvf ++ BitVec.ofBool s.status.err ++
    BitVec.ofBool s.status.done ++ BitVec.ofBool s.busy

/-- STATUS after a write of `v` (R26): bit [1] clears DONE; bit [2] clears ERR, ERR_OVF and ERRCODE. -/
def Status.written (v : Word) (t : Status) : Status :=
  { done := t.done && !v.getLsbD 1
    err := t.err && !v.getLsbD 2
    errOvf := t.errOvf && !v.getLsbD 2
    errCode := if v.getLsbD 2 then .none else t.errCode }

/-- STATUS after recording an error with code `e` (R107). -/
def Status.recorded (e : ErrCode) (t : Status) : Status :=
  if t.err then { t with errOvf := true } else { t with err := true, errCode := e }

/-- The interrupt output, a level with no state of its own (R40, R110). -/
def State.irq (s : State) : Bool := (s.status.done && s.ieDone) || (s.status.err && s.ieErr)

end Sys2Proof.Machine
end

