-- ==== Sys2Proof/Machine/Ops.lean ====
section
/-! DEFINITION. The shared operations: byte storage, the accesses of the memory port, recording an error, and the
two steps of a command (R41 to R47, R56, R100, R105 to R108). -/

namespace Sys2Proof.Machine

/-! ### Byte storage in canonical form -/

/-- What an unlisted key reads as: 0. For the residual store it is the reset value (R37, log 15); for memory the
spec gives none (DESIGN CHOICE, log 5). -/
def Memory.unlisted : Byte := 0

/-- The byte at a key. -/
def Memory.read : Memory → Nat → Byte
  | [], _ => Memory.unlisted
  | (k, v) :: m, a => if k = a then v else Memory.read m a

/-- The storage with one byte written; writing the unlisted value removes the entry. -/
def Memory.write : Memory → Nat → Byte → Memory
  | [], a, b => if b = Memory.unlisted then [] else [(a, b)]
  | (k, v) :: m, a, b =>
    if k = a then (if b = Memory.unlisted then m else (a, b) :: m)
    else if a < k then (if b = Memory.unlisted then (k, v) :: m else (a, b) :: (k, v) :: m)
    else (k, v) :: Memory.write m a b

/-- The canonical form above a lower bound: keys rise strictly and no entry is the unlisted value. -/
def Memory.wfFrom : Nat → Memory → Bool
  | _, [] => true
  | low, (k, v) :: m => decide (low ≤ k) && v != Memory.unlisted && Memory.wfFrom (k + 1) m

/-- The canonical form: equal contents are equal lists. -/
def Memory.wf (m : Memory) : Bool := Memory.wfFrom 0 m

/-- Every key lies below a bound. -/
def Memory.below (bound : Nat) (m : Memory) : Bool := m.all fun cell => decide (cell.1 < bound)

/-- `n` bytes of a value written little-endian at an address (R43, R45), each address modulo 2^32 (R42). -/
def Memory.writeBytes (m : Memory) (a : Word) (v : Word) : Nat → Memory
  | 0 => m
  | b + 1 => (Memory.writeBytes m a v b).write (addrAt a b).toNat (v.extractLsb' (8 * b) 8)

/-- `n` bytes assembled little-endian (R43, R44). -/
def assemble (byteAt : Nat → Byte) : Nat → Word
  | 0 => 0
  | b + 1 => assemble byteAt b ||| ((byteAt b).setWidth 32 <<< (8 * b))

/-- The byte at an address as it was before the command in flight (R57): what it held at the acceptance. -/
def State.beforeCommand (s : State) (a : Nat) : Byte :=
  match s.raced.lookup a with
  | some v => v
  | none => s.mem.read a

/-! ### The residual store -/

/-- `Res[i][ch]` (R35). -/
def readResidual (res : Memory) (i ch : Nat) : Byte := res.read (residualKey i ch)

/-- `Res[i][ch] <- v` (R35). -/
def writeResidual (res : Memory) (i ch : Nat) (v : Byte) : Memory := res.write (residualKey i ch) v

/-! ### The memory port during a command -/

/-- Whether the port answers an access of the byte at `a` with an error (R108). Log 4. -/
def Config.busError (c : Config) (a : Word) : Bool :=
  c.busErrors.any fun r => decide (r.1.toNat ≤ a.toNat) && decide (a.toNat ≤ r.2.toNat)

/-- What the accesses of one command meet: memory, the bytes raced by other agents, the command's own write range
(R55, R56), and the port's error response (R108). -/
structure PortView where
  mem : Memory
  raced : List Nat
  rangeBase : Word
  rangeLen : Nat
  config : Config
  deriving DecidableEq, Repr

/-- What a command has done so far: the residual store and the memory it leaves, the free bytes drawn, and whether
an access was answered with an error. -/
structure Work where
  residuals : Memory
  mem : Memory
  draws : Nat
  err : Bool
  deriving DecidableEq, Repr

/-- The port as a command with the given write range meets it. -/
def State.portView (s : State) (base : Word) (len : Nat) : PortView :=
  { mem := s.mem, raced := s.racedAddrs, rangeBase := base, rangeLen := len, config := s.config }

/-- Nothing done yet. -/
def State.startWork (s : State) : Work :=
  { residuals := s.residuals, mem := s.mem, draws := s.draws, err := false }

/-- Whether a read of the byte at `a` returns any value: another agent wrote it since the acceptance, or it is in
the command's own write range (R56). -/
def PortView.unstable (p : PortView) (a : Word) : Bool :=
  p.raced.contains a.toNat || inRange p.rangeBase p.rangeLen a

/-- `MemRead(addr, 1)` (R44): the byte as it was at the acceptance, or a fresh free byte (R56). -/
def readByte (p : PortView) (a : Word) (w : Work) : Byte × Work :=
  let w := { w with err := w.err || Config.busError p.config a }
  if p.unstable a then (Config.freeByte w.draws, { w with draws := w.draws + 1 })
  else (p.mem.read a.toNat, w)

/-- `MemRead(addr, 2)` (R44): two bytes, little-endian (R43). -/
def readHalf (p : PortView) (a : Word) (w : Work) : BitVec 16 × Work :=
  let lo := readByte p a w
  let hi := readByte p (addrAt a 1) lo.2
  (hi.1 ++ lo.1, hi.2)

/-- `MemWrite(addr, 4, v)` (R45). -/
def writeWord (p : PortView) (a : Word) (v : Word) (w : Work) : Work :=
  { w with
    mem := w.mem.writeBytes a v 4
    err := w.err || Config.busError p.config a || Config.busError p.config (addrAt a 1)
      || Config.busError p.config (addrAt a 2) || Config.busError p.config (addrAt a 3) }

/-! ### Recording an error: the block's one way of taking an exception (R103, R107, R112) -/

/-- `RecordError(e)` (R107). Nothing else changes: no control transfer, no mode, no saved state (R103, R112). -/
def recordError (e : ErrCode) (s : State) : State := { s with status := s.status.recorded e }

/-! ### The acceptance of a command (R105) -/

/-- One check of R105: the error to raise when it fails. -/
def check (ok : Bool) (e : ErrCode) : Option ErrCode := if ok then none else some e

/-- `1 <= STRIPS[3:0] <= 8` (R105). -/
def checkStrips (s : State) : Option ErrCode :=
  check (decide (1 ≤ s.setup.N) && decide (s.setup.N ≤ 8)) .cfgStrips

/-- `1 <= LEDS[15:0] <= MAX_LEDS` (R105). -/
def checkLeds (s : State) : Option ErrCode :=
  check (decide (1 ≤ s.setup.L) && decide (s.setup.L ≤ s.config.maxLeds.toNat)) .cfgLeds

/-- `COEFF[16:0] <= 0x10000` (R105). -/
def checkCoeff (s : State) : Option ErrCode := check (decide (s.setup.coeff.toNat ≤ 0x10000)) .cfgCoeff

/-- `OUT_BASE[1:0] = 0` (R105). -/
def checkOutBase (s : State) : Option ErrCode := check (s.setup.outBase.extractLsb' 0 2 == 0) .align

/-- `GAMMA_BASE[0] = 0` (R105). -/
def checkGammaBase (s : State) : Option ErrCode := check (s.setup.gammaBase.extractLsb' 0 1 == 0) .align

/-- `ARG < bound` (R105). -/
def checkArg (arg bound : Nat) : Option ErrCode := check (decide (arg < bound)) .argRange

/-- The acceptance: BUSY <- 1, DONE <- 0, and the snapshot (R38, R105). The race of R56 starts here.
DONE is cleared although R110 says that a pending source is cleared only by the write of 1 or by reset: R25, R39 and
R105 clear it at acceptance. DESIGN CHOICE between the rules: log 29. -/
def accept (i : Instr) (s : State) : State :=
  { s with
    inflight := some { cmd := i, snapshot := s.setup }
    status := { s.status with done := false }
    raced := [] }

/-- `IssueCommand` for a word that decodes to `i` (R105): BUSY first, then the first of the command's own checks
that fails, else the acceptance. A rejection only records the error (R106). -/
def issue (i : Instr) (failing : Option ErrCode) (s : State) : State :=
  if s.busy then recordError .busy s
  else
    match failing with
    | some e => recordError e s
    | none => accept i s

/-- `IssueCommand` for a word that is no command (R105): BUSY first, else ILLEGAL_CMD. -/
def rejectIllegal (s : State) : State := recordError (if s.busy then .busy else .illegalCmd) s

/-! ### The completion of a command (R100) -/

/-- The end of every command: BUSY <- 0, DONE <- 1. -/
def finish (s : State) : State :=
  { s with inflight := none, status := { s.status with done := true }, raced := [] }

/-- Free bytes in the `n` bytes from `base`, drawn from the `d`-th on. -/
def fillFree (base : Word) (d : Nat) (m : Memory) : Nat → Memory
  | 0 => m
  | k + 1 => (fillFree base d m k).write (addrAt base k).toNat (Config.freeByte (d + k))

/-- Free bytes in the three residual entries of each pixel, drawn from the `d`-th on. -/
def freeResiduals : List Nat → Nat → Memory → Memory
  | [], _, res => res
  | i :: is, d, res =>
    freeResiduals is (d + 3)
      (writeResidual (writeResidual (writeResidual res i 0 (Config.freeByte d)) i 1 (Config.freeByte (d + 1))) i 2
        (Config.freeByte (d + 2)))

/-- The end of a command that met a bus error (R108): RecordError(BUS_ERR), BUSY <- 0, DONE <- 1, the write range and
the residual entries of the command's pixels any value, and the mark. `draws` is how many free bytes the command's
reads had drawn. -/
def busFaultEnd (base : Word) (len : Nat) (pixels : List Nat) (draws : Nat) (s : State) : State :=
  finish (recordError .busErr
    { s with
      mem := fillFree base draws s.mem len
      residuals := freeResiduals pixels (draws + len) s.residuals
      draws := draws + len + 3 * pixels.length
      busFault := true })

/-- The end of a command that read or wrote memory: its work, or the end of a bus fault. -/
def endWork (base : Word) (len : Nat) (pixels : List Nat) (w : Work) (s : State) : State :=
  if w.err then busFaultEnd base len pixels w.draws s
  else finish { s with mem := w.mem, residuals := w.residuals, draws := w.draws }

end Sys2Proof.Machine
end

