-- ==== Sys2Proof/Machine/Encoder.lean ====
section
/-! DEFINITION. The PixelEncoder and ENCODE (spec/40_pixel_encoder.md). Arithmetic is exact on naturals and narrowed
where the spec states a width (R13). -/

namespace Sys2Proof.Machine

/-- `wP = UNIT - c` (R70). Above UNIT, which no accepted command holds, 0: log 23. -/
def weightPrev (c : BitVec 17) : Nat := 0x10000 - c.toNat

/-- `wN = c` (R70). -/
def weightNext (c : BitVec 17) : Nat := c.toNat

/-- `257 * p` (R71). -/
def widen (p : Byte) : Nat := 257 * p.toNat

/-- `lin = (P * wP + Nw * wN) >> 16` (R72). -/
def blend (c : BitVec 17) (p n : Byte) : BitVec 16 :=
  BitVec.ofNat 16 ((widen p * weightPrev c + widen n * weightNext c) >>> 16)

/-- `(t0 * (256 - a) + t1 * a) >> 8` (R75). -/
def interpolate (t0 t1 : BitVec 16) (a : Byte) : BitVec 16 :=
  BitVec.ofNat 16 ((t0.toNat * (256 - a.toNat) + t1.toNat * a.toNat) >>> 8)

/-- `GammaEntry(ch, k)` (R49). -/
def gammaEntry (p : PortView) (c : Setup) (ch k : Nat) (w : Work) : BitVec 16 × Work :=
  readHalf p (gammaAddr c ch k) w

/-- Step 3, format DIRECT (R74): one entry, at `lin`. -/
def gammaDirect (p : PortView) (c : Setup) (ch : Nat) (lin : BitVec 16) (w : Work) : BitVec 16 × Work :=
  gammaEntry p c ch lin.toNat w

/-- Step 3, format INTERP257 (R75): entries `idx` and `idx + 1`, both always read, interpolated. -/
def gammaInterp (p : PortView) (c : Setup) (ch : Nat) (lin : BitVec 16) (w : Work) : BitVec 16 × Work :=
  let idx := (lin.extractLsb' 8 8).toNat
  let t0 := gammaEntry p c ch idx w
  let t1 := gammaEntry p c ch (idx + 1) t0.2
  (interpolate t0.1 t1.1 (lin.extractLsb' 0 8), t1.2)

/-- Step 3 in the format of CTRL.GMODE (R74, R75). -/
def gammaLookup (p : PortView) (c : Setup) (ch : Nat) (lin : BitVec 16) (w : Work) : BitVec 16 × Work :=
  match c.gmode with
  | .direct => gammaDirect p c ch lin w
  | .interp257 => gammaInterp p c ch lin w

/-- Steps 4 and 5 (R77, R78): `v = gam + r`, saturated to 16 bits; the high byte is the output channel value, the
low byte the new residual. -/
def quantise (gam : BitVec 16) (r : Byte) : Byte × Byte :=
  let vs := min (gam.toNat + r.toNat) 0xFFFF
  (BitVec.ofNat 8 (vs >>> 8), BitVec.ofNat 8 vs)

/-- Step 6 (R79): the packed colour word. -/
def pack (order : ChannelOrder) (q0 q1 q2 : Byte) : Colour :=
  match order with
  | .q2q1q0 => q2 ++ q1 ++ q0
  | .q1q0q2 => q1 ++ q0 ++ q2
  | .q0q1q2 => q0 ++ q1 ++ q2
  | .q0q2q1 => q0 ++ q2 ++ q1
  | .q1q2q0 => q1 ++ q2 ++ q0
  | .q2q0q1 => q2 ++ q0 ++ q1

/-- One channel of `EncodePixel(i)` (R80): the output channel value, and the residual entry written. -/
def encodeChannel (p : PortView) (c : Setup) (i ch : Nat) (w : Work) : Byte × Work :=
  let prev := readByte p (channelAddr c.prevBase i ch) w
  let next := readByte p (channelAddr c.nextBase i ch) prev.2
  let gam := gammaLookup p c ch (blend c.coeff prev.1 next.1) next.2
  let out := quantise gam.1 (readResidual gam.2.residuals i ch)
  (out.1, { gam.2 with residuals := writeResidual gam.2.residuals i ch out.2 })

/-- `EncodePixel(i)` (R80). -/
def encodePixel (p : PortView) (c : Setup) (i : Nat) (w : Work) : Colour × Work :=
  let q0 := encodeChannel p c i 0 w
  let q1 := encodeChannel p c i 1 q0.2
  let q2 := encodeChannel p c i 2 q1.2
  (pack c.chord q0.1 q1.1 q2.1, q2.2)

/-- The checks of ENCODE `i` after BUSY, in their order (R86, R105). OUT_BASE is not checked. -/
def encodeChecks (i : Nat) (s : State) : Option ErrCode :=
  (checkStrips s).or <| (checkLeds s).or <| (checkCoeff s).or <| (checkGammaBase s).or <|
    checkArg i (s.setup.N * s.setup.L)

/-- The completion of ENCODE `i` (R86): RESULT and the pixel's residual entries; after a bus error both are any
value (R108). -/
def completeEncode (i : Nat) (s : State) : State :=
  let e := encodePixel (s.portView s.command.outBase 0) s.command i s.startWork
  let t := endWork s.command.outBase 0 [i] e.2 s
  if e.2.err then
    { t with
      result := Config.freeByte t.draws ++ Config.freeByte (t.draws + 1) ++ Config.freeByte (t.draws + 2)
      draws := t.draws + 3 }
  else { t with result := e.1 }

/-- ENCODE `i` (R86). -/
def execEncode (i : Nat) (s : State) : Host.Outcome State Fault Refusal :=
  match s.mover with
  | .host => .next (issue (.encode i) (encodeChecks i s) s)
  | .engine => .next (completeEncode i s)

end Sys2Proof.Machine
end

