-- ==== Sys2Proof/Machine/Transposer.lean ====
section
/-! DEFINITION. The BitPlaneTransposer and TRANSPOSE (spec/41_transposer.md). -/

namespace Sys2Proof.Machine

/-- The `n`-bit value whose bit `b` is `f b`. -/
def bitsOf (f : Nat → Bool) : (n : Nat) → BitVec n
  | 0 => 0#0
  | n + 1 => BitVec.cons (f n) (bitsOf f n)

/-- The transposer input of strip `s` with `n` active strips: zero when inactive (R88). -/
def activeColour (cw : Nat → Colour) (n s : Nat) : Colour := if s < n then cw s else 0

/-- The output word of group `g` (R89): bit `8k + s` is bit `4g + 3 - k` of strip `s`. -/
def groupWord (cw : Nat → Colour) (n g : Nat) : Word :=
  bitsOf (fun b => (activeColour cw n (b % 8)).getLsbD (4 * g + 3 - b / 8)) 32

/-- `Transpose(cw, N)` (R91): emission index `j` carries group `5 - j` (R90). -/
def transpose (cw : Nat → Colour) (n : Nat) : Vector Word 6 :=
  #v[groupWord cw n 5, groupWord cw n 4, groupWord cw n 3, groupWord cw n 2, groupWord cw n 1, groupWord cw n 0]

/-- The check of TRANSPOSE after BUSY (R94, R105). -/
def transposeChecks (s : State) : Option ErrCode := checkStrips s

/-- The completion of TRANSPOSE (R94). It touches no memory and no residual, so it cannot fault. -/
def completeTranspose (s : State) : State :=
  finish { s with xout := transpose (fun k => s.xin[k]?.getD 0) s.command.N }

/-- TRANSPOSE (R94); ARG is ignored (R63). -/
def execTranspose (arg : Nat) (s : State) : Host.Outcome State Fault Refusal :=
  match s.mover with
  | .host => .next (issue (.transpose arg) (transposeChecks s) s)
  | .engine => .next (completeTranspose s)

end Sys2Proof.Machine
end

