-- ==== Sys2Proof/Machine/Sweep.lean ====
section
/-! DEFINITION. NOP, SWEEP and SWEEP_LED (spec/42_sweep.md). -/

namespace Sys2Proof.Machine

/-- The colour words of strips `0 .. n - 1` at LED index `l`, encoded in ascending order (R95, R96). -/
def encodeStrips (p : PortView) (c : Setup) (l : Nat) (w : Work) : Nat → List Colour × Work
  | 0 => ([], w)
  | s + 1 =>
    let before := encodeStrips p c l w s
    let e := encodePixel p c (c.pixel s l) before.2
    (before.1 ++ [e.1], e.2)

/-- The first `n` of the six words of an LED index, written in emission order (R50, R57). -/
def writeGroup (p : PortView) (base : Word) (out : Vector Word 6) (w : Work) : Nat → Work
  | 0 => w
  | j + 1 => writeWord p (addrAt base (4 * j)) (out[j]?.getD 0) (writeGroup p base out w j)

/-- `LedGroup(l)` (R95). -/
def ledGroup (p : PortView) (c : Setup) (l : Nat) (w : Work) : Work :=
  let e := encodeStrips p c l w c.activeStrips
  writeGroup p (groupAddr c l) (transpose (fun s => e.1.getD s 0) c.activeStrips) e.2 6

/-- `LedGroup(0)` to `LedGroup(n - 1)`, in ascending order (R96, R97). -/
def sweepGroups (p : PortView) (c : Setup) (w : Work) : Nat → Work
  | 0 => w
  | l + 1 => ledGroup p c l (sweepGroups p c w l)

/-- The checks of SWEEP after BUSY, in their order (R97, R105). -/
def sweepChecks (s : State) : Option ErrCode :=
  (checkStrips s).or <| (checkLeds s).or <| (checkCoeff s).or <| (checkOutBase s).or (checkGammaBase s)

/-- The checks of SWEEP_LED `l` after BUSY, in their order (R98, R105). -/
def sweepLedChecks (l : Nat) (s : State) : Option ErrCode := (sweepChecks s).or (checkArg l s.setup.L)

/-- The completion of SWEEP (R97). -/
def completeSweep (s : State) : State :=
  let c := s.command
  endWork c.outBase (24 * c.L) (sweepPixels c)
    (sweepGroups (s.portView c.outBase (24 * c.L)) c s.startWork c.L) s

/-- The completion of SWEEP_LED `l` (R98). -/
def completeSweepLed (l : Nat) (s : State) : State :=
  let c := s.command
  endWork (groupAddr c l) 24 (ledPixels c l)
    (ledGroup (s.portView (groupAddr c l) 24) c l s.startWork) s

/-- NOP (R99): no check but BUSY, no work; ARG is ignored (R63). -/
def execNop (arg : Nat) (s : State) : Host.Outcome State Fault Refusal :=
  match s.mover with
  | .host => .next (issue (.nop arg) none s)
  | .engine => .next (finish s)

/-- SWEEP (R97); ARG is ignored (R63). -/
def execSweep (arg : Nat) (s : State) : Host.Outcome State Fault Refusal :=
  match s.mover with
  | .host => .next (issue (.sweep arg) (sweepChecks s) s)
  | .engine => .next (completeSweep s)

/-- SWEEP_LED `l` (R98). -/
def execSweepLed (l : Nat) (s : State) : Host.Outcome State Fault Refusal :=
  match s.mover with
  | .host => .next (issue (.sweepLed l) (sweepLedChecks l s) s)
  | .engine => .next (completeSweepLed l s)

end Sys2Proof.Machine
end

