-- ==== Sys2Proof/Machine/Dispatch.lean ====
section
/-! DEFINITION. One arm for each command. -/

namespace Sys2Proof.Machine

/-- What a command does in a state, in the half that `mover` names (R100). -/
def exec (i : Instr) (s : State) : Host.Outcome State Fault Refusal :=
  match i with
  | .nop arg => Sys2Proof.Machine.execNop arg s
  | .sweep arg => Sys2Proof.Machine.execSweep arg s
  | .sweepLed led => Sys2Proof.Machine.execSweepLed led s
  | .encode pixel => Sys2Proof.Machine.execEncode pixel s
  | .transpose arg => Sys2Proof.Machine.execTranspose arg s

end Sys2Proof.Machine
end

