-- ==== Sys2Proof/Machine/Port.lean ====
section
/-! DEFINITION. The register port (R19 to R34), other agents on memory (R46, R56, R57) and the reset input
(R116, R117). -/

namespace Sys2Proof.Machine

/-! ### The register port -/

/-- The register at a byte offset of the window, if one is there; the other offsets are reserved (R19). -/
def Reg.ofOffset (offset : BitVec 8) : Option Reg :=
  match offset.toNat with
  | 0x00 => some .id
  | 0x04 => some .cap
  | 0x08 => some .ctrl
  | 0x0C => some .status
  | 0x10 => some .cmd
  | 0x14 => some .coeff
  | 0x18 => some .leds
  | 0x1C => some .strips
  | 0x20 => some .prevBase
  | 0x24 => some .nextBase
  | 0x28 => some .outBase
  | 0x2C => some .gammaBase
  | 0x30 => some .result
  | 0x40 => some (.xin 0)
  | 0x44 => some (.xin 1)
  | 0x48 => some (.xin 2)
  | 0x4C => some (.xin 3)
  | 0x50 => some (.xin 4)
  | 0x54 => some (.xin 5)
  | 0x58 => some (.xin 6)
  | 0x5C => some (.xin 7)
  | 0x60 => some (.xout 0)
  | 0x64 => some (.xout 1)
  | 0x68 => some (.xout 2)
  | 0x6C => some (.xout 3)
  | 0x70 => some (.xout 4)
  | 0x74 => some (.xout 5)
  | _ => none

/-- The byte offset of a register (the table of section 2 of spec/10_state.md). -/
def Reg.offset : Reg → BitVec 8
  | .id => 0x00
  | .cap => 0x04
  | .ctrl => 0x08
  | .status => 0x0C
  | .cmd => 0x10
  | .coeff => 0x14
  | .leds => 0x18
  | .strips => 0x1C
  | .prevBase => 0x20
  | .nextBase => 0x24
  | .outBase => 0x28
  | .gammaBase => 0x2C
  | .result => 0x30
  | .xin s => BitVec.ofNat 8 (0x40 + 4 * s.val)
  | .xout j => BitVec.ofNat 8 (0x60 + 4 * j.val)

/-- What a register reads (R19, R21 to R34). -/
def regValue (r : Reg) (s : State) : Word :=
  match r with
  | .id => 0x46434C31
  | .cap => 0#4 ++ 8#4 ++ 3#4 ++ 8#4 ++ s.config.maxLeds
  | .ctrl => s.ctrlWord
  | .status => s.statusWord
  | .cmd => 0
  | .coeff => s.setup.coeff.setWidth 32
  | .leds => s.setup.leds.setWidth 32
  | .strips => s.setup.strips.setWidth 32
  | .prevBase => s.setup.prevBase
  | .nextBase => s.setup.nextBase
  | .outBase => s.setup.outBase
  | .gammaBase => s.setup.gammaBase
  | .result => s.result.setWidth 32
  | .xin k => s.xin[k].setWidth 32
  | .xout j => s.xout[j]

/-- What the window reads at an offset: a reserved offset returns 0 (R19). -/
def windowValue (offset : BitVec 8) (s : State) : Word :=
  match Reg.ofOffset offset with
  | some r => regValue r s
  | none => 0

/-- A write of CTRL (R23, R24): while BUSY only the enables are written (R20). -/
def writeCtrl (v : Word) (s : State) : State :=
  { s with
    ieDone := v.getLsbD 0
    ieErr := v.getLsbD 1
    setup :=
      if s.busy then s.setup
      else
        { s.setup with
          gmode := GammaMode.ofBit (v.getLsbD 2)
          chord := ChannelOrder.written (v.extractLsb' 4 3) s.setup.chord } }

/-- A write of a configuration register or XIN has no effect while BUSY (R20). -/
def unlessBusy (s : State) (written : State) : State := if s.busy then s else written

/-- A register write other than the issue of a command (R20, R23 to R34). Read-only registers ignore it; a write to
CMD is `issueWord` in Agents.lean. -/
def writeReg (r : Reg) (v : Word) (s : State) : State :=
  match r with
  | .id | .cap | .cmd | .result | .xout _ => s
  | .ctrl => writeCtrl v s
  | .status => { s with status := s.status.written v }
  | .coeff => unlessBusy s { s with setup := { s.setup with coeff := v.setWidth 17 } }
  | .leds => unlessBusy s { s with setup := { s.setup with leds := v.setWidth 16 } }
  | .strips => unlessBusy s { s with setup := { s.setup with strips := v.setWidth 4 } }
  | .prevBase => unlessBusy s { s with setup := { s.setup with prevBase := v } }
  | .nextBase => unlessBusy s { s with setup := { s.setup with nextBase := v } }
  | .outBase => unlessBusy s { s with setup := { s.setup with outBase := v } }
  | .gammaBase => unlessBusy s { s with setup := { s.setup with gammaBase := v } }
  | .xin k => unlessBusy s { s with xin := s.xin.set k (v.setWidth 24) }

/-- Whether an offset is one the port has a transaction for: bits [1:0] are 0 (R19). -/
def offsetAligned (offset : BitVec 8) : Bool := offset.extractLsb' 0 2 == 0

/-- A register-port read (R19): no side effect on any register. -/
def portRead (offset : BitVec 8) (s : State) : Host.Outcome State Fault Refusal :=
  if offsetAligned offset then .next { s with portData := windowValue offset s } else .refused .misalignedAccess

/-- One poll of `WAIT` (R69): read STATUS; if BUSY read 1, the engine takes its step before the next poll, which is
the fairness of R101. Log 17. -/
def poll (s : State) : State :=
  { s with
    portData := s.statusWord
    schedule := if s.busy then .engine :: .wait :: s.schedule else s.schedule }

/-! ### Other agents on memory -/

/-- The completion of a command (R100). -/
def completed (i : Instr) (s : State) : State :=
  match i with
  | .nop _ => finish s
  | .sweep _ => completeSweep s
  | .sweepLed l => completeSweepLed l s
  | .encode k => completeEncode k s
  | .transpose _ => completeTranspose s

/-- The memory the command in flight would leave if it completed now. After a bus fault the write range holds free bytes
(R108); neither R57 nor R108 says what an early reader, or R117 what a reset, finds of a command that will end in one:
here these very bytes are the value the command writes. DESIGN CHOICE: log 30. -/
def memoryIfCompleted (s : State) : Memory :=
  match s.inflight with
  | none => s.mem
  | some f => (completed f.cmd s).mem

/-- The raced bytes with the `n` bytes from `a` added: a write to them, with `m` the memory before it (R56, R57). -/
def addRaced (a : Word) (m : Memory) (raced : List Host.Cell) (n : Nat) : List Host.Cell :=
  raced ++ (List.range n).map fun b => ((addrAt a b).toNat, m.read (addrAt a b).toNat)

/-- The raced bytes when the command in flight ends: the moves before the end that write memory add theirs (R56). The
engine's turn, a `WAIT` (log 17) and a reset end it. Only the addresses count for what the command reads. -/
def racedToCome (m : Memory) : List Move → List Host.Cell → List Host.Cell
  | [], raced => raced
  | .engine :: _, raced => raced
  | .wait :: _, raced => raced
  | .reset :: _, raced => raced
  | .memWrite width a _ :: rest, raced => racedToCome m rest (addRaced a m raced width.bytes)
  | .write _ _ :: rest, raced => racedToCome m rest raced
  | .read _ :: rest, raced => racedToCome m rest raced
  | .memRead _ _ :: rest, raced => racedToCome m rest raced

/-- The memory whose write-range bytes are those that the command in flight is going to write (R57): whichever
bytes are raced by its end, the accesses of the command meet them so already now. Log 7. -/
def memoryToCome (s : State) : Memory :=
  memoryIfCompleted { s with raced := racedToCome s.mem s.schedule s.raced }

/-- Whether a byte is in the write range of the command in flight (R55). -/
def inFlightRange (s : State) (a : Word) : Bool :=
  match s.inflight with
  | none => false
  | some f => inRange (writeRange f).1 (writeRange f).2 a

/-- The free choice for byte `b` of an access at `a`: one for the draw-buffer word the access begins in and one for
the next, so that a 4-byte write is seen whole or not at all (R46). Log 9. -/
def choiceFor (s : State) (a : Word) (b : Nat) : Bool :=
  Config.freeChoice (s.choices + if (addrAt a b).toNat / 4 = a.toNat / 4 then 0 else 1)

/-- What another agent reads at byte `b` of an access at `a`: in the write range of the command in flight the value
before the command or the one the command writes (R57), elsewhere the value held. `new` is the memory to come. Log 7. -/
def agentByte (s : State) (new : Memory) (a : Word) (b : Nat) : Byte :=
  if inFlightRange s (addrAt a b) then
    if choiceFor s a b then new.read (addrAt a b).toNat else s.beforeCommand (addrAt a b).toNat
  else s.mem.read (addrAt a b).toNat

/-- Another agent reads memory (R57), little-endian. DESIGN CHOICE of widths, byte order and wrap: log 9. -/
def agentRead (width : Width) (a : Word) (s : State) : State :=
  { s with
    memData := assemble (agentByte s (memoryToCome s) a) width.bytes
    choices := s.choices + if s.busy then 2 else 0 }

/-- Another agent writes memory, little-endian; while a command is in flight the bytes are raced (R56). DESIGN CHOICE of
widths, byte order and wrap: log 9. Log 8. -/
def agentWrite (width : Width) (a v : Word) (s : State) : State :=
  { s with
    mem := s.mem.writeBytes a v width.bytes
    raced := if s.busy then addRaced a s.mem s.raced width.bytes else s.raced }

/-! ### The reset input -/

/-- Memory with each of the `n` bytes from `base` old or new by a free choice (R117). -/
def oldOrNew (new : Memory) (base : Word) (choice : Nat) (m : Memory) : Nat → Memory
  | 0 => m
  | k + 1 =>
    let before := oldOrNew new base choice m k
    if Config.freeChoice (choice + k) then
      before.write (addrAt base k).toNat (new.read (addrAt base k).toNat)
    else before

/-- Memory after a reset: the write range of a command in flight is old or new byte by byte (R117); everything else
is the host's and stays (R16). The old value is what memory holds at the reset, which is another agent's byte where one
wrote since the acceptance; this rule does not say which. DESIGN CHOICE: log 27. -/
def resetMemory (s : State) : Memory :=
  match s.inflight with
  | none => s.mem
  | some f => oldOrNew (memoryIfCompleted s) (writeRange f).1 s.choices s.mem (writeRange f).2

/-- The free choices a reset makes. -/
def resetChoices (s : State) : Nat :=
  match s.inflight with
  | none => 0
  | some f => (writeRange f).2

/-- How many free bytes have been drawn after a reset: it spends those behind the values the abandoned command would
have written, so that no later read meets them again (R56, R117). DESIGN CHOICE: log 28. -/
def resetDraws (s : State) : Nat :=
  match s.inflight with
  | none => s.draws
  | some f => (completed f.cmd s).draws

/-- The reset input, the cold start (R116): every register, every residual entry and the engine at their reset
values. The mark (R116), the build, memory and what is outside the block stay. Logs 12, 28.
R108 ties the mark to the completion step, and R116 and R117 say only that reset does not clear it: a reset that abandons
a command whose accesses meet a bus error does not set it either. DESIGN CHOICE: log 31. -/
def coldReset (s : State) : State :=
  { State.reset with
    mem := resetMemory s
    config := s.config
    busFault := s.busFault
    draws := resetDraws s
    choices := s.choices + resetChoices s
    mover := s.mover
    schedule := s.schedule
    portData := s.portData
    memData := s.memData }

end Sys2Proof.Machine
end

