-- ==== Sys2Proof/Machine/Agents.lean ====
section
/-! DEFINITION. The moves of the agents (R15, R100): what one step of the host, of the engine, of another agent or
of the reset input does. -/

namespace Sys2Proof.Machine

/-- A write of word `w` to CMD: the issue of one command (R27, R105). -/
def issueWord (w : Word) (s : State) : Host.Outcome State Fault Refusal :=
  match decode w with
  | .ok i => exec i { s with mover := .host }
  | .error _ => .next (rejectIllegal { s with mover := .host })

/-- The engine's step: the completion of the command in flight; idle, nothing (R18, R100, R118). -/
def engineStep (s : State) : Host.Outcome State Fault Refusal :=
  match s.inflight with
  | some f => exec f.cmd { s with mover := .engine }
  | none => .next s

/-- A register-port write (R19): the issue of a command at CMD (R27), nothing at a reserved offset. -/
def portWrite (offset : BitVec 8) (v : Word) (s : State) : Host.Outcome State Fault Refusal :=
  if offsetAligned offset then
    match Reg.ofOffset offset with
    | some .cmd => issueWord v s
    | some r => .next (writeReg r v s)
    | none => .next s
  else .refused .misalignedAccess

/-- One move. -/
def takeMove (m : Move) (s : State) : Host.Outcome State Fault Refusal :=
  match m with
  | .engine => engineStep s
  | .write offset v => portWrite offset v s
  | .read offset => portRead offset s
  | .wait => .next (poll s)
  | .memWrite width a v => .next (agentWrite width a v s)
  | .memRead width a => .next (agentRead width a s)
  | .reset => .next (coldReset s)

/-- One step: the next move of the schedule. When none is left the engine moves, so an accepted command always
completes (R101). -/
def stepMove (s : State) : Host.Outcome State Fault Refusal :=
  match s.schedule with
  | [] => engineStep s
  | m :: rest => takeMove m { s with schedule := rest }

end Sys2Proof.Machine
end

