-- ==== Sys2Proof/Machine/Step.lean ====
section
/-! DEFINITION. The step of the machine, and how an instruction is put where the next step takes it. -/

namespace Sys2Proof.Machine

/-- One step of the machine. -/
def step (s : State) : Host.Outcome State Fault Refusal := stepMove s

/-- The state whose next move is the host's write of a command word to CMD, which is how the block is given an
instruction (R18, R27). Log 1. -/
def State.withFetchWord (s : State) (nbits w : Nat) : State :=
  { s with schedule := .write 0x10 (BitVec.ofNat 32 (w % 2 ^ nbits)) :: s.schedule }

end Sys2Proof.Machine
end

