-- ==== Sys2Proof/Machine/Script.lean ====
section
/-! DEFINITION. Host scripts: the assembler's lines and pseudo-instructions, and the moves each stands for
(R68, R69). -/

namespace Sys2Proof.Machine

/-- A line of a host script (R68) or a pseudo-instruction (R69). -/
inductive ScriptLine where
  /-- `WR <reg>, <value>`. -/
  | wr (reg : Reg) (value : Word)
  /-- `RD <reg>`. -/
  | rd (reg : Reg)
  /-- A command by its mnemonic. -/
  | command (i : Instr)
  /-- `WAIT`. -/
  | wait
  /-- `CLEAR`. -/
  | clear
  /-- `SETCTRL gmode, chord, ie_done, ie_err`. -/
  | setctrl (gmode chord ieDone ieErr : Nat)
  /-- `REFRESH c`. -/
  | refresh (c : Word)
  /-- `CMD <word>`: a raw command word, legal or not. -/
  | cmd (word : Word)
  deriving DecidableEq, Repr

/-- The value `SETCTRL` writes: `(chord << 4) | (gmode << 2) | (ie_err << 1) | ie_done` (R69). -/
def ctrlValue (gmode chord ieDone ieErr : Nat) : Word :=
  BitVec.ofNat 32 ((chord <<< 4) ||| (gmode <<< 2) ||| (ieErr <<< 1) ||| ieDone)

/-- The moves a line stands for (R68, R69). -/
def ScriptLine.moves : ScriptLine → List Move
  | .wr r v => [.write r.offset v]
  | .rd r => [.read r.offset]
  | .command i => [.write Reg.cmd.offset (encode i)]
  | .wait => [.wait]
  | .clear => [.write Reg.status.offset 0x6]
  | .setctrl g c d e => [.write Reg.ctrl.offset (ctrlValue g c d e)]
  | .refresh c => [.write Reg.coeff.offset c, .write Reg.cmd.offset (encode (.sweep 0)), .wait]
  | .cmd w => [.write Reg.cmd.offset w]

/-- A script as a schedule. -/
def scriptMoves (lines : List ScriptLine) : List Move := lines.flatMap ScriptLine.moves

end Sys2Proof.Machine
end

