-- ==== Sys2Proof/WellFormed.lean ====
section
/-! DEFINITION. Which terms stand for something the hardware has. -/

namespace Sys2Proof

/-- A command is well formed when its argument fits the 24-bit ARG field (R62, R68). -/
abbrev Instr.WellFormed (i : Instr) : Prop := i.arg < 2 ^ 24

/-- A build is well formed when `1 <= MAX_LEDS`; the upper bound is the field's width (R8). -/
abbrev Config.WellFormed (c : Config) : Prop := c.maxLeds ≠ 0

end Sys2Proof
end

