-- ==== Sys2Proof/Safety.lean ====
section
/-! DEFINITION. The terms that claims about runs use: the invariant of the machine, and the duties of host and
platform under which a command computes what the spec says (R108, R122). -/

namespace Sys2Proof.Machine

/-- The acceptance checks a command passed still hold of a configuration (R105): the snapshot is legal. -/
def Setup.legalFor (c : Setup) (config : Config) : Instr → Prop
  | .nop _ => True
  | .transpose _ => 1 ≤ c.N ∧ c.N ≤ 8
  | .sweep _ =>
    (1 ≤ c.N ∧ c.N ≤ 8) ∧ (1 ≤ c.L ∧ c.L ≤ config.maxLeds.toNat) ∧ c.coeff.toNat ≤ 0x10000 ∧
      c.outBase.toNat % 4 = 0 ∧ c.gammaBase.toNat % 2 = 0
  | .sweepLed l =>
    (1 ≤ c.N ∧ c.N ≤ 8) ∧ (1 ≤ c.L ∧ c.L ≤ config.maxLeds.toNat) ∧ c.coeff.toNat ≤ 0x10000 ∧
      c.outBase.toNat % 4 = 0 ∧ c.gammaBase.toNat % 2 = 0 ∧ l < c.L
  | .encode i =>
    (1 ≤ c.N ∧ c.N ≤ 8) ∧ (1 ≤ c.L ∧ c.L ≤ config.maxLeds.toNat) ∧ c.coeff.toNat ≤ 0x10000 ∧
      c.gammaBase.toNat % 2 = 0 ∧ i < c.N * c.L

/-- The engine's part of the invariant: idle, no byte is raced; busy, the snapshot equals the registers (R38), it
passed the checks (R105), and DONE is clear (R25). -/
def State.engineInv (s : State) : Prop :=
  match s.inflight with
  | none => s.raced = []
  | some f =>
    f.cmd.WellFormed ∧ f.snapshot = s.setup ∧ f.snapshot.legalFor s.config f.cmd ∧ s.status.done = false

/-- What every reachable state satisfies. -/
structure State.Inv (s : State) : Prop where
  /-- Memory is in canonical form, below 2^32 (R41). -/
  memWf : s.mem.wf = true
  memBelow : s.mem.below (2 ^ 32) = true
  /-- The residual store is in canonical form and has `8 * MAX_LEDS * 3` entries (R35). -/
  residualsWf : s.residuals.wf = true
  residualsBelow : s.residuals.below (8 * s.config.maxLeds.toNat * 3) = true
  /-- ERRCODE is NONE exactly while ERR is 0 (R104). -/
  codeIffErr : s.status.errCode = .none ↔ s.status.err = false
  /-- ERR_OVF only beside ERR (R25). -/
  ovfErr : s.status.errOvf = true → s.status.err = true
  engine : s.engineInv
  /-- `1 <= MAX_LEDS` (R8). -/
  build : s.config.WellFormed

/-- No other agent wrote memory since the acceptance, and the port answers nothing with an error: the premises of
R56 (a) and "no BUS_ERR" of R108. -/
def State.Quiet (s : State) : Prop := s.raced = [] ∧ ∀ a, Config.busError s.config a = false

/-- Bytes of the gamma table in a format (R49). -/
def GammaMode.tableBytes (g : GammaMode) : Nat := 2 * (g.entries * 3)

/-- The write range of a command meets neither framebuffer nor the gamma table (R122 (b)). -/
def Setup.RegionsApart (c : Setup) (base : Word) (len : Nat) : Prop :=
  (∀ k, k < 3 * c.N * c.L →
    inRange base len (addrAt c.prevBase k) = false ∧ inRange base len (addrAt c.nextBase k) = false) ∧
  ∀ k, k < c.gmode.tableBytes → inRange base len (addrAt c.gammaBase k) = false

/-- A safe run records no bus fault (R108): the premise of a claim about a run. -/
def State.Safe (s : State) : Prop := s.busFault = false

end Sys2Proof.Machine
end

