-- ==== Sys2Proof/Certificates/Slice0/Obligations.lean ====
section
/-! DEFINITION. What is claimed of the model, from the rules of spec/. `Sys2Proof.Manual` holds the rules' own formulas,
written on natural numbers and on memory as it stands, independently of the model's data path. -/

namespace Sys2Proof.Manual

open Sys2Proof.Machine

/-! ### The formulas of spec/20_memory.md and spec/40_pixel_encoder.md -/

/-- The byte of memory at an address, as a number. -/
def byteAt (s : State) (a : Word) : Nat := (s.mem.read a.toNat).toNat

/-- `B + 3i + ch` (R48). -/
def fbAddr (base : Word) (i ch : Nat) : Word := base + BitVec.ofNat 32 (3 * i + ch)

/-- `GAMMA_BASE + 2 * (E * ch + k)` with `E` = 65536 or 257 (R49). -/
def entryAddr (c : Setup) (ch k : Nat) : Word :=
  c.gammaBase + BitVec.ofNat 32 (2 * ((if c.gmode = .direct then 65536 else 257) * ch + k))

/-- `GammaEntry(ch, k)`, little-endian (R44, R49). -/
def entry (s : State) (c : Setup) (ch k : Nat) : Nat :=
  byteAt s (entryAddr c ch k) + 256 * byteAt s (entryAddr c ch k + 1)

/-- `lin` of channel `ch` of pixel `i` (R70 to R72). -/
def lin (s : State) (c : Setup) (i ch : Nat) : Nat :=
  (257 * byteAt s (fbAddr c.prevBase i ch) * (0x10000 - c.coeff.toNat)
    + 257 * byteAt s (fbAddr c.nextBase i ch) * c.coeff.toNat) / 0x10000

/-- `gam` (R74, R75). -/
def gam (s : State) (c : Setup) (i ch : Nat) : Nat :=
  let x := lin s c i ch
  match c.gmode with
  | .direct => entry s c ch x
  | .interp257 => (entry s c ch (x / 256) * (256 - x % 256) + entry s c ch (x / 256 + 1) * (x % 256)) / 256

/-- `vs = min(gam + Res[i][ch], 0xFFFF)` (R77, R78). -/
def saturated (s : State) (c : Setup) (i ch : Nat) : Nat :=
  min (gam s c i ch + (s.residuals.read (3 * i + ch)).toNat) 0xFFFF

/-- `q[ch] = vs[15:8]` (R78). -/
def level (s : State) (c : Setup) (i ch : Nat) : Nat := saturated s c i ch / 256

/-- The residual entry written, `vs[7:0]` (R78). -/
def leftover (s : State) (c : Setup) (i ch : Nat) : Byte := BitVec.ofNat 8 (saturated s c i ch % 256)

/-- The channels of a colour word from the top, by the table of R79. -/
def packOrder : ChannelOrder → Nat × Nat × Nat
  | .q2q1q0 => (2, 1, 0)
  | .q1q0q2 => (1, 0, 2)
  | .q0q1q2 => (0, 1, 2)
  | .q0q2q1 => (0, 2, 1)
  | .q1q2q0 => (1, 2, 0)
  | .q2q0q1 => (2, 0, 1)

/-- The colour word of pixel `i` (R79, R80). -/
def colour (s : State) (c : Setup) (i : Nat) : Colour :=
  BitVec.ofNat 24
    (level s c i (packOrder c.chord).1 * 2 ^ 16 + level s c i (packOrder c.chord).2.1 * 2 ^ 8
      + level s c i (packOrder c.chord).2.2)

/-- The addresses of the gamma bytes read for a channel (R74, R75). -/
def gammaReads (s : State) (c : Setup) (i ch : Nat) : List Word :=
  let x := lin s c i ch
  match c.gmode with
  | .direct => [entryAddr c ch x, entryAddr c ch x + 1]
  | .interp257 =>
    [entryAddr c ch (x / 256), entryAddr c ch (x / 256) + 1,
      entryAddr c ch (x / 256 + 1), entryAddr c ch (x / 256 + 1) + 1]

/-- The addresses of the bytes that the encoding of pixel `i` reads (R80). -/
def encodeReads (s : State) (c : Setup) (i : Nat) : List Word :=
  [0, 1, 2].flatMap fun ch => fbAddr c.prevBase i ch :: fbAddr c.nextBase i ch :: gammaReads s c i ch

/-- STATUS after the completion of a command: DONE set (R25); BUSY is the engine's. -/
def doneStatus (t : Status) : Status := { t with done := true }

/-- STATUS after RecordError (R107). -/
def recordedStatus (e : ErrCode) (t : Status) : Status :=
  if t.err = false then { t with err := true, errCode := e } else { t with errOvf := true }

/-- Bit `b` of byte `m` of the image of LED index `l` in the draw buffer: bit `23 - m` of strip `b`'s colour word, 0
for an inactive strip (R51, R93). -/
def imageBit (s : State) (c : Setup) (l m b : Nat) : Bool :=
  decide (b < c.strips.toNat) && (colour s c (b * c.leds.toNat + l)).getLsbD (23 - m)

/-! ### Acceptance, spec/60_exceptions.md R105 -/

/-- The error a write of `w` to CMD raises, by the pseudocode of R105; none: the command is accepted. -/
def firstError (s : State) (w : Word) : Option ErrCode :=
  let op := w.toNat % 16
  let rsv := w.toNat / 16 % 16
  let arg := w.toNat / 256
  let n := s.setup.strips.toNat
  let l := s.setup.leds.toNat
  if s.inflight ≠ none then some .busy
  else if rsv ≠ 0 ∨ 4 < op then some .illegalCmd
  else if op ≠ 0 ∧ ¬(1 ≤ n ∧ n ≤ 8) then some .cfgStrips
  else if (op = 1 ∨ op = 2 ∨ op = 3) ∧ ¬(1 ≤ l ∧ l ≤ s.config.maxLeds.toNat) then some .cfgLeds
  else if (op = 1 ∨ op = 2 ∨ op = 3) ∧ 0x10000 < s.setup.coeff.toNat then some .cfgCoeff
  else if (op = 1 ∨ op = 2) ∧ s.setup.outBase.toNat % 4 ≠ 0 then some .align
  else if (op = 1 ∨ op = 2 ∨ op = 3) ∧ s.setup.gammaBase.toNat % 2 ≠ 0 then some .align
  else if op = 2 ∧ l ≤ arg then some .argRange
  else if op = 3 ∧ n * l ≤ arg then some .argRange
  else none

/-- The engine takes the next step: nothing is scheduled before it (R100). -/
def engineNext (s : State) : Prop := s.schedule = [] ∨ s.schedule.head? = some .engine

/-- The engine is about to complete command `i`, accepted with configuration `c`. -/
def completing (i : Instr) (c : Setup) (s : State) : Prop :=
  s.mover = .engine ∧ s.inflight = some { cmd := i, snapshot := c }

/-- The pixels a command encodes (R86, R97, R98). -/
def encodes (i : Instr) (c : Setup) (pixel : Nat) : Prop :=
  match i with
  | .nop _ | .transpose _ => False
  | .encode k => pixel = k
  | .sweepLed l => ∃ s, s < c.strips.toNat ∧ pixel = s * c.leds.toNat + l
  | .sweep _ => pixel < c.strips.toNat * c.leds.toNat

/-- Whether an address is in a command's write range (R55). -/
def writes (i : Instr) (c : Setup) (a : Word) : Prop :=
  match i with
  | .nop _ | .encode _ | .transpose _ => False
  | .sweepLed l => (a - (c.outBase + BitVec.ofNat 32 (24 * l))).toNat < 24
  | .sweep _ => (a - c.outBase).toNat < 24 * c.leds.toNat

/-- What makes the results of a command determined (R56, R108): no byte that it reads was written by another agent
since the acceptance or is in its own write range, and no byte that it reads or writes is answered with an error. -/
def undisturbed (i : Instr) (c : Setup) (s : State) : Prop :=
  (∀ p, encodes i c p → ∀ a ∈ encodeReads s c p,
    a.toNat ∉ s.racedAddrs ∧ ¬writes i c a ∧ Config.busError s.config a = false) ∧
  ∀ a, writes i c a → Config.busError s.config a = false

/-- The number of an error code (the table of R104). -/
def errorNumber : ErrCode → Nat
  | .none => 0
  | .illegalCmd => 1
  | .busy => 2
  | .cfgStrips => 3
  | .cfgLeds => 4
  | .cfgCoeff => 5
  | .align => 6
  | .argRange => 7
  | .busErr => 8

/-- Whether an address is in the write range of the command in flight (R55). -/
def inFlightWrites (s : State) (a : Word) : Prop := ∃ f, s.inflight = some f ∧ writes f.cmd f.snapshot a

/-- The moves that issue commands one after another, each completed before the next. -/
def issueAll (cmds : List Instr) : List Move := cmds.flatMap fun i => [.write 0x10 (encode i), .engine]

/-- `M` quantisations of the same gamma value, each from the residual the one before left: the sum of the outputs and
the last residual (R85). -/
def ditherRun (gam : BitVec 16) : Nat → Byte → Nat × Byte
  | 0, r => (0, r)
  | m + 1, r =>
    let rest := ditherRun gam m (quantise gam r).2
    ((quantise gam r).1.toNat + rest.1, rest.2)

end Sys2Proof.Manual

section Statements

open Sys2Proof Sys2Proof.Machine

/-! ### Encoding (spec/30_encoding.md) -/

/-- Decoding an encoded well-formed command gives it back: no bit of OP, RSV or ARG is dropped (R62). -/
def Obligations.DecodeOfEncodeIsIdentity : Prop :=
  ∀ i : Instr, i.WellFormed → decode (encode i) = .ok i

/-- A word that decodes is the word of the command it decodes to, which is well formed: each word has one meaning. -/
def Obligations.EncodeOfDecodeIsIdentity : Prop :=
  ∀ (w : Word) (i : Instr), decode w = .ok i → i.WellFormed ∧ encode i = w

/-- R62: the fields of a word, the five legal opcodes, and ILLEGAL_CMD for every other word. -/
def Obligations.DecodeByFields : Prop :=
  ∀ w : Word,
    decode w =
      if w.toNat / 16 % 16 ≠ 0 then .error .illegalCmd
      else if w.toNat % 16 = 0 then .ok (.nop (w.toNat / 256))
      else if w.toNat % 16 = 1 then .ok (.sweep (w.toNat / 256))
      else if w.toNat % 16 = 2 then .ok (.sweepLed (w.toNat / 256))
      else if w.toNat % 16 = 3 then .ok (.encode (w.toNat / 256))
      else if w.toNat % 16 = 4 then .ok (.transpose (w.toNat / 256))
      else .error .illegalCmd

/-- R67: the example encodings. -/
def Obligations.ExampleWordsDecode : Prop :=
  decode 0x00000000 = .ok (.nop 0) ∧ decode 0x00000001 = .ok (.sweep 0) ∧
    decode 0x00000502 = .ok (.sweepLed 5) ∧ decode 0x00012303 = .ok (.encode 0x123) ∧
    decode 0x00000004 = .ok (.transpose 0) ∧ decode 0x00000015 = .error .illegalCmd ∧
    decode 0x00000014 = .error .illegalCmd

/-! ### The step (spec/42_sweep.md section 3) -/

/-- When the next move is a write to CMD of a word that decodes to `i`, the step is `exec i` at that state with the
move taken and the host's half chosen; `withFetchWord` puts such a move there. The schedule and the two halves are the
model's choice (logs 1, 2). -/
def Obligations.StepRunsTheIssuedCommand : Prop :=
  (∀ (s : State) (w : Word) (rest : List Move) (i : Instr), s.schedule = .write 0x10 w :: rest → decode w = .ok i →
    step s = exec i { s with schedule := rest, mover := .host }) ∧
  ∀ (s : State) (w : Nat) (i : Instr), decodeTableWord 32 w = some i →
    step (s.withFetchWord 32 w) = exec i { s with mover := .host }

/-- When a command is in flight and the engine is next, the step is `exec` of that command with the engine's half
chosen; idle, the engine's step changes nothing. The schedule and the two halves are the model's choice (logs 1, 2). -/
def Obligations.StepRunsTheCommandInFlight : Prop :=
  (∀ (s : State) (f : InFlight), Manual.engineNext s → s.inflight = some f →
    step s = exec f.cmd { s with schedule := s.schedule.tail, mover := .engine }) ∧
  ∀ s : State, Manual.engineNext s → s.inflight = none → step s = .next { s with schedule := s.schedule.tail }

/-- R103: no command ever stops the machine; errors are recorded and the block goes on. -/
def Obligations.EveryCommandHasANextState : Prop :=
  ∀ (i : Instr) (s : State), ∃ t, exec i s = .next t

/-- The step refuses only a misaligned register access (R19), and never faults. -/
def Obligations.StepStopsOnlyOnMisalignedAccess : Prop :=
  ∀ s : State,
    (∃ t, step s = .next t) ∨
      (step s = .refused .misalignedAccess ∧
        ∃ off : BitVec 8, off.toNat % 4 ≠ 0 ∧
          (s.schedule.head? = some (.read off) ∨ ∃ v, s.schedule.head? = some (.write off v)))

/-! ### Acceptance and rejection (spec/60_exceptions.md) -/

/-- R105: a write of word `w` to CMD is checked in order; the first check that fails decides the error recorded, and
nothing else changes; when none fails the command is accepted: BUSY, DONE cleared, the snapshot taken. -/
def Obligations.CommandWriteIsCheckedInOrder : Prop :=
  ∀ (s : State) (w : Word) (rest : List Move), s.schedule = .write 0x10 w :: rest →
    match Manual.firstError s w with
    | some e =>
      step s =
        .next { s with schedule := rest, mover := .host, status := Manual.recordedStatus e s.status }
    | none =>
      ∃ i, decode w = .ok i ∧
        step s =
          .next
            { s with
              schedule := rest
              mover := .host
              inflight := some { cmd := i, snapshot := s.setup }
              status := { s.status with done := false }
              raced := [] }

/-- Each command is accepted by `exec` in every idle state whose configuration passes the command's own checks. -/
def Obligations.EveryCommandIsAcceptedWhenLegal : Prop :=
  ∀ (i : Instr) (s : State), s.mover = .host → s.inflight = none → s.setup.legalFor s.config i →
    exec i s =
      .next
        { s with
          inflight := some { cmd := i, snapshot := s.setup }
          status := { s.status with done := false }
          raced := [] }

/-- R106: a rejected command does no work. Whatever word is written to CMD, if no command is accepted by it then
memory, residuals, data and configuration registers, BUSY, the command in flight and DONE are as they were, and
STATUS differs by the error recording alone. -/
def Obligations.RejectionDoesNoWork : Prop :=
  ∀ (s t : State) (w : Word) (rest : List Move), s.schedule = .write 0x10 w :: rest →
    (s.inflight ≠ none ∨ t.inflight = none) → step s = .next t →
    ∃ e, e ≠ ErrCode.none ∧
      t = { s with schedule := rest, mover := .host, status := Manual.recordedStatus e s.status } ∧
      t.status.done = s.status.done

/-- R66: a word with OP in 0x5..0xF or RSV not 0 is rejected, with ILLEGAL_CMD by an idle block and with BUSY by a busy
one (R105), and changes nothing but STATUS; every other word is one of the five commands. -/
def Obligations.ReservedEncodingsDoNoWork : Prop :=
  ∀ (s : State) (w : Word) (rest : List Move), s.schedule = .write 0x10 w :: rest →
    if 5 ≤ w.toNat % 16 ∨ w.toNat / 16 % 16 ≠ 0 then
      step s =
        .next
          { s with
            schedule := rest
            mover := .host
            status := Manual.recordedStatus (if s.inflight = none then .illegalCmd else .busy) s.status }
    else ∃ i, decode w = .ok i

/-- R63: the ARG of NOP, SWEEP and TRANSPOSE makes no difference to what their completion does. -/
def Obligations.IgnoredArgumentMakesNoDifference : Prop :=
  ∀ (s : State) (a b : Nat), s.mover = .engine →
    exec (.nop a) s = exec (.nop b) s ∧ exec (.sweep a) s = exec (.sweep b) s ∧
      exec (.transpose a) s = exec (.transpose b) s

/-! ### Completion of each command -/

/-- R99: NOP completes: BUSY and DONE, and nothing else. -/
def Obligations.NopCompletes : Prop :=
  ∀ (s : State) (c : Setup) (a : Nat), Manual.completing (.nop a) c s →
    exec (.nop a) s = .next { s with inflight := none, status := Manual.doneStatus s.status, raced := [] }

/-- R94: TRANSPOSE completes with the transposed words in XOUT: bit `8k + st` of XOUT_j is bit `4(5 - j) + 3 - k` of
XIN_st for an active strip and 0 for an inactive one; and nothing else changes. -/
def Obligations.TransposeCompletes : Prop :=
  ∀ (s : State) (c : Setup) (a : Nat), Manual.completing (.transpose a) c s →
    ∃ out : Vector Word 6,
      exec (.transpose a) s =
        .next { s with xout := out, inflight := none, status := Manual.doneStatus s.status, raced := [] } ∧
      ∀ (j : Fin 6) (k : Fin 4) (st : Fin 8),
        out[j].getLsbD (8 * k + st) =
          (decide (st.val < c.strips.toNat) && s.xin[st].getLsbD (4 * (5 - j) + 3 - k))

/-- R80, R86: ENCODE completes with the pixel's colour word in RESULT and its three residual entries advanced, when no
byte it reads was written by another agent since its acceptance and none is answered with an error; no other residual
entry, no byte of memory and no other register changes. -/
def Obligations.EncodeCompletes : Prop :=
  ∀ (s : State) (c : Setup) (i : Nat), Manual.completing (.encode i) c s → c.coeff.toNat ≤ 0x10000 →
    s.residuals.wf = true →
    (∀ a ∈ Manual.encodeReads s c i, a.toNat ∉ s.racedAddrs ∧ Config.busError s.config a = false) →
    ∃ res : Memory,
      exec (.encode i) s =
        .next
          { s with
            result := Manual.colour s c i
            residuals := res
            inflight := none
            status := Manual.doneStatus s.status
            raced := [] } ∧
      res.wf = true ∧
      ∀ j ch, ch < 3 →
        res.read (3 * j + ch) = if j = i then Manual.leftover s c i ch else s.residuals.read (3 * j + ch)

/-- R95, R98: SWEEP_LED `l` completes, when nothing disturbs what it reads and writes: the 24 bytes of LED index `l` in
the draw buffer hold the bit-planes of the colour words of its pixels, each of those pixels' residual entries is
advanced once, and no other byte, residual entry or register changes. Other agents may have written into the write
range since the acceptance: that the 24 bytes hold the command's bytes then too, such a write being overwritten at the
completion, is the model's choice (log 8). -/
def Obligations.SweepLedCompletes : Prop :=
  ∀ (s : State) (c : Setup) (l : Nat), Manual.completing (.sweepLed l) c s → c.legalFor s.config (.sweepLed l) →
    s.mem.wf = true → s.residuals.wf = true → Manual.undisturbed (.sweepLed l) c s →
    ∃ (mem res : Memory),
      exec (.sweepLed l) s =
        .next
          { s with
            mem := mem
            residuals := res
            inflight := none
            status := Manual.doneStatus s.status
            raced := [] } ∧
      mem.wf = true ∧ res.wf = true ∧
      (∀ a : Word,
        let m := (a - (c.outBase + BitVec.ofNat 32 (24 * l))).toNat
        if m < 24 then ∀ b, b < 8 → (mem.read a.toNat).getLsbD b = Manual.imageBit s c l m b
        else mem.read a.toNat = s.mem.read a.toNat) ∧
      ∀ i ch, ch < 3 →
        (Manual.encodes (.sweepLed l) c i → res.read (3 * i + ch) = Manual.leftover s c i ch) ∧
        (¬Manual.encodes (.sweepLed l) c i → res.read (3 * i + ch) = s.residuals.read (3 * i + ch))

/-- R51, R95, R97: SWEEP completes, when nothing disturbs what it reads and writes: byte `m` of LED index `l` of the
draw buffer holds bit `23 - m` of every active strip's colour word, every residual entry of an active pixel is advanced
exactly once, and no other byte, residual entry or register changes. Other agents may have written into the write range
since the acceptance: that the draw buffer holds the command's bytes then too, such a write being overwritten at the
completion, is the model's choice (log 8). -/
def Obligations.SweepCompletes : Prop :=
  ∀ (s : State) (c : Setup) (a : Nat), Manual.completing (.sweep a) c s → c.legalFor s.config (.sweep a) →
    s.mem.wf = true → s.residuals.wf = true → Manual.undisturbed (.sweep a) c s →
    ∃ (mem res : Memory),
      exec (.sweep a) s =
        .next
          { s with
            mem := mem
            residuals := res
            inflight := none
            status := Manual.doneStatus s.status
            raced := [] } ∧
      mem.wf = true ∧ res.wf = true ∧
      (∀ x : Word,
        let d := (x - c.outBase).toNat
        if d < 24 * c.leds.toNat then
          ∀ b, b < 8 → (mem.read x.toNat).getLsbD b = Manual.imageBit s c (d / 24) (d % 24) b
        else mem.read x.toNat = s.mem.read x.toNat) ∧
      ∀ i ch, ch < 3 →
        if i < c.strips.toNat * c.leds.toNat then res.read (3 * i + ch) = Manual.leftover s c i ch
        else res.read (3 * i + ch) = s.residuals.read (3 * i + ch)

/-- The frame of every completion, bus faults and races included: the command completes, with DONE set and at most
BUS_ERR recorded; CTRL, the configuration, XIN, the build and what is outside the block never change; RESULT changes
by ENCODE only and XOUT by TRANSPOSE only; memory changes in the command's write range only (R55); and residual entries
of pixels the command encodes only (R81, R95). -/
def Obligations.CompletionFrame : Prop :=
  ∀ (i : Instr) (s : State) (c : Setup), Manual.completing i c s → c.legalFor s.config i →
    ∃ t, exec i s = .next t ∧ t.inflight = none ∧
      (t.status = Manual.doneStatus s.status ∨
        t.status = Manual.doneStatus (Manual.recordedStatus .busErr s.status) ∧ t.busFault = true) ∧
      (t.ieDone = s.ieDone ∧ t.ieErr = s.ieErr ∧ t.setup = s.setup ∧ t.xin = s.xin ∧ t.config = s.config ∧
        t.schedule = s.schedule ∧ t.portData = s.portData ∧ t.memData = s.memData) ∧
      (t.result ≠ s.result → ∃ k, i = .encode k) ∧ (t.xout ≠ s.xout → ∃ k, i = .transpose k) ∧
      (∀ a : Word, ¬Manual.writes i c a → t.mem.read a.toNat = s.mem.read a.toNat) ∧
      ∀ p ch, ch < 3 → ¬Manual.encodes i c p → t.residuals.read (3 * p + ch) = s.residuals.read (3 * p + ch)

/-- R108: when a byte that ENCODE reads is answered with an error, the command still completes: BUS_ERR is recorded,
then BUSY is 0 and DONE 1, and the mark is set. RESULT and the pixel's residual entries are any value; nothing else of
the block and no memory changes. That one erring byte fails the 2-byte read of a gamma entry is the model's choice
(log 4). -/
def Obligations.EncodeBusFaultIsRecorded : Prop :=
  ∀ (s : State) (c : Setup) (i : Nat), Manual.completing (.encode i) c s → c.coeff.toNat ≤ 0x10000 →
    (∀ a ∈ Manual.encodeReads s c i, a.toNat ∉ s.racedAddrs) →
    (∃ a ∈ Manual.encodeReads s c i, Config.busError s.config a = true) →
    ∃ t,
      exec (.encode i) s = .next t ∧
      t =
        { s with
          result := t.result
          residuals := t.residuals
          draws := t.draws
          inflight := none
          status := Manual.doneStatus (Manual.recordedStatus .busErr s.status)
          busFault := true
          raced := [] } ∧
      ∀ j ch, j ≠ i → ch < 3 → t.residuals.read (3 * j + ch) = s.residuals.read (3 * j + ch)

/-- R108: when a byte that SWEEP or SWEEP_LED writes, a framebuffer byte that it reads, or a byte of a gamma entry that
it reads is answered with an error, the command still completes: BUS_ERR is recorded, then BUSY is 0 and DONE 1, and the
mark is set. The bytes of the write range and the residual entries of the command's pixels are any value; nothing else
changes. Which gamma entries are read is fixed where no byte the pixel's encoding reads is raced or in the write range (R56). That
one erring byte fails a whole 4-byte write or 2-byte read is the model's choice (log 4). -/
def Obligations.SweepBusFaultIsRecorded : Prop :=
  ∀ (i : Instr) (s : State) (c : Setup) (x : Word), (∃ k, i = .sweep k ∨ i = .sweepLed k) →
    Manual.completing i c s → c.legalFor s.config i → Config.busError s.config x = true →
    (Manual.writes i c x ∨
      (∃ p ch, Manual.encodes i c p ∧ ch < 3 ∧
        (x = Manual.fbAddr c.prevBase p ch ∨ x = Manual.fbAddr c.nextBase p ch)) ∨
      ∃ p, Manual.encodes i c p ∧ x ∈ Manual.encodeReads s c p ∧
        ∀ a ∈ Manual.encodeReads s c p, a.toNat ∉ s.racedAddrs ∧ ¬Manual.writes i c a) →
    ∃ t,
      exec i s = .next t ∧
      t =
        { s with
          mem := t.mem
          residuals := t.residuals
          draws := t.draws
          inflight := none
          status := Manual.doneStatus (Manual.recordedStatus .busErr s.status)
          busFault := true
          raced := [] } ∧
      (∀ a : Word, ¬Manual.writes i c a → t.mem.read a.toNat = s.mem.read a.toNat) ∧
      ∀ p ch, ch < 3 → ¬Manual.encodes i c p → t.residuals.read (3 * p + ch) = s.residuals.read (3 * p + ch)

/-- R124, R38: a completion uses the configuration of its acceptance, whatever the registers hold by then. -/
def Obligations.CompletionUsesTheSnapshot : Prop :=
  ∀ (i : Instr) (s t : State) (c d : Setup), Manual.completing i c s → exec i s = .next t →
    exec i { s with setup := d } = .next { t with setup := d }

/-- R82: what ENCODE computes is a function of the bytes it reads, the configuration and the pixel's residual entries:
two states that agree on these give the same RESULT and the same residual entries, whatever else they hold. -/
def Obligations.EncodeDependsOnItsReadSetOnly : Prop :=
  ∀ (s s' t t' : State) (c : Setup) (i : Nat), Manual.completing (.encode i) c s → Manual.completing (.encode i) c s' →
    c.coeff.toNat ≤ 0x10000 → s.residuals.wf = true → s'.residuals.wf = true →
    (∀ a ∈ Manual.encodeReads s c i,
      a.toNat ∉ s.racedAddrs ∧ a.toNat ∉ s'.racedAddrs ∧ s'.mem.read a.toNat = s.mem.read a.toNat ∧ Config.busError s.config a = false ∧
        Config.busError s'.config a = false) →
    (∀ ch, ch < 3 → s'.residuals.read (3 * i + ch) = s.residuals.read (3 * i + ch)) →
    exec (.encode i) s = .next t → exec (.encode i) s' = .next t' →
    t'.result = t.result ∧ ∀ ch, ch < 3 → t'.residuals.read (3 * i + ch) = t.residuals.read (3 * i + ch)

/-- R98: a SWEEP equals SWEEP_LED 0, SWEEP_LED 1, ..., SWEEP_LED `L - 1` issued in that order with nothing between
them. The premise that nothing disturbs the SWEEP excludes the free values. -/
def Obligations.SweepEqualsItsSweepLeds : Prop :=
  ∀ (s : State) (t u : State), s.Inv → s.inflight = none → s.setup.legalFor s.config (.sweep 0) →
    Manual.undisturbed (.sweep 0) s.setup s →
    core.run 2 { s with schedule := Manual.issueAll [.sweep 0] } = .next t →
    core.run (2 * s.setup.leds.toNat)
      { s with schedule := Manual.issueAll ((List.range s.setup.leds.toNat).map .sweepLed) } = .next u →
    t = u

/-! ### The data path (spec/40_pixel_encoder.md, spec/41_transposer.md) -/

/-- R70: the weights of every legal coefficient, and their sum as an integer identity. -/
def Obligations.WeightsSumToUnit : Prop :=
  ∀ c : BitVec 17, c.toNat ≤ 0x10000 →
    weightPrev c = 0x10000 - c.toNat ∧ weightNext c = c.toNat ∧ weightPrev c ≤ 0x10000 ∧ weightNext c ≤ 0x10000 ∧
      weightPrev c + weightNext c = 0x10000 ∧ 257 * weightPrev c + 257 * weightNext c = 0x1010000

/-- R71: widening repeats the byte. -/
def Obligations.WideningRepeatsTheByte : Prop :=
  ∀ p : Byte,
    widen p = 257 * p.toNat ∧ widen p ≤ 0xFFFF ∧ widen p = (p ++ p).toNat ∧
      widen 0x00 = 0x0000 ∧ widen 0x80 = 0x8080 ∧ widen 0xFF = 0xFFFF

/-- R72: the blend is the floor of the exact weighted sum, which fits 32 bits; it lies between the widened values and
equals the folded form. -/
def Obligations.BlendIsTheExactFloor : Prop :=
  ∀ (c : BitVec 17) (p n : Byte), c.toNat ≤ 0x10000 →
    (blend c p n).toNat = (widen p * weightPrev c + widen n * weightNext c) / 2 ^ 16 ∧
      widen p * weightPrev c + widen n * weightNext c ≤ 0xFFFF0000 ∧
      min (widen p) (widen n) ≤ (blend c p n).toNat ∧ (blend c p n).toNat ≤ max (widen p) (widen n) ∧
      (blend c p n).toNat = (p.toNat * 257 * (0x10000 - c.toNat) + n.toNat * 257 * c.toNat) / 2 ^ 16

/-- R73: the corner values of the blend. -/
def Obligations.BlendCorners : Prop :=
  ∀ (c : BitVec 17) (p n : Byte), c.toNat ≤ 0x10000 →
    (c.toNat = 0 → (blend c p n).toNat = widen p) ∧ (c.toNat = 0x10000 → (blend c p n).toNat = widen n) ∧
      (widen p = widen n → (blend c p n).toNat = widen p) ∧
      (blend c 0x00 0xFF).toNat = 0xFFFF * c.toNat / 2 ^ 16 ∧
      ((blend c 0x00 0xFF).toNat = 0xFFFF ↔ c.toNat = 0x10000) ∧
      (blend 0x0FFFF 0x00 0xFF).toNat = 0xFFFE ∧ (blend 0x08000 0x00 0xFF).toNat = 0x7FFF

/-- R75: the interpolated gamma value is the floor of the exact weighted sum and lies between the two entries. -/
def Obligations.InterpolationStaysBetweenEntries : Prop :=
  ∀ (t0 t1 : BitVec 16) (a : Byte),
    (interpolate t0 t1 a).toNat = (t0.toNat * (256 - a.toNat) + t1.toNat * a.toNat) / 256 ∧
      t0.toNat * (256 - a.toNat) + t1.toNat * a.toNat ≤ 0xFFFF00 ∧
      min t0.toNat t1.toNat ≤ (interpolate t0 t1 a).toNat ∧ (interpolate t0 t1 a).toNat ≤ max t0.toNat t1.toNat

/-- R77, R78: the sum of gamma value and residual, its saturation, and what becomes of its two bytes. -/
def Obligations.QuantisationSplitsTheSaturatedSum : Prop :=
  ∀ (gam : BitVec 16) (r : Byte),
    let v := gam.toNat + r.toNat
    v ≤ 0x100FE ∧ (quantise gam r).1.toNat = min v 0xFFFF / 256 ∧ (quantise gam r).2.toNat = min v 0xFFFF % 256 ∧
      (v ≤ 0xFFFF → 256 * (quantise gam r).1.toNat + (quantise gam r).2.toNat = v) ∧
      (0xFFFF < v → 0xFF00 < gam.toNat ∧ r ≠ 0 ∧ quantise gam r = (0xFF, 0xFF))

/-- R79: where each quantised channel stands in the colour word, for every CHORD. -/
def Obligations.PackingFollowsTheChordTable : Prop :=
  ∀ (order : ChannelOrder) (q0 q1 q2 : Byte),
    let q := fun ch : Nat => if ch = 0 then q0.toNat else if ch = 1 then q1.toNat else q2.toNat
    (pack order q0 q1 q2).toNat =
      q (Manual.packOrder order).1 * 2 ^ 16 + q (Manual.packOrder order).2.1 * 2 ^ 8 + q (Manual.packOrder order).2.2 ∧
    (order.bits.toNat = 0 → Manual.packOrder order = (2, 1, 0)) ∧
    (order.bits.toNat = 1 → Manual.packOrder order = (1, 0, 2)) ∧
    (order.bits.toNat = 2 → Manual.packOrder order = (0, 1, 2)) ∧
    (order.bits.toNat = 3 → Manual.packOrder order = (0, 2, 1)) ∧
    (order.bits.toNat = 4 → Manual.packOrder order = (1, 2, 0)) ∧
    (order.bits.toNat = 5 → Manual.packOrder order = (2, 0, 1)) ∧ order.bits.toNat ≤ 5

/-- R85: over `M` encodings with the same gamma value no brightness is lost: below saturation the outputs sum to
`(M * gam + r0 - rM) / 256` exactly, so the sum is within 255 of the target; above 0xFF00 every output is 0xFF. -/
def Obligations.DitheringConvergesToTheTarget : Prop :=
  ∀ (gam : BitVec 16) (m : Nat) (r : Byte),
    (gam.toNat ≤ 0xFF00 →
      256 * (Manual.ditherRun gam m r).1 + (Manual.ditherRun gam m r).2.toNat = m * gam.toNat + r.toNat ∧
      256 * (Manual.ditherRun gam m r).1 ≤ m * gam.toNat + 255 ∧
      m * gam.toNat ≤ 256 * (Manual.ditherRun gam m r).1 + 255) ∧
    (0xFF00 < gam.toNat → (Manual.ditherRun gam m r).1 = m * 0xFF)

/-- R88, R89, R90: every bit of every output word of the transposer, for every strip count. -/
def Obligations.TransposerBits : Prop :=
  ∀ (cw : Nat → Colour) (n : Nat) (j : Fin 6) (k : Fin 4) (st : Fin 8),
    (transpose cw n)[j].getLsbD (8 * k + st) = if st.val < n then (cw st).getLsbD (4 * (5 - j) + 3 - k) else false

/-- R92: the inverse bit-extraction recovers every active strip's colour word; inactive strips' bits are 0. -/
def Obligations.TransposerIsInvertible : Prop :=
  ∀ (cw : Nat → Colour) (n : Nat) (st : Fin 8) (b : Fin 24),
    (transpose cw n)[5 - b.val / 4].getLsbD (8 * (3 - b.val % 4) + st) =
      if st.val < n then (cw st).getLsbD b else false

/-- R93: byte `m` of the little-endian image of the six words holds in bit `st` the bit `23 - m` of strip `st`. -/
def Obligations.TransposedImageIsBitPlanes : Prop :=
  ∀ (cw : Nat → Colour) (n : Nat) (m : Fin 24) (st : Fin 8),
    ((transpose cw n)[m.val / 4].extractLsb' (8 * (m.val % 4)) 8).getLsbD st =
      if st.val < n then (cw st).getLsbD (23 - m) else false

/-! ### The memory port (spec/20_memory.md) -/

/-- R43, R44, R45, R42: little-endian accesses at addresses modulo 2^32. A 4-byte write puts byte `b` of the value at
`addr + b` and leaves every other byte; a 2-byte read assembles the two bytes. -/
def Obligations.PortAccessesAreLittleEndian : Prop :=
  (∀ (p : PortView) (a v x : Word) (w : Work), w.mem.wf = true →
    ((writeWord p a v w).mem.read x.toNat).toNat =
      if (x - a).toNat < 4 then v.toNat / 2 ^ (8 * (x - a).toNat) % 256 else (w.mem.read x.toNat).toNat) ∧
  ∀ (p : PortView) (a : Word) (w : Work), p.unstable a = false → p.unstable (a + 1) = false →
    (readHalf p a w).1.toNat = (p.mem.read a.toNat).toNat + (p.mem.read (a + 1).toNat).toNat * 2 ^ 8

/-- R56: a byte a command reads is the byte held, unless another agent wrote it or it is in the command's own write
range; then it is a free byte, a fresh one for each read. -/
def Obligations.ReadsAreStableOrFree : Prop :=
  ∀ (p : PortView) (a : Word) (w : Work),
    (a.toNat ∉ p.raced → inRange p.rangeBase p.rangeLen a = false →
      (readByte p a w).1 = p.mem.read a.toNat ∧ (readByte p a w).2.draws = w.draws) ∧
    (a.toNat ∈ p.raced ∨ inRange p.rangeBase p.rangeLen a = true →
      (readByte p a w).1 = Config.freeByte w.draws ∧ (readByte p a w).2.draws = w.draws + 1)

/-- R56, R57: what other agents' writes do. As long as a command stays in flight, the raced bytes grow by exactly the
bytes that another agent's write covers; every byte that is not raced keeps the value it held; and every byte's value
from before the command, which is the byte held while nothing is raced, stays known. In every state such a write puts
byte `b` of its value at `addr + b` modulo 2^32, leaves every other byte, and changes nothing else but the raced bytes,
which it leaves alone when nothing is in flight. The widths, the byte order and the wrap modulo 2^32 of another agent's
write are the model's choice (log 9), and so is that a write of the value already there counts as a write (log 6). -/
def Obligations.UnracedBytesKeepTheirValue : Prop :=
  (∀ (s t : State) (f : InFlight), s.inflight = some f → t.inflight = some f → step s = .next t → ∀ a : Nat,
    (a ∈ t.racedAddrs ↔
      a ∈ s.racedAddrs ∨
        ∃ (width : Width) (addr v : Word), s.schedule.head? = some (.memWrite width addr v) ∧
          ∃ b, b < width.bytes ∧ a = (addr + BitVec.ofNat 32 b).toNat) ∧
    (a ∉ t.racedAddrs → t.mem.read a = s.mem.read a) ∧
    t.beforeCommand a = s.beforeCommand a ∧ (s.raced = [] → s.beforeCommand a = s.mem.read a)) ∧
  ∀ (s : State) (width : Width) (addr v : Word) (rest : List Move), s.schedule = .memWrite width addr v :: rest →
    s.mem.wf = true →
    ∃ t,
      step s = .next t ∧ t = { s with schedule := rest, mem := t.mem, raced := t.raced } ∧
      (s.inflight = none → t.raced = s.raced) ∧
      ∀ x : Word,
        (t.mem.read x.toNat).toNat =
          if (x - addr).toNat < width.bytes then v.toNat / 2 ^ (8 * (x - addr).toNat) % 2 ^ 8
          else (s.mem.read x.toNat).toNat

/-- R57, R46: what another agent reads, at any width and address. Each byte of the write range in flight is the byte's
value before the command or the byte the command writes, with one choice for each draw-buffer word that the access
touches, so that a word is seen whole or not at all; every other byte is the byte held; and nothing but what the agent
received changes. The choice is free (log 7); the widths, the byte order and the wrap modulo 2^32 of another agent's
read, and that it chooses once for each word, are the model's choice (log 9); that the byte a command ending in a bus
fault writes is the one it leaves is the model's choice (log 30). -/
def Obligations.EarlyReadsAreOldOrNew : Prop :=
  ∀ (s t : State) (width : Width) (a : Word) (rest : List Move), s.schedule = .memRead width a :: rest →
    step s = .next t →
    t = { s with schedule := rest, memData := t.memData, choices := t.choices } ∧
    t.memData.toNat < 2 ^ (8 * width.bytes) ∧
    (∃ takesNew : Nat → Bool, ∀ b, b < width.bytes →
      let x := a + BitVec.ofNat 32 b
      (Manual.inFlightWrites s x →
        t.memData.toNat / 2 ^ (8 * b) % 2 ^ 8 =
          (if takesNew (x.toNat / 4) then (memoryToCome s).read x.toNat else s.beforeCommand x.toNat).toNat) ∧
      (¬Manual.inFlightWrites s x → t.memData.toNat / 2 ^ (8 * b) % 2 ^ 8 = (s.mem.read x.toNat).toNat)) ∧
    (width = .word → a.toNat % 4 = 0 → (∀ b, b < 4 → Manual.inFlightWrites s (a + BitVec.ofNat 32 b)) →
      let wordOf := fun byte : Nat → Byte =>
        (byte a.toNat).toNat + (byte (a + 1).toNat).toNat * 2 ^ 8 + (byte (a + 2).toNat).toNat * 2 ^ 16
          + (byte (a + 3).toNat).toNat * 2 ^ 24
      t.memData.toNat = wordOf s.beforeCommand ∨ t.memData.toNat = wordOf (memoryToCome s).read)

/-- The memory to come, which early reads refer to (R57, log 7), is the memory the completion leaves when the engine is
next; and as long as the command stays in flight no step changes its bytes in the write range, whatever other agents
write: the value an early reader gets as new is the one the command writes. That this holds of a command ending in a
bus fault too is the model's choice (log 30). That it holds of another agent's write into the write range, which the
completion overwrites, is the model's choice (log 8). -/
def Obligations.MemoryToComeIsWhatCompletionLeaves : Prop :=
  (∀ s t : State, Manual.engineNext s → step s = .next t → t.mem = memoryToCome s) ∧
  ∀ (s t : State) (f : InFlight), s.Inv → s.inflight = some f → t.inflight = some f → step s = .next t →
    ∀ a : Word, Manual.writes f.cmd f.snapshot a → (memoryToCome t).read a.toNat = (memoryToCome s).read a.toNat

/-! ### The register file (spec/10_state.md) -/

/-- R19: a register read changes no register, no memory and no engine state; a reserved offset reads 0 and a write to
it has no effect; neither has a write to a read-only register (ID, CAP, RESULT, XOUT; the table of section 2); an
access with offset bits [1:0] not 0 is refused. The table of section 2: in every state each offset reads the register
that stands there, with the bits it does not hold 0 (R23, R27 to R34). -/
def Obligations.RegisterReadsHaveNoSideEffect : Prop :=
  (∀ (s : State) (off : BitVec 8) (v : Word) (rest : List Move),
    (s.schedule = .read off :: rest → off.toNat % 4 = 0 →
      step s = .next { s with schedule := rest, portData := windowValue off s }) ∧
    (0x34 ≤ off.toNat ∧ off.toNat ≤ 0x3C ∨ 0x78 ≤ off.toNat →
      windowValue off s = 0 ∧
      (s.schedule = .write off v :: rest → off.toNat % 4 = 0 → step s = .next { s with schedule := rest })) ∧
    (off.toNat ∈ [0x00, 0x04, 0x30, 0x60, 0x64, 0x68, 0x6C, 0x70, 0x74] → s.schedule = .write off v :: rest →
      step s = .next { s with schedule := rest }) ∧
    (s.schedule = .read off :: rest ∨ s.schedule = .write off v :: rest → off.toNat % 4 ≠ 0 →
      step s = .refused .misalignedAccess)) ∧
  ∀ s : State,
    windowValue 0x10 s = 0 ∧ (windowValue 0x30 s).toNat = s.result.toNat ∧
      (∀ j : Fin 6, windowValue (BitVec.ofNat 8 (0x60 + 4 * j.val)) s = s.xout[j]) ∧
      (∀ k : Fin 8, (windowValue (BitVec.ofNat 8 (0x40 + 4 * k.val)) s).toNat = s.xin[k].toNat) ∧
      (windowValue 0x08 s).toNat =
        s.ieDone.toNat + 2 * s.ieErr.toNat + 4 * (if s.setup.gmode = .interp257 then 1 else 0)
          + 16 * s.setup.chord.bits.toNat ∧
      (windowValue 0x14 s).toNat = s.setup.coeff.toNat ∧ (windowValue 0x18 s).toNat = s.setup.leds.toNat ∧
      (windowValue 0x1C s).toNat = s.setup.strips.toNat ∧ windowValue 0x20 s = s.setup.prevBase ∧
      windowValue 0x24 s = s.setup.nextBase ∧ windowValue 0x28 s = s.setup.outBase ∧
      windowValue 0x2C s = s.setup.gammaBase

/-- R21, R22: what ID and CAP read, in every state. -/
def Obligations.IdentityAndCapability : Prop :=
  ∀ s : State,
    windowValue 0x00 s = 0x46434C31 ∧
      (windowValue 0x04 s).toNat % 2 ^ 16 = s.config.maxLeds.toNat ∧
      (windowValue 0x04 s).toNat / 2 ^ 16 % 16 = 8 ∧ (windowValue 0x04 s).toNat / 2 ^ 20 % 16 = 3 ∧
      (windowValue 0x04 s).toNat / 2 ^ 24 % 16 = 8 ∧ (windowValue 0x04 s).toNat / 2 ^ 28 = 0

/-- R25, R104: every bit of what STATUS reads, the error code by its number in the table of R104. -/
def Obligations.StatusWordFields : Prop :=
  ∀ (s : State) (b : Nat),
    (windowValue 0x0C s).getLsbD b =
      if b = 0 then s.inflight.isSome else if b = 1 then s.status.done else if b = 2 then s.status.err
      else if b = 3 then s.status.errOvf
      else if 8 ≤ b ∧ b < 12 then (Manual.errorNumber s.status.errCode).testBit (b - 8) else false

/-- R20: while BUSY, configuration and XIN writes have no effect, a CTRL write updates only the enables, a CMD write
is rejected with BUSY, and a STATUS write acts as R26. -/
def Obligations.BusyProtectsTheConfiguration : Prop :=
  ∀ (s : State) (off : BitVec 8) (v : Word) (rest : List Move), s.inflight ≠ none →
    s.schedule = .write off v :: rest →
    ((off.toNat ∈ [0x14, 0x18, 0x1C, 0x20, 0x24, 0x28, 0x2C, 0x40, 0x44, 0x48, 0x4C, 0x50, 0x54, 0x58, 0x5C] →
      step s = .next { s with schedule := rest }) ∧
    (off = 0x08 →
      step s = .next { s with schedule := rest, ieDone := v.getLsbD 0, ieErr := v.getLsbD 1 }) ∧
    (off = 0x0C → step s = .next { s with schedule := rest, status := s.status.written v }) ∧
    (off = 0x10 →
      step s = .next { s with schedule := rest, mover := .host, status := Manual.recordedStatus .busy s.status }))

/-- R23, R24: an idle CTRL write stores the enables and GMODE, and CHORD when it is 0..5; 6 and 7 leave CHORD
unchanged. What CTRL then reads is the value written, with the reserved bits 0. -/
def Obligations.CtrlWriteKeepsChordLegal : Prop :=
  ∀ (s t : State) (v : Word) (rest : List Move), s.inflight = none → s.schedule = .write 0x08 v :: rest →
    step s = .next t →
    t = { s with
          schedule := rest
          ieDone := v.getLsbD 0
          ieErr := v.getLsbD 1
          setup := { s.setup with gmode := t.setup.gmode, chord := t.setup.chord } } ∧
    (t.setup.gmode = .interp257 ↔ v.getLsbD 2 = true) ∧
    (v.toNat / 16 % 8 ≤ 5 → (windowValue 0x08 t).toNat = v.toNat % 8 + 16 * (v.toNat / 16 % 8)) ∧
    (5 < v.toNat / 16 % 8 →
      t.setup.chord = s.setup.chord ∧ (windowValue 0x08 t).toNat = v.toNat % 8 + 16 * s.setup.chord.bits.toNat) ∧
    (windowValue 0x08 t).toNat / 16 % 8 ≤ 5

/-- R26: the write-one-to-clear bits of STATUS, honoured while BUSY too. -/
def Obligations.StatusWriteClears : Prop :=
  ∀ (s : State) (v : Word) (rest : List Move), s.schedule = .write 0x0C v :: rest →
    step s =
      .next
        { s with
          schedule := rest
          status :=
            { done := if v.getLsbD 1 then false else s.status.done
              err := if v.getLsbD 2 then false else s.status.err
              errOvf := if v.getLsbD 2 then false else s.status.errOvf
              errCode := if v.getLsbD 2 then .none else s.status.errCode } }

/-- R28 to R33: an idle write of a configuration register or XIN reads back as written, cut to the register's width; and
it changes that register alone: every other offset of the window reads as before, and so do memory, the residual store
and the rest of the machine. -/
def Obligations.IdleWritesReadBack : Prop :=
  ∀ (s : State) (off : BitVec 8) (v : Word) (rest : List Move), s.inflight = none →
    s.schedule = .write off v :: .read off :: rest →
    let width : Nat :=
      if off = 0x14 then 17 else if off = 0x18 then 16 else if off = 0x1C then 4
      else if off.toNat ∈ [0x20, 0x24, 0x28, 0x2C] then 32
      else if off.toNat ∈ [0x40, 0x44, 0x48, 0x4C, 0x50, 0x54, 0x58, 0x5C] then 24 else 0
    width ≠ 0 →
    ∃ u t,
      step s = .next u ∧ step u = .next t ∧ t.portData.toNat = v.toNat % 2 ^ width ∧
      u = { s with schedule := .read off :: rest, setup := u.setup, xin := u.xin } ∧
      t = { u with schedule := rest, portData := t.portData } ∧
      ∀ other : BitVec 8, other ≠ off → windowValue other u = windowValue other s

/-- R69: the pseudo-instructions and their expansions. A `WAIT` reads STATUS; when BUSY reads 0 it ends, and when BUSY
reads 1 it repeats after the engine's step, which is the model's choice (log 17). -/
def Obligations.PseudoInstructionsExpand : Prop :=
  (∀ s : State, takeMove .wait s =
    .next
      { s with
        portData := windowValue 0x0C s
        schedule := if s.inflight = none then s.schedule else .engine :: .wait :: s.schedule }) ∧
  ScriptLine.wait.moves = [.wait] ∧
  ScriptLine.clear.moves = [.write 0x0C 0x6] ∧
  (∀ g c d e : Nat, g < 2 → c < 8 → d < 2 → e < 2 →
    ∃ v : Word, (ScriptLine.setctrl g c d e).moves = [.write 0x08 v] ∧ v.toNat = c * 16 + g * 4 + e * 2 + d) ∧
  (∀ c : Word, (ScriptLine.refresh c).moves = [.write 0x14 c, .write 0x10 0x1, .wait]) ∧
  ∀ w : Word, (ScriptLine.cmd w).moves = [.write 0x10 w]

/-- R40: the interrupt level. -/
def Obligations.InterruptLevel : Prop :=
  ∀ s : State, s.irq = true ↔ (s.status.done = true ∧ s.ieDone = true) ∨ (s.status.err = true ∧ s.ieErr = true)

/-! ### Rules of the whole machine -/

/-- R107: RecordError keeps the first error; and ERR, ERR_OVF and ERRCODE are cleared together by a write of 1 to
STATUS bit [2] and by reset, and by nothing else. -/
def Obligations.ErrorsAreClearedByTheHostOnly : Prop :=
  (∀ (e : ErrCode) (s : State), recordError e s = { s with status := Manual.recordedStatus e s.status }) ∧
  ∀ s t : State, step s = .next t →
    (s.status.err = true ∧ t.status.err = false) ∨ (s.status.errOvf = true ∧ t.status.errOvf = false) ∨
      (s.status.err = true ∧ t.status.errCode ≠ s.status.errCode) →
    ((∃ v : Word, v.getLsbD 2 = true ∧ s.schedule.head? = some (.write 0x0C v)) ∨ s.schedule.head? = some .reset) ∧
      t.status.err = false ∧ t.status.errOvf = false ∧ t.status.errCode = .none

/-- R32, R33, R34: RESULT is written only by ENCODE, XOUT only by TRANSPOSE, XIN only by a register write; or by
reset. -/
def Obligations.DataRegistersChangeOnlyBy : Prop :=
  ∀ s t : State, step s = .next t → s.schedule.head? ≠ some .reset →
    (t.result ≠ s.result → Manual.engineNext s ∧ ∃ c i, s.inflight = some { cmd := .encode i, snapshot := c }) ∧
    (t.xout ≠ s.xout → Manual.engineNext s ∧ ∃ c a, s.inflight = some { cmd := .transpose a, snapshot := c }) ∧
    (t.xin ≠ s.xin → s.inflight = none ∧ ∃ (k : Fin 8) (v : Word),
      s.schedule.head? = some (.write (BitVec.ofNat 8 (0x40 + 4 * k)) v))

/-- R36, R37: a residual entry changes only by an encoding of its pixel, or by reset. -/
def Obligations.ResidualsChangeOnlyByEncoding : Prop :=
  ∀ (s t : State) (p ch : Nat), s.Inv → ch < 3 → step s = .next t → s.schedule.head? ≠ some .reset →
    t.residuals.read (3 * p + ch) ≠ s.residuals.read (3 * p + ch) →
    Manual.engineNext s ∧ ∃ f, s.inflight = some f ∧ Manual.encodes f.cmd f.snapshot p

/-- R20, R125: the configuration and XIN stay as they are while a command is in flight, until reset. -/
def Obligations.ConfigurationIsConstantInFlight : Prop :=
  ∀ s t : State, s.inflight ≠ none → step s = .next t → s.schedule.head? ≠ some .reset →
    t.setup = s.setup ∧ t.xin = s.xin

/-- The build parameters never change (R8), and the bus-fault mark, once set, stays (R108, R116). -/
def Obligations.BuildAndMarkPersist : Prop :=
  ∀ s t : State, step s = .next t → t.config = s.config ∧ (s.busFault = true → t.busFault = true)

/-- The invariant that every step keeps: canonical memory and residual store, the residual store's size (R35), the
STATUS bits' coherence (R25, R104), and, in flight, a legal snapshot equal to the registers with DONE clear (R38). -/
def Obligations.EveryStepKeepsTheInvariant : Prop :=
  ∀ s t : State, s.Inv → step s = .next t → t.Inv

/-- The invariant holds after reset. -/
def Obligations.ResetSatisfiesTheInvariant : Prop := State.reset.Inv

/-- R101: an accepted command always completes: whatever the host and other agents do, short of a reset and of accesses
the port has no transaction for, the command's completion is taken within one more step than there are moves. The
schedule, and the engine's turn when it is empty, are the model's choice (log 1), and so is that a `WAIT` gives the engine its turn (log 17), on which
the bound rests. -/
def Obligations.AcceptedCommandsComplete : Prop :=
  ∀ s : State, s.inflight ≠ none →
    (∀ m ∈ s.schedule, m ≠ .reset ∧ ∀ (off : BitVec 8) (v : Word),
      (m = .read off ∨ m = .write off v) → off.toNat % 4 = 0) →
    ∃ n t, n ≤ s.schedule.length + 1 ∧ core.run n s = .next t ∧ t.inflight = none ∧ t.status.done = true

/-! ### Reset (spec/70_reset_and_hazards.md) -/

/-- R116: the reset input sets every register, every residual entry and the engine; `irq` is low; the bus-fault mark is
not cleared. That a reset does not set the mark either, also where the command it abandons meets a bus error, is the
model's choice (log 31). -/
def Obligations.ResetSetsEveryRegister : Prop :=
  ∀ (s : State) (rest : List Move), s.schedule = .reset :: rest →
    ∃ t, step s = .next t ∧
      (∀ off : BitVec 8, off ≠ 0x00 → off ≠ 0x04 → windowValue off t = 0) ∧
      windowValue 0x00 t = 0x46434C31 ∧ windowValue 0x04 t = windowValue 0x04 s ∧
      (∀ i ch, readResidual t.residuals i ch = 0) ∧ t.inflight = none ∧ t.irq = false ∧
      t.ieDone = false ∧ t.ieErr = false ∧ t.busFault = s.busFault

/-- R117: a reset in flight abandons the command; each byte of its write range holds its old value or the value the
command would have written, and no other byte changes; a reset of an idle block leaves memory as it is (R16). That the
old value of a byte another agent wrote in flight is the byte held at the reset is the model's choice (log 27), and so
is what is found of a command that would have ended in a bus fault (log 30). -/
def Obligations.ResetLeavesMemoryOldOrNew : Prop :=
  ∀ (s : State) (rest : List Move), s.Inv → s.schedule = .reset :: rest →
    ∃ t, step s = .next t ∧ t.inflight = none ∧ t.status.done = false ∧
      (s.inflight = none → t.mem = s.mem) ∧
      ∀ f, s.inflight = some f → ∀ a : Word,
        (Manual.writes f.cmd f.snapshot a →
          t.mem.read a.toNat = s.mem.read a.toNat ∨ t.mem.read a.toNat = (memoryToCome s).read a.toNat) ∧
        (¬Manual.writes f.cmd f.snapshot a → t.mem.read a.toNat = s.mem.read a.toNat)

/-- R118: the configuration after reset is not legal for any command but NOP: the others are rejected with
CFG_STRIPS, for every build. -/
def Obligations.AfterResetOnlyNopIsAccepted : Prop :=
  ∀ (s : State) (rest : List Move) (i : Instr), i.WellFormed →
    s.schedule = .reset :: .write 0x10 (encode i) :: rest →
    ∃ t, core.run 2 s = .next t ∧
      if i.opcode = 0 then t.inflight ≠ none ∧ t.status.err = false
      else t.inflight = none ∧ t.status = { done := false, err := true, errOvf := false, errCode := .cfgStrips }

end Statements
end

