-- ==== Sys2Proof/Laws/Bits.lean ====
section
/-! SUPPORT. Concatenation of bit fields as numbers and bit by bit, and the words CTRL and STATUS read as. -/

namespace Sys2Proof.Machine

/-- A concatenation as a number: the high part above the low part. -/
theorem toNat_append_eq {n m : Nat} (a : BitVec n) (b : BitVec m) : (a ++ b).toNat = a.toNat * 2 ^ m + b.toNat := by
  rw [BitVec.toNat_append, ← Nat.shiftLeft_add_eq_or_of_lt b.isLt, Nat.shiftLeft_eq]

/-- A bit of a concatenation. -/
theorem getLsbD_append_eq {n m : Nat} (a : BitVec n) (b : BitVec m) (k : Nat) :
    (a ++ b).getLsbD k = if k < m then b.getLsbD k else a.getLsbD (k - m) := BitVec.getLsbD_append

theorem State.ctrlWord_toNat (s : State) :
    s.ctrlWord.toNat =
      16 * s.setup.chord.bits.toNat + 4 * s.setup.gmode.bit.toNat + 2 * s.ieErr.toNat + s.ieDone.toNat := by
  have h : s.ctrlWord.toNat =
      (((((0#25).toNat * 2 ^ 3 + s.setup.chord.bits.toNat) * 2 ^ 1 + (0#1).toNat) * 2 ^ 1
        + (BitVec.ofBool s.setup.gmode.bit).toNat) * 2 ^ 1 + (BitVec.ofBool s.ieErr).toNat) * 2 ^ 1
        + (BitVec.ofBool s.ieDone).toNat := by
    simp only [← toNat_append_eq]
    rfl
  simp only [BitVec.toNat_ofBool, BitVec.toNat_ofNat] at h
  omega

theorem State.statusWord_toNat (s : State) :
    s.statusWord.toNat =
      256 * s.status.errCode.bits.toNat + 8 * s.status.errOvf.toNat + 4 * s.status.err.toNat
        + 2 * s.status.done.toNat + s.busy.toNat := by
  have h : s.statusWord.toNat =
      ((((((0#20).toNat * 2 ^ 4 + s.status.errCode.bits.toNat) * 2 ^ 4 + (0#4).toNat) * 2 ^ 1
        + (BitVec.ofBool s.status.errOvf).toNat) * 2 ^ 1 + (BitVec.ofBool s.status.err).toNat) * 2 ^ 1
        + (BitVec.ofBool s.status.done).toNat) * 2 ^ 1 + (BitVec.ofBool s.busy).toNat := by
    simp only [← toNat_append_eq]
    rfl
  simp only [BitVec.toNat_ofBool, BitVec.toNat_ofNat] at h
  omega

end Sys2Proof.Machine
end

