-- ==== Sys2Proof/Laws/Memory.lean ====
section
/-! SUPPORT. The laws of byte storage: read after write, the canonical form, and that it makes equal contents equal
data. -/

namespace Sys2Proof.Machine

/-! ### Read after write -/

theorem Memory.read_write_ne (m : Memory) {a c : Nat} (b : Byte) (h : a ≠ c) :
    (m.write a b).read c = m.read c := by
  induction m with
  | nil => unfold Memory.write; split <;> simp_all [Memory.read]
  | cons cell m ih =>
    obtain ⟨k, v⟩ := cell
    unfold Memory.write
    split_ifs <;> simp_all [Memory.read]

theorem Memory.read_eq_unlisted {low : Nat} {m : Memory} (h : m.wfFrom low = true) {a : Nat} (ha : a < low) :
    m.read a = Memory.unlisted := by
  induction m generalizing low with
  | nil => rfl
  | cons cell m ih =>
    obtain ⟨k, v⟩ := cell
    simp only [Memory.wfFrom, Bool.and_eq_true, decide_eq_true_eq] at h
    simp only [Memory.read, if_neg (show k ≠ a by omega)]
    exact ih h.2 (by omega)

theorem Memory.read_write_self {low : Nat} {m : Memory} (h : m.wfFrom low = true) (a : Nat) (b : Byte) :
    (m.write a b).read a = b := by
  induction m generalizing low with
  | nil => unfold Memory.write; split <;> simp_all [Memory.read]
  | cons cell m ih =>
    obtain ⟨k, v⟩ := cell
    simp only [Memory.wfFrom, Bool.and_eq_true, decide_eq_true_eq] at h
    unfold Memory.write
    split_ifs with hka hb hak hb
    · subst hka; simp [hb, Memory.read_eq_unlisted h.2 (Nat.lt_succ_self _)]
    · simp [Memory.read]
    · simp [hb, Memory.read, hka, Memory.read_eq_unlisted h.2 (show a < k + 1 by omega)]
    · simp [Memory.read]
    · simp [Memory.read, hka, ih h.2]

/-- Reading after a write to canonical storage. -/
theorem Memory.read_write {m : Memory} (h : m.wf = true) (a c : Nat) (b : Byte) :
    (m.write a b).read c = if a = c then b else m.read c := by
  split
  · next e => subst e; exact Memory.read_write_self h a b
  · next e => exact Memory.read_write_ne m b e

/-! ### The canonical form -/

theorem Memory.wfFrom_mono {low high : Nat} {m : Memory} (h : m.wfFrom high = true) (hl : low ≤ high) :
    m.wfFrom low = true := by
  cases m with
  | nil => rfl
  | cons cell m =>
    obtain ⟨k, v⟩ := cell
    simp only [Memory.wfFrom, Bool.and_eq_true, decide_eq_true_eq] at h ⊢
    exact ⟨⟨by omega, h.1.2⟩, h.2⟩

theorem Memory.write_wfFrom {low : Nat} {m : Memory} (h : m.wfFrom low = true) {a : Nat} (ha : low ≤ a) (b : Byte) :
    (m.write a b).wfFrom low = true := by
  induction m generalizing low with
  | nil => unfold Memory.write; split <;> simp_all [Memory.wfFrom]
  | cons cell m ih =>
    obtain ⟨k, v⟩ := cell
    simp only [Memory.wfFrom, Bool.and_eq_true, decide_eq_true_eq] at h
    obtain ⟨⟨hk, hv⟩, hm⟩ := h
    unfold Memory.write
    split_ifs with hka hb hak hb
    · exact Memory.wfFrom_mono hm (by omega)
    · simp_all [Memory.wfFrom]
    · simp_all [Memory.wfFrom]
    · simp_all [Memory.wfFrom]
    · simp only [Memory.wfFrom, Bool.and_eq_true, decide_eq_true_eq]
      exact ⟨⟨hk, hv⟩, ih hm (by omega)⟩

/-- A write keeps the canonical form. -/
theorem Memory.write_wf {m : Memory} (h : m.wf = true) (a : Nat) (b : Byte) : (m.write a b).wf = true :=
  Memory.write_wfFrom h (Nat.zero_le a) b

theorem Memory.write_below {bound : Nat} {m : Memory} (h : m.below bound = true) {a : Nat} (ha : a < bound) (b : Byte) :
    (m.write a b).below bound = true := by
  induction m with
  | nil => unfold Memory.write; split <;> simp [Memory.below, ha]
  | cons cell m ih =>
    obtain ⟨k, v⟩ := cell
    simp only [Memory.below, List.all_cons, Bool.and_eq_true, decide_eq_true_eq] at h ih
    unfold Memory.write
    split_ifs <;> simp only [Memory.below, List.all_cons, Bool.and_eq_true, decide_eq_true_eq]
    · exact h.2
    · exact ⟨ha, h.2⟩
    · exact h
    · exact ⟨ha, h⟩
    · exact ⟨h.1, ih h.2⟩

theorem Memory.read_eq_unlisted_of_below {bound : Nat} {m : Memory} (h : m.below bound = true) {a : Nat}
    (ha : bound ≤ a) : m.read a = Memory.unlisted := by
  induction m with
  | nil => rfl
  | cons cell m ih =>
    obtain ⟨k, v⟩ := cell
    simp only [Memory.below, List.all_cons, Bool.and_eq_true, decide_eq_true_eq] at h
    simp only [Memory.read, if_neg (show k ≠ a by omega)]
    exact ih h.2

/-- Canonical storage with equal contents is equal data. -/
theorem Memory.ext_of_wfFrom {low : Nat} {m n : Memory} (hm : m.wfFrom low = true) (hn : n.wfFrom low = true)
    (h : ∀ a, m.read a = n.read a) : m = n := by
  induction m generalizing low n with
  | nil =>
    cases n with
    | nil => rfl
    | cons cell n =>
      obtain ⟨k, v⟩ := cell
      simp only [Memory.wfFrom, Bool.and_eq_true, bne_iff_ne] at hn
      exact absurd (by simpa [Memory.read] using h k) (Ne.symm hn.1.2)
  | cons cell m ih =>
    obtain ⟨k, v⟩ := cell
    simp only [Memory.wfFrom, Bool.and_eq_true, decide_eq_true_eq, bne_iff_ne] at hm
    cases n with
    | nil => exact absurd (by simpa [Memory.read] using h k) hm.1.2
    | cons cell' n =>
      obtain ⟨j, u⟩ := cell'
      simp only [Memory.wfFrom, Bool.and_eq_true, decide_eq_true_eq, bne_iff_ne] at hn
      have hkj : k = j := by
        rcases Nat.lt_trichotomy k j with hlt | heq | hgt
        · have := h k
          simp only [Memory.read, if_true, if_neg (show j ≠ k by omega),
            Memory.read_eq_unlisted hn.2 (show k < j + 1 by omega)] at this
          exact absurd this hm.1.2
        · exact heq
        · have := h j
          simp only [Memory.read, if_true, if_neg (show k ≠ j by omega),
            Memory.read_eq_unlisted hm.2 (show j < k + 1 by omega)] at this
          exact absurd this.symm hn.1.2
      subst hkj
      have hvu : v = u := by simpa [Memory.read] using h k
      subst hvu
      congr 1
      refine ih hm.2 hn.2 fun a => ?_
      by_cases hak : k = a
      · subst hak
        rw [Memory.read_eq_unlisted hm.2 (Nat.lt_succ_self _), Memory.read_eq_unlisted hn.2 (Nat.lt_succ_self _)]
      · simpa [Memory.read, hak] using h a

theorem Memory.ext_of_wf {m n : Memory} (hm : m.wf = true) (hn : n.wf = true) (h : ∀ a, m.read a = n.read a) :
    m = n :=
  Memory.ext_of_wfFrom hm hn h

/-! ### Several bytes -/

theorem Memory.writeBytes_wf {m : Memory} (h : m.wf = true) (a v : Word) (n : Nat) : (m.writeBytes a v n).wf = true := by
  induction n with
  | zero => exact h
  | succ n ih => exact Memory.write_wf ih _ _

theorem Memory.writeBytes_below {m : Memory} (h : m.below (2 ^ 32) = true) (a v : Word) (n : Nat) :
    (m.writeBytes a v n).below (2 ^ 32) = true := by
  induction n with
  | zero => exact h
  | succ n ih => exact Memory.write_below ih (addrAt a n).isLt _

/-- How far an address lies past a base, for an address `k` bytes past it. -/
theorem addrAt_sub (base : Word) {k : Nat} (hk : k < 2 ^ 32) : (addrAt base k - base).toNat = k := by
  simp only [addrAt]
  bv_omega

theorem eq_addrAt (base a : Word) : a = addrAt base (a - base).toNat := by
  rw [addrAt, BitVec.ofNat_toNat, BitVec.setWidth_eq, BitVec.add_comm, BitVec.sub_add_cancel]

theorem addrAt_inj (base : Word) {j k : Nat} (hj : j < 2 ^ 32) (hk : k < 2 ^ 32) :
    addrAt base j = addrAt base k ↔ j = k := by
  refine ⟨fun h => ?_, fun h => h ▸ rfl⟩
  rw [← addrAt_sub base hj, h, addrAt_sub base hk]

theorem addrAt_addrAt (base : Word) (j k : Nat) : addrAt (addrAt base j) k = addrAt base (j + k) := by
  simp [addrAt, BitVec.ofNat_add, BitVec.add_assoc]

/-- Past an address `k` bytes further on. -/
theorem sub_addrAt (base a : Word) (k : Nat) : a - addrAt base k = a - base - BitVec.ofNat 32 k := by
  rw [addrAt]; bv_omega

@[simp] theorem addrAt_zero (base : Word) : addrAt base 0 = base := by simp [addrAt]

/-- A key that is none of the addresses written reads as before. -/
theorem Memory.read_writeBytes_ne (m : Memory) (a v : Word) {n k : Nat} (h : ∀ b, b < n → (addrAt a b).toNat ≠ k) :
    (m.writeBytes a v n).read k = m.read k := by
  induction n with
  | zero => rfl
  | succ n ih => rw [Memory.writeBytes, Memory.read_write_ne _ _ (h n (by omega)), ih fun b hb => h b (by omega)]

/-- Bytes outside the `n` from `a` read as before. -/
theorem Memory.read_writeBytes_outside (m : Memory) (a v c : Word) {n : Nat}
    (h : ¬(c - a).toNat < n) : (m.writeBytes a v n).read c.toNat = m.read c.toNat := by
  refine Memory.read_writeBytes_ne m a v fun b hb e => h ?_
  rw [← BitVec.eq_of_toNat_eq e, addrAt_sub a (by omega)]
  exact hb

/-- Reading one byte after a little-endian write of `n` bytes (R43, R45). -/
theorem Memory.read_writeBytes {m : Memory} (h : m.wf = true) (a v c : Word) {n : Nat} (hn : n ≤ 4) :
    (m.writeBytes a v n).read c.toNat =
      if (c - a).toNat < n then v.extractLsb' (8 * (c - a).toNat) 8 else m.read c.toNat := by
  induction n with
  | zero => simp [Memory.writeBytes]
  | succ n ih =>
    rw [Memory.writeBytes, Memory.read_write (Memory.writeBytes_wf h a v n), ih (by omega)]
    by_cases hc : (c - a).toNat = n
    · have : addrAt a n = c := by rw [← hc]; exact (eq_addrAt a c).symm
      simp [hc, this]
    · have hne : (addrAt a n).toNat ≠ c.toNat := fun e =>
        hc (by rw [← BitVec.eq_of_toNat_eq e, addrAt_sub a (by omega)])
      rw [if_neg hne]
      split_ifs <;> first | rfl | omega

end Sys2Proof.Machine
end

