-- ==== Sys2Proof/Laws/State.lean ====
section
/-! SUPPORT. One lemma for each field of State after each shared update, so that no proof unfolds a record update. -/

namespace Sys2Proof.Machine

/-! ### recordError: STATUS alone changes (R107) -/

@[simp] theorem recordError_ieDone (e : ErrCode) (s : State) : (recordError e s).ieDone = s.ieDone := rfl
@[simp] theorem recordError_ieErr (e : ErrCode) (s : State) : (recordError e s).ieErr = s.ieErr := rfl
@[simp] theorem recordError_setup (e : ErrCode) (s : State) : (recordError e s).setup = s.setup := rfl
@[simp] theorem recordError_result (e : ErrCode) (s : State) : (recordError e s).result = s.result := rfl
@[simp] theorem recordError_xin (e : ErrCode) (s : State) : (recordError e s).xin = s.xin := rfl
@[simp] theorem recordError_xout (e : ErrCode) (s : State) : (recordError e s).xout = s.xout := rfl
@[simp] theorem recordError_residuals (e : ErrCode) (s : State) : (recordError e s).residuals = s.residuals := rfl
@[simp] theorem recordError_inflight (e : ErrCode) (s : State) : (recordError e s).inflight = s.inflight := rfl
@[simp] theorem recordError_mem (e : ErrCode) (s : State) : (recordError e s).mem = s.mem := rfl
@[simp] theorem recordError_config (e : ErrCode) (s : State) : (recordError e s).config = s.config := rfl
@[simp] theorem recordError_busFault (e : ErrCode) (s : State) : (recordError e s).busFault = s.busFault := rfl
@[simp] theorem recordError_raced (e : ErrCode) (s : State) : (recordError e s).raced = s.raced := rfl
@[simp] theorem recordError_draws (e : ErrCode) (s : State) : (recordError e s).draws = s.draws := rfl
@[simp] theorem recordError_choices (e : ErrCode) (s : State) : (recordError e s).choices = s.choices := rfl
@[simp] theorem recordError_mover (e : ErrCode) (s : State) : (recordError e s).mover = s.mover := rfl
@[simp] theorem recordError_schedule (e : ErrCode) (s : State) : (recordError e s).schedule = s.schedule := rfl
@[simp] theorem recordError_portData (e : ErrCode) (s : State) : (recordError e s).portData = s.portData := rfl
@[simp] theorem recordError_memData (e : ErrCode) (s : State) : (recordError e s).memData = s.memData := rfl
@[simp] theorem recordError_status (e : ErrCode) (s : State) : (recordError e s).status = s.status.recorded e := rfl

/-! ### accept: the engine, DONE and the raced bytes change (R105) -/

@[simp] theorem accept_ieDone (i : Instr) (s : State) : (accept i s).ieDone = s.ieDone := rfl
@[simp] theorem accept_ieErr (i : Instr) (s : State) : (accept i s).ieErr = s.ieErr := rfl
@[simp] theorem accept_setup (i : Instr) (s : State) : (accept i s).setup = s.setup := rfl
@[simp] theorem accept_result (i : Instr) (s : State) : (accept i s).result = s.result := rfl
@[simp] theorem accept_xin (i : Instr) (s : State) : (accept i s).xin = s.xin := rfl
@[simp] theorem accept_xout (i : Instr) (s : State) : (accept i s).xout = s.xout := rfl
@[simp] theorem accept_residuals (i : Instr) (s : State) : (accept i s).residuals = s.residuals := rfl
@[simp] theorem accept_mem (i : Instr) (s : State) : (accept i s).mem = s.mem := rfl
@[simp] theorem accept_config (i : Instr) (s : State) : (accept i s).config = s.config := rfl
@[simp] theorem accept_busFault (i : Instr) (s : State) : (accept i s).busFault = s.busFault := rfl
@[simp] theorem accept_draws (i : Instr) (s : State) : (accept i s).draws = s.draws := rfl
@[simp] theorem accept_choices (i : Instr) (s : State) : (accept i s).choices = s.choices := rfl
@[simp] theorem accept_mover (i : Instr) (s : State) : (accept i s).mover = s.mover := rfl
@[simp] theorem accept_schedule (i : Instr) (s : State) : (accept i s).schedule = s.schedule := rfl
@[simp] theorem accept_portData (i : Instr) (s : State) : (accept i s).portData = s.portData := rfl
@[simp] theorem accept_memData (i : Instr) (s : State) : (accept i s).memData = s.memData := rfl
@[simp] theorem accept_inflight (i : Instr) (s : State) :
    (accept i s).inflight = some { cmd := i, snapshot := s.setup } := rfl
@[simp] theorem accept_raced (i : Instr) (s : State) : (accept i s).raced = [] := rfl
@[simp] theorem accept_status (i : Instr) (s : State) : (accept i s).status = { s.status with done := false } := rfl

/-! ### finish: the engine, DONE and the raced bytes change (R100) -/

@[simp] theorem finish_ieDone (s : State) : (finish s).ieDone = s.ieDone := rfl
@[simp] theorem finish_ieErr (s : State) : (finish s).ieErr = s.ieErr := rfl
@[simp] theorem finish_setup (s : State) : (finish s).setup = s.setup := rfl
@[simp] theorem finish_result (s : State) : (finish s).result = s.result := rfl
@[simp] theorem finish_xin (s : State) : (finish s).xin = s.xin := rfl
@[simp] theorem finish_xout (s : State) : (finish s).xout = s.xout := rfl
@[simp] theorem finish_residuals (s : State) : (finish s).residuals = s.residuals := rfl
@[simp] theorem finish_mem (s : State) : (finish s).mem = s.mem := rfl
@[simp] theorem finish_config (s : State) : (finish s).config = s.config := rfl
@[simp] theorem finish_busFault (s : State) : (finish s).busFault = s.busFault := rfl
@[simp] theorem finish_draws (s : State) : (finish s).draws = s.draws := rfl
@[simp] theorem finish_choices (s : State) : (finish s).choices = s.choices := rfl
@[simp] theorem finish_mover (s : State) : (finish s).mover = s.mover := rfl
@[simp] theorem finish_schedule (s : State) : (finish s).schedule = s.schedule := rfl
@[simp] theorem finish_portData (s : State) : (finish s).portData = s.portData := rfl
@[simp] theorem finish_memData (s : State) : (finish s).memData = s.memData := rfl
@[simp] theorem finish_inflight (s : State) : (finish s).inflight = none := rfl
@[simp] theorem finish_raced (s : State) : (finish s).raced = [] := rfl
@[simp] theorem finish_status (s : State) : (finish s).status = { s.status with done := true } := rfl

/-! ### What is read through the engine state -/

theorem State.busy_eq_true {s : State} : s.busy = true ↔ s.inflight ≠ none := by
  cases h : s.inflight <;> simp [State.busy, h]

theorem State.busy_eq_false {s : State} : s.busy = false ↔ s.inflight = none := by
  cases h : s.inflight <;> simp [State.busy, h]

theorem State.command_of_inflight {s : State} {f : InFlight} (h : s.inflight = some f) : s.command = f.snapshot := by
  simp [State.command, h]

/-! ### STATUS -/

theorem Status.recorded_of_clear (e : ErrCode) {t : Status} (h : t.err = false) :
    t.recorded e = { t with err := true, errCode := e } := by
  simp [Status.recorded, h]

theorem Status.recorded_of_set (e : ErrCode) {t : Status} (h : t.err = true) :
    t.recorded e = { t with errOvf := true } := by
  simp [Status.recorded, h]

@[simp] theorem Status.recorded_done (e : ErrCode) (t : Status) : (t.recorded e).done = t.done := by
  cases h : t.err <;> simp [Status.recorded, h]

@[simp] theorem Status.recorded_err (e : ErrCode) (t : Status) : (t.recorded e).err = true := by
  cases h : t.err <;> simp [Status.recorded, h]

end Sys2Proof.Machine
end

