-- ==== Sys2Proof/Laws/Ops.lean ====
section
/-! SUPPORT. What each shared operation of Machine/Ops.lean can do, said once. -/

namespace Sys2Proof.Machine

/-! ### Port accesses -/

/-- A stable byte is read as held and draws nothing (R56). -/
theorem readByte_stable {p : PortView} {a : Word} (h : p.unstable a = false) (w : Work) :
    readByte p a w = (p.mem.read a.toNat, { w with err := w.err || Config.busError p.config a }) := by
  simp [readByte, h]

/-- An unstable byte is free and draws one (R56). -/
theorem readByte_unstable {p : PortView} {a : Word} (h : p.unstable a = true) (w : Work) :
    readByte p a w =
      (Config.freeByte w.draws,
        { w with err := w.err || Config.busError p.config a, draws := w.draws + 1 }) := by
  simp [readByte, h]

theorem PortView.unstable_eq_false {p : PortView} {a : Word} :
    p.unstable a = false ↔ a.toNat ∉ p.raced ∧ inRange p.rangeBase p.rangeLen a = false := by
  simp [PortView.unstable]

@[simp] theorem readByte_residuals (p : PortView) (a : Word) (w : Work) :
    (readByte p a w).2.residuals = w.residuals := by
  unfold readByte; dsimp only; split <;> rfl

@[simp] theorem readByte_mem (p : PortView) (a : Word) (w : Work) : (readByte p a w).2.mem = w.mem := by
  unfold readByte; dsimp only; split <;> rfl

@[simp] theorem readByte_err (p : PortView) (a : Word) (w : Work) :
    (readByte p a w).2.err = (w.err || Config.busError p.config a) := by
  unfold readByte; dsimp only; split <;> rfl

/-- Two stable bytes make a little-endian half (R43, R44). -/
theorem readHalf_stable {p : PortView} {a : Word} (h0 : p.unstable a = false) (h1 : p.unstable (addrAt a 1) = false)
    (w : Work) :
    readHalf p a w =
      (p.mem.read (addrAt a 1).toNat ++ p.mem.read a.toNat,
        { w with err := w.err || Config.busError p.config a || Config.busError p.config (addrAt a 1) }) := by
  simp [readHalf, readByte_stable h0, readByte_stable h1]

@[simp] theorem readHalf_residuals (p : PortView) (a : Word) (w : Work) :
    (readHalf p a w).2.residuals = w.residuals := by simp [readHalf]

@[simp] theorem readHalf_mem (p : PortView) (a : Word) (w : Work) : (readHalf p a w).2.mem = w.mem := by
  simp [readHalf]

@[simp] theorem readHalf_err (p : PortView) (a : Word) (w : Work) :
    (readHalf p a w).2.err =
      (w.err || Config.busError p.config a || Config.busError p.config (addrAt a 1)) := by
  simp [readHalf]

@[simp] theorem writeWord_residuals (p : PortView) (a v : Word) (w : Work) :
    (writeWord p a v w).residuals = w.residuals := rfl

@[simp] theorem writeWord_mem (p : PortView) (a v : Word) (w : Work) :
    (writeWord p a v w).mem = w.mem.writeBytes a v 4 := rfl

@[simp] theorem writeWord_draws (p : PortView) (a v : Word) (w : Work) : (writeWord p a v w).draws = w.draws := rfl

/-! ### The residual store -/

theorem residualKey_inj {i j ch ch' : Nat} (h : ch < 3) (h' : ch' < 3) :
    residualKey i ch = residualKey j ch' ↔ i = j ∧ ch = ch' := by
  simp only [residualKey]; omega

/-- Reading the residual store after a write of one entry. -/
theorem readResidual_writeResidual {res : Memory} (hw : res.wf = true) {i j ch ch' : Nat} (h : ch < 3) (h' : ch' < 3)
    (v : Byte) :
    readResidual (writeResidual res i ch v) j ch' = if i = j ∧ ch = ch' then v else readResidual res j ch' := by
  simp only [readResidual, writeResidual, Memory.read_write hw, residualKey_inj h h']

theorem readResidual_writeResidual_ne (res : Memory) {i j ch ch' : Nat} (h : ch < 3) (h' : ch' < 3)
    (hne : ¬(i = j ∧ ch = ch')) (v : Byte) :
    readResidual (writeResidual res i ch v) j ch' = readResidual res j ch' :=
  Memory.read_write_ne _ _ fun e => hne ((residualKey_inj h h').1 e)

theorem writeResidual_wf {res : Memory} (h : res.wf = true) (i ch : Nat) (v : Byte) :
    (writeResidual res i ch v).wf = true := Memory.write_wf h _ _

theorem writeResidual_below {bound : Nat} {res : Memory} (h : res.below bound = true) {i ch : Nat}
    (hk : residualKey i ch < bound) (v : Byte) : (writeResidual res i ch v).below bound = true :=
  Memory.write_below h hk v

/-! ### Acceptance -/

theorem check_eq_none {ok : Bool} {e : ErrCode} : check ok e = none ↔ ok = true := by
  cases ok <;> simp [check]

/-- The three things the issue of a command can do (R105). -/
theorem issue_cases (i : Instr) (failing : Option ErrCode) (s : State) :
    (s.inflight ≠ none ∧ issue i failing s = recordError .busy s) ∨
    (s.inflight = none ∧ ∃ e, failing = some e ∧ issue i failing s = recordError e s) ∨
    (s.inflight = none ∧ failing = none ∧ issue i failing s = accept i s) := by
  by_cases hb : s.busy = true
  · exact .inl ⟨State.busy_eq_true.1 hb, by simp [issue, hb]⟩
  · have hb : s.busy = false := by simpa using hb
    refine .inr ?_
    cases failing with
    | none => exact .inr ⟨State.busy_eq_false.1 hb, rfl, by simp [issue, hb]⟩
    | some e => exact .inl ⟨State.busy_eq_false.1 hb, e, rfl, by simp [issue, hb]⟩

/-! ### Completion -/

/-- The two ends of a command that used the memory port (R100, R108). -/
theorem endWork_cases (base : Word) (len : Nat) (pixels : List Nat) (w : Work) (s : State) :
    (w.err = true ∧ endWork base len pixels w s = busFaultEnd base len pixels w.draws s) ∨
    (w.err = false ∧
      endWork base len pixels w s =
        finish { s with mem := w.mem, residuals := w.residuals, draws := w.draws }) := by
  cases h : w.err <;> simp [endWork, h]

theorem fillFree_wf {m : Memory} (h : m.wf = true) (base : Word) (d n : Nat) : (fillFree base d m n).wf = true := by
  induction n with
  | zero => exact h
  | succ n ih => exact Memory.write_wf ih _ _

theorem fillFree_below {m : Memory} (h : m.below (2 ^ 32) = true) (base : Word) (d n : Nat) :
    (fillFree base d m n).below (2 ^ 32) = true := by
  induction n with
  | zero => exact h
  | succ n ih => exact Memory.write_below ih (addrAt base n).isLt _

/-- Outside the filled bytes nothing changes. -/
theorem fillFree_read_outside (m : Memory) (base : Word) (d : Nat) {n : Nat} (hn : n ≤ 2 ^ 32) {a : Word}
    (ha : ¬(a - base).toNat < n) : (fillFree base d m n).read a.toNat = m.read a.toNat := by
  induction n with
  | zero => rfl
  | succ n ih =>
    rw [fillFree, Memory.read_write_ne, ih (by omega) (by omega)]
    intro e
    have := BitVec.eq_of_toNat_eq e
    rw [← this, addrAt_sub base (by omega)] at ha
    omega

/-- The bytes of the range do not depend on what memory held there. -/
theorem fillFree_read_inside {m m' : Memory} (h : m.wf = true) (h' : m'.wf = true) (base : Word) (d : Nat) {n : Nat}
    (hn : n ≤ 2 ^ 32) {a : Word} (ha : (a - base).toNat < n) :
    (fillFree base d m n).read a.toNat = (fillFree base d m' n).read a.toNat := by
  induction n with
  | zero => omega
  | succ n ih =>
    rw [fillFree, fillFree, Memory.read_write (fillFree_wf h _ _ _), Memory.read_write (fillFree_wf h' _ _ _)]
    split
    · rfl
    · next hne =>
      refine ih (by omega) ?_
      have : (a - base).toNat ≠ n := fun e => hne (by rw [← e, ← eq_addrAt])
      omega

theorem freeResiduals_wf {res : Memory} (h : res.wf = true) (pixels : List Nat) (d : Nat) :
    (freeResiduals pixels d res).wf = true := by
  induction pixels generalizing d res with
  | nil => exact h
  | cons i is ih => exact ih (writeResidual_wf (writeResidual_wf (writeResidual_wf h _ _ _) _ _ _) _ _ _) _

theorem freeResiduals_below {bound : Nat} {res : Memory} (h : res.below bound = true) {pixels : List Nat}
    (hp : ∀ i ∈ pixels, 3 * i + 2 < bound) (d : Nat) : (freeResiduals pixels d res).below bound = true := by
  induction pixels generalizing d res with
  | nil => exact h
  | cons i is ih =>
    have hi := hp i (by simp)
    refine ih (writeResidual_below (writeResidual_below (writeResidual_below h ?_ _) ?_ _) ?_ _)
      (fun j hj => hp j (by simp [hj])) _ <;> (simp only [residualKey]; omega)

/-- Entries of other pixels do not change. -/
theorem freeResiduals_read_outside (res : Memory) {pixels : List Nat} {j ch : Nat} (hch : ch < 3) (hj : j ∉ pixels)
    (d : Nat) : readResidual (freeResiduals pixels d res) j ch = readResidual res j ch := by
  induction pixels generalizing d res with
  | nil => rfl
  | cons i is ih =>
    simp only [List.mem_cons, not_or] at hj
    have hij : i ≠ j := fun e => hj.1 e.symm
    rw [freeResiduals, ih _ hj.2, readResidual_writeResidual_ne _ (by omega) hch (by tauto),
      readResidual_writeResidual_ne _ (by omega) hch (by tauto),
      readResidual_writeResidual_ne _ (by omega) hch (by tauto)]

end Sys2Proof.Machine
end

