-- ==== Sys2Proof/Laws/Step.lean ====
section
/-! SUPPORT. What one step does, move by move; what the acceptance checks say; and what a command answers in each of its
two halves. -/

namespace Sys2Proof.Machine

/-! ### The register port -/

theorem offsetAligned_iff (off : BitVec 8) : offsetAligned off = true ↔ off.toNat % 4 = 0 := by
  simp only [offsetAligned, beq_iff_eq, ← BitVec.toNat_inj, BitVec.extractLsb'_toNat]
  simp

theorem Reg.ofOffset_offset (r : Reg) : Reg.ofOffset r.offset = some r := by
  cases r with
  | xin s => revert s; decide
  | xout j => revert j; decide
  | _ => rfl

theorem Reg.offset_aligned (r : Reg) : offsetAligned r.offset = true := by
  cases r with
  | xin s => revert s; decide
  | xout j => revert j; decide
  | _ => rfl

/-- The register at an offset is the one whose offset it is. -/
theorem Reg.offset_of_ofOffset {off : BitVec 8} {r : Reg} (h : Reg.ofOffset off = some r) : r.offset = off := by
  have key : ∀ off : BitVec 8, ∀ r ∈ Reg.ofOffset off, r.offset = off := by decide
  exact key off r h

theorem portWrite_cmd (w : Word) (s : State) : portWrite 0x10 w s = issueWord w s := rfl

theorem portWrite_reg {r : Reg} (h : r ≠ .cmd) (v : Word) (s : State) :
    portWrite r.offset v s = .next (writeReg r v s) := by
  unfold portWrite
  rw [if_pos (Reg.offset_aligned r), Reg.ofOffset_offset]
  split
  · next e => exact absurd (Option.some.inj e) h
  · next e => rw [Option.some.inj e]
  · next e => cases e

theorem portWrite_reserved {off : BitVec 8} (ha : off.toNat % 4 = 0) (h : Reg.ofOffset off = none) (v : Word)
    (s : State) : portWrite off v s = .next s := by
  unfold portWrite
  rw [if_pos ((offsetAligned_iff off).2 ha), h]

theorem portWrite_misaligned {off : BitVec 8} (ha : off.toNat % 4 ≠ 0) (v : Word) (s : State) :
    portWrite off v s = .refused .misalignedAccess := by
  unfold portWrite
  rw [if_neg fun h => ha ((offsetAligned_iff off).1 h)]

theorem portRead_aligned {off : BitVec 8} (ha : off.toNat % 4 = 0) (s : State) :
    portRead off s = .next { s with portData := windowValue off s } := by
  unfold portRead
  rw [if_pos ((offsetAligned_iff off).2 ha)]

theorem portRead_misaligned {off : BitVec 8} (ha : off.toNat % 4 ≠ 0) (s : State) :
    portRead off s = .refused .misalignedAccess := by
  unfold portRead
  rw [if_neg fun h => ha ((offsetAligned_iff off).1 h)]

/-! ### Which move a step takes -/

theorem step_cons {s : State} {m : Move} {rest : List Move} (h : s.schedule = m :: rest) :
    step s = takeMove m { s with schedule := rest } := by
  unfold step stepMove; rw [h]

theorem step_nil {s : State} (h : s.schedule = []) : step s = engineStep s := by
  unfold step stepMove; rw [h]

theorem step_engine {s : State} (h : s.schedule = [] ∨ s.schedule.head? = some .engine) :
    step s = engineStep { s with schedule := s.schedule.tail } := by
  cases hs : s.schedule with
  | nil => rw [step_nil hs]; cases s; simp_all
  | cons m rest =>
    have : m = .engine := by simpa [hs] using h
    subst this
    rw [step_cons hs]; rfl

theorem engineStep_busy {s : State} {f : InFlight} (h : s.inflight = some f) :
    engineStep s = exec f.cmd { s with mover := .engine } := by
  unfold engineStep; rw [h]

theorem engineStep_idle {s : State} (h : s.inflight = none) : engineStep s = .next s := by
  unfold engineStep; rw [h]

/-! ### The two halves of a command -/

/-- The checks of a command after BUSY (R105). -/
def ownChecks (i : Instr) (s : State) : Option ErrCode :=
  match i with
  | .nop _ => none
  | .sweep _ => sweepChecks s
  | .sweepLed l => sweepLedChecks l s
  | .encode k => encodeChecks k s
  | .transpose _ => transposeChecks s

theorem exec_host {s : State} (h : s.mover = .host) (i : Instr) : exec i s = .next (issue i (ownChecks i s) s) := by
  cases i <;> simp only [exec, execNop, execSweep, execSweepLed, execEncode, execTranspose, h] <;> rfl

theorem exec_engine {s : State} (h : s.mover = .engine) (i : Instr) : exec i s = .next (completed i s) := by
  cases i <;> simp only [exec, execNop, execSweep, execSweepLed, execEncode, execTranspose, h] <;> rfl

/-- What a write of a word to CMD does (R105). -/
theorem issueWord_cases (w : Word) (s : State) :
    (∃ i, decode w = .ok i ∧
      issueWord w s =
        .next (issue i (ownChecks i { s with mover := .host }) { s with mover := .host })) ∨
    ((∃ e, decode w = .error e) ∧ issueWord w s = .next (rejectIllegal { s with mover := .host })) := by
  unfold issueWord
  cases h : decode w with
  | ok i => exact .inl ⟨i, rfl, exec_host (s := { s with mover := .host }) rfl i⟩
  | error e => exact .inr ⟨⟨e, rfl⟩, rfl⟩

/-! ### The acceptance checks as conditions on numbers (R105) -/

theorem checkStrips_eq (s : State) :
    checkStrips s = if 1 ≤ s.setup.N ∧ s.setup.N ≤ 8 then none else some .cfgStrips := by
  simp [checkStrips, check]

theorem checkLeds_eq (s : State) :
    checkLeds s = if 1 ≤ s.setup.L ∧ s.setup.L ≤ s.config.maxLeds.toNat then none else some .cfgLeds := by
  simp [checkLeds, check]

theorem checkCoeff_eq (s : State) :
    checkCoeff s = if s.setup.coeff.toNat ≤ 0x10000 then none else some .cfgCoeff := by
  simp [checkCoeff, check]

theorem checkOutBase_eq (s : State) :
    checkOutBase s = if s.setup.outBase.toNat % 4 = 0 then none else some .align := by
  simp [checkOutBase, check, ← BitVec.toNat_inj, BitVec.extractLsb'_toNat]

theorem checkGammaBase_eq (s : State) :
    checkGammaBase s = if s.setup.gammaBase.toNat % 2 = 0 then none else some .align := by
  simp [checkGammaBase, check, ← BitVec.toNat_inj, BitVec.extractLsb'_toNat]

theorem checkArg_eq (a b : Nat) : checkArg a b = if a < b then none else some .argRange := by
  simp [checkArg, check]

/-- A check that stands before others. -/
theorem ite_or (P : Prop) [Decidable P] (e : ErrCode) (x : Option ErrCode) :
    (if P then none else some e : Option ErrCode).or x = if P then x else some e := by
  split <;> rfl

theorem sweepChecks_eq (s : State) :
    sweepChecks s =
      if 1 ≤ s.setup.N ∧ s.setup.N ≤ 8 then
        if 1 ≤ s.setup.L ∧ s.setup.L ≤ s.config.maxLeds.toNat then
          if s.setup.coeff.toNat ≤ 0x10000 then
            if s.setup.outBase.toNat % 4 = 0 then
              if s.setup.gammaBase.toNat % 2 = 0 then none else some .align
            else some .align
          else some .cfgCoeff
        else some .cfgLeds
      else some .cfgStrips := by
  simp only [sweepChecks, checkStrips_eq, checkLeds_eq, checkCoeff_eq, checkOutBase_eq, checkGammaBase_eq, ite_or]

theorem sweepLedChecks_eq (l : Nat) (s : State) :
    sweepLedChecks l s =
      if 1 ≤ s.setup.N ∧ s.setup.N ≤ 8 then
        if 1 ≤ s.setup.L ∧ s.setup.L ≤ s.config.maxLeds.toNat then
          if s.setup.coeff.toNat ≤ 0x10000 then
            if s.setup.outBase.toNat % 4 = 0 then
              if s.setup.gammaBase.toNat % 2 = 0 then if l < s.setup.L then none else some .argRange else some .align
            else some .align
          else some .cfgCoeff
        else some .cfgLeds
      else some .cfgStrips := by
  rw [sweepLedChecks, sweepChecks_eq, checkArg_eq]
  split_ifs <;> rfl

theorem encodeChecks_eq (i : Nat) (s : State) :
    encodeChecks i s =
      if 1 ≤ s.setup.N ∧ s.setup.N ≤ 8 then
        if 1 ≤ s.setup.L ∧ s.setup.L ≤ s.config.maxLeds.toNat then
          if s.setup.coeff.toNat ≤ 0x10000 then
            if s.setup.gammaBase.toNat % 2 = 0 then
              if i < s.setup.N * s.setup.L then none else some .argRange
            else some .align
          else some .cfgCoeff
        else some .cfgLeds
      else some .cfgStrips := by
  simp only [encodeChecks, checkStrips_eq, checkLeds_eq, checkCoeff_eq, checkGammaBase_eq, checkArg_eq, ite_or]

end Sys2Proof.Machine
end

