-- ==== Sys2Proof/Laws/Encoder.lean ====
section
/-! SUPPORT. The PixelEncoder: its arithmetic as exact numbers, and what encoding a pixel reads and writes. -/

namespace Sys2Proof.Machine

/-! ### Arithmetic -/

theorem widen_le (p : Byte) : widen p ≤ 0xFFFF := by
  have := p.isLt
  simp only [widen]; omega

theorem weights_sum {c : BitVec 17} (h : c.toNat ≤ 0x10000) : weightPrev c + weightNext c = 0x10000 := by
  simp only [weightPrev, weightNext]; omega

/-- A weighted sum whose weights add up to `k` lies within `k` times the least and the greatest value. -/
theorem weighted_bounds {x y u v k : Nat} (h : u + v = k) :
    min x y * k ≤ x * u + y * v ∧ x * u + y * v ≤ max x y * k := by
  subst h
  constructor
  · calc min x y * (u + v) = min x y * u + min x y * v := Nat.mul_add ..
      _ ≤ x * u + y * v :=
        Nat.add_le_add (Nat.mul_le_mul_right _ (Nat.min_le_left ..)) (Nat.mul_le_mul_right _ (Nat.min_le_right ..))
  · calc x * u + y * v ≤ max x y * u + max x y * v :=
        Nat.add_le_add (Nat.mul_le_mul_right _ (Nat.le_max_left ..)) (Nat.mul_le_mul_right _ (Nat.le_max_right ..))
      _ = max x y * (u + v) := (Nat.mul_add ..).symm

/-- The weighted sum of the blend fits 32 bits (R72). -/
theorem blend_sum_le {c : BitVec 17} (h : c.toNat ≤ 0x10000) (p n : Byte) :
    widen p * weightPrev c + widen n * weightNext c ≤ 0xFFFF0000 := by
  have hb := (weighted_bounds (x := widen p) (y := widen n) (weights_sum h)).2
  have hm : max (widen p) (widen n) ≤ 0xFFFF := max_le (widen_le p) (widen_le n)
  omega

/-- For a legal coefficient no bit of the blend is lost (R72). -/
theorem blend_toNat {c : BitVec 17} (h : c.toNat ≤ 0x10000) (p n : Byte) :
    (blend c p n).toNat = (widen p * weightPrev c + widen n * weightNext c) / 2 ^ 16 := by
  have := blend_sum_le h p n
  rw [blend, BitVec.toNat_ofNat, Nat.shiftRight_eq_div_pow, Nat.mod_eq_of_lt]
  omega

theorem interpolate_sum_le (t0 t1 : BitVec 16) (a : Byte) :
    t0.toNat * (256 - a.toNat) + t1.toNat * a.toNat ≤ 0xFFFF00 := by
  have ha := a.isLt
  have hb := (weighted_bounds (x := t0.toNat) (y := t1.toNat) (show (256 - a.toNat) + a.toNat = 256 by omega)).2
  have h0 := t0.isLt
  have h1 := t1.isLt
  have hm : max t0.toNat t1.toNat ≤ 0xFFFF := max_le (by omega) (by omega)
  omega

/-- No bit of the interpolation is lost (R75). -/
theorem interpolate_toNat (t0 t1 : BitVec 16) (a : Byte) :
    (interpolate t0 t1 a).toNat = (t0.toNat * (256 - a.toNat) + t1.toNat * a.toNat) / 256 := by
  have := interpolate_sum_le t0 t1 a
  rw [interpolate, BitVec.toNat_ofNat, Nat.shiftRight_eq_div_pow, Nat.mod_eq_of_lt (by omega)]

/-- The output channel value (R78). -/
theorem quantise_fst_toNat (gam : BitVec 16) (r : Byte) :
    (quantise gam r).1.toNat = min (gam.toNat + r.toNat) 0xFFFF / 256 := by
  simp only [quantise, BitVec.toNat_ofNat, Nat.shiftRight_eq_div_pow]
  rw [Nat.mod_eq_of_lt (by omega)]

/-- The residual entry written (R78). -/
theorem quantise_snd_toNat (gam : BitVec 16) (r : Byte) :
    (quantise gam r).2.toNat = min (gam.toNat + r.toNat) 0xFFFF % 256 := by
  simp only [quantise, BitVec.toNat_ofNat]

theorem pack_toNat (order : ChannelOrder) (q0 q1 q2 : Byte) :
    (pack order q0 q1 q2).toNat =
      match order with
      | .q2q1q0 => (q2.toNat * 2 ^ 8 + q1.toNat) * 2 ^ 8 + q0.toNat
      | .q1q0q2 => (q1.toNat * 2 ^ 8 + q0.toNat) * 2 ^ 8 + q2.toNat
      | .q0q1q2 => (q0.toNat * 2 ^ 8 + q1.toNat) * 2 ^ 8 + q2.toNat
      | .q0q2q1 => (q0.toNat * 2 ^ 8 + q2.toNat) * 2 ^ 8 + q1.toNat
      | .q1q2q0 => (q1.toNat * 2 ^ 8 + q2.toNat) * 2 ^ 8 + q0.toNat
      | .q2q0q1 => (q2.toNat * 2 ^ 8 + q0.toNat) * 2 ^ 8 + q1.toNat := by
  cases order <;> (simp only [← toNat_append_eq]; rfl)

/-! ### What an encoding touches -/

@[simp] theorem gammaLookup_residuals (p : PortView) (c : Setup) (ch : Nat) (lin : BitVec 16) (w : Work) :
    (gammaLookup p c ch lin w).2.residuals = w.residuals := by
  unfold gammaLookup; split <;> simp [gammaDirect, gammaInterp, gammaEntry]

@[simp] theorem gammaLookup_mem (p : PortView) (c : Setup) (ch : Nat) (lin : BitVec 16) (w : Work) :
    (gammaLookup p c ch lin w).2.mem = w.mem := by
  unfold gammaLookup; split <;> simp [gammaDirect, gammaInterp, gammaEntry]

/-- Encoding a channel writes no memory. -/
@[simp] theorem encodeChannel_mem (p : PortView) (c : Setup) (i ch : Nat) (w : Work) :
    (encodeChannel p c i ch w).2.mem = w.mem := by
  simp [encodeChannel]

/-- Encoding a channel writes its own residual entry and no other (R81). -/
theorem encodeChannel_residuals (p : PortView) (c : Setup) (i ch : Nat) (w : Work) :
    ∃ v, (encodeChannel p c i ch w).2.residuals = writeResidual w.residuals i ch v :=
  ⟨_, by simp [encodeChannel]; rfl⟩

/-- Encoding a pixel writes no memory (R82). -/
@[simp] theorem encodePixel_mem (p : PortView) (c : Setup) (i : Nat) (w : Work) :
    (encodePixel p c i w).2.mem = w.mem := by
  simp [encodePixel]

/-- Encoding a pixel writes its own three residual entries and no other (R81). -/
theorem encodePixel_residuals (p : PortView) (c : Setup) (i : Nat) (w : Work) :
    ∃ v0 v1 v2, (encodePixel p c i w).2.residuals =
      writeResidual (writeResidual (writeResidual w.residuals i 0 v0) i 1 v1) i 2 v2 := by
  obtain ⟨v0, h0⟩ := encodeChannel_residuals p c i 0 w
  obtain ⟨v1, h1⟩ := encodeChannel_residuals p c i 1 (encodeChannel p c i 0 w).2
  obtain ⟨v2, h2⟩ := encodeChannel_residuals p c i 2 (encodeChannel p c i 1 (encodeChannel p c i 0 w).2).2
  exact ⟨v0, v1, v2, by rw [encodePixel]; dsimp only; rw [h2, h1, h0]⟩

theorem encodePixel_residuals_wf (p : PortView) (c : Setup) (i : Nat) {w : Work} (h : w.residuals.wf = true) :
    (encodePixel p c i w).2.residuals.wf = true := by
  obtain ⟨v0, v1, v2, e⟩ := encodePixel_residuals p c i w
  rw [e]
  exact writeResidual_wf (writeResidual_wf (writeResidual_wf h _ _ _) _ _ _) _ _ _

theorem encodePixel_residuals_below (p : PortView) (c : Setup) {bound i : Nat} {w : Work}
    (h : w.residuals.below bound = true) (hi : 3 * i + 2 < bound) :
    (encodePixel p c i w).2.residuals.below bound = true := by
  obtain ⟨v0, v1, v2, e⟩ := encodePixel_residuals p c i w
  rw [e]
  refine writeResidual_below (writeResidual_below (writeResidual_below h ?_ _) ?_ _) ?_ _ <;>
    (simp only [residualKey]; omega)

/-- Residual entries of other pixels do not change (R81). -/
theorem encodePixel_residuals_outside (p : PortView) (c : Setup) {i j ch : Nat} (w : Work) (hch : ch < 3) (hij : i ≠ j) :
    readResidual (encodePixel p c i w).2.residuals j ch = readResidual w.residuals j ch := by
  obtain ⟨v0, v1, v2, e⟩ := encodePixel_residuals p c i w
  rw [e, readResidual_writeResidual_ne _ (by omega) hch (by tauto),
    readResidual_writeResidual_ne _ (by omega) hch (by tauto),
    readResidual_writeResidual_ne _ (by omega) hch (by tauto)]

end Sys2Proof.Machine
end

