-- ==== Sys2Proof/Laws/Transposer.lean ====
section
/-! SUPPORT. The transposer bit by bit (R88 to R91). -/

namespace Sys2Proof.Machine

theorem bitsOf_getLsbD (f : Nat → Bool) (n b : Nat) : (bitsOf f n).getLsbD b = (decide (b < n) && f b) := by
  induction n with
  | zero => simp [bitsOf]
  | succ n ih =>
    rw [bitsOf, BitVec.getLsbD_cons, ih]
    by_cases h : b = n
    · simp [h]
    · by_cases h' : b < n
      · simp [h, h', Nat.lt_succ_of_lt h']
      · simp [h, h', show ¬b < n + 1 by omega]

/-- Bit `8k + s` of the word of group `g` (R88, R89). -/
theorem groupWord_getLsbD (cw : Nat → Colour) (n g : Nat) {k s : Nat} (hk : k < 4) (hs : s < 8) :
    (groupWord cw n g).getLsbD (8 * k + s) = if s < n then (cw s).getLsbD (4 * g + 3 - k) else false := by
  have h1 : (8 * k + s) % 8 = s := by omega
  have h2 : (8 * k + s) / 8 = k := by omega
  rw [groupWord, bitsOf_getLsbD, h1, h2]
  simp only [show 8 * k + s < 32 by omega, decide_true, Bool.true_and, activeColour]
  split <;> simp

/-- Emission index `j` carries group `5 - j` (R90). -/
theorem transpose_getElem (cw : Nat → Colour) (n : Nat) {j : Nat} (hj : j < 6) :
    (transpose cw n)[j] = groupWord cw n (5 - j) := by
  rcases j with _ | _ | _ | _ | _ | _ | j <;> first | rfl | omega

end Sys2Proof.Machine
end

