-- ==== Sys2Proof/Laws/Sweep.lean ====
section
/-! SUPPORT. LED groups and sweeps: what they read, what they write, and that they keep the canonical forms. -/

namespace Sys2Proof.Machine

/-! ### The strips of one LED index -/

@[simp] theorem encodeStrips_mem (p : PortView) (c : Setup) (l : Nat) (w : Work) (n : Nat) :
    (encodeStrips p c l w n).2.mem = w.mem := by
  induction n with
  | zero => rfl
  | succ n ih => simp [encodeStrips, ih]

@[simp] theorem encodeStrips_length (p : PortView) (c : Setup) (l : Nat) (w : Work) (n : Nat) :
    (encodeStrips p c l w n).1.length = n := by
  induction n with
  | zero => rfl
  | succ n ih => simp [encodeStrips, ih]

theorem encodeStrips_residuals_wf (p : PortView) (c : Setup) (l : Nat) {w : Work} (h : w.residuals.wf = true)
    (n : Nat) : (encodeStrips p c l w n).2.residuals.wf = true := by
  induction n with
  | zero => exact h
  | succ n ih => exact encodePixel_residuals_wf p c _ ih

theorem encodeStrips_residuals_below (p : PortView) (c : Setup) {bound l : Nat} {w : Work}
    (h : w.residuals.below bound = true) {n : Nat} (hb : ∀ s, s < n → 3 * c.pixel s l + 2 < bound) :
    (encodeStrips p c l w n).2.residuals.below bound = true := by
  induction n with
  | zero => exact h
  | succ n ih => exact encodePixel_residuals_below p c (ih fun s hs => hb s (by omega)) (hb n (by omega))

/-- Entries of pixels that are none of the strips' do not change. -/
theorem encodeStrips_residuals_outside (p : PortView) (c : Setup) (l : Nat) (w : Work) {n i ch : Nat} (hch : ch < 3)
    (hi : ∀ s, s < n → c.pixel s l ≠ i) :
    readResidual (encodeStrips p c l w n).2.residuals i ch = readResidual w.residuals i ch := by
  induction n with
  | zero => rfl
  | succ n ih =>
    rw [encodeStrips]
    dsimp only
    rw [encodePixel_residuals_outside p c _ hch (hi n (by omega)), ih fun s hs => hi s (by omega)]

/-! ### Writing the six words -/

@[simp] theorem writeGroup_residuals (p : PortView) (base : Word) (out : Vector Word 6) (w : Work) (n : Nat) :
    (writeGroup p base out w n).residuals = w.residuals := by
  induction n with
  | zero => rfl
  | succ n ih => simp [writeGroup, ih]

@[simp] theorem writeGroup_draws (p : PortView) (base : Word) (out : Vector Word 6) (w : Work) (n : Nat) :
    (writeGroup p base out w n).draws = w.draws := by
  induction n with
  | zero => rfl
  | succ n ih => simp [writeGroup, ih]

theorem writeGroup_wf (p : PortView) (base : Word) (out : Vector Word 6) {w : Work} (h : w.mem.wf = true) (n : Nat) :
    (writeGroup p base out w n).mem.wf = true := by
  induction n with
  | zero => exact h
  | succ n ih => exact Memory.writeBytes_wf ih _ _ _

theorem writeGroup_below (p : PortView) (base : Word) (out : Vector Word 6) {w : Work}
    (h : w.mem.below (2 ^ 32) = true) (n : Nat) : (writeGroup p base out w n).mem.below (2 ^ 32) = true := by
  induction n with
  | zero => exact h
  | succ n ih => exact Memory.writeBytes_below ih _ _ _

/-- Reading a byte after the first `n` words of a group are written (R43, R50). -/
theorem writeGroup_read (p : PortView) (base : Word) (out : Vector Word 6) {w : Work} (h : w.mem.wf = true) {n : Nat}
    (hn : n ≤ 6) (a : Word) :
    (writeGroup p base out w n).mem.read a.toNat =
      if (a - base).toNat < 4 * n then
        (out[(a - base).toNat / 4]?.getD 0).extractLsb' (8 * ((a - base).toNat % 4)) 8
      else w.mem.read a.toNat := by
  induction n with
  | zero => simp [writeGroup]
  | succ n ih =>
    rw [writeGroup, writeWord_mem, Memory.read_writeBytes (writeGroup_wf p base out h n) _ _ _ (le_refl 4),
      ih (by omega)]
    rw [sub_addrAt]
    generalize hd : a - base = d
    by_cases h1 : d.toNat < 4 * n
    · have h2 : ¬(d - BitVec.ofNat 32 (4 * n)).toNat < 4 := by bv_omega
      rw [if_neg h2, if_pos h1, if_pos (by omega)]
    · by_cases h2 : d.toNat < 4 * (n + 1)
      · have h3 : (d - BitVec.ofNat 32 (4 * n)).toNat = d.toNat - 4 * n := by bv_omega
        have h4 : d.toNat / 4 = n := by omega
        have h5 : d.toNat - 4 * n = d.toNat % 4 := by omega
        rw [h3, if_pos (by omega), if_pos h2, h4, h5]
      · have h3 : (d - BitVec.ofNat 32 (4 * n)).toNat = d.toNat - 4 * n := by bv_omega
        rw [h3, if_neg (by omega), if_neg h1, if_neg h2]

/-- Bytes outside the first `n` words of a group read as before. -/
theorem writeGroup_read_outside (p : PortView) (base : Word) (out : Vector Word 6) (w : Work) {n : Nat} (hn : n ≤ 6)
    {a : Word} (ha : ¬(a - base).toNat < 4 * n) :
    (writeGroup p base out w n).mem.read a.toNat = w.mem.read a.toNat := by
  induction n with
  | zero => rfl
  | succ n ih =>
    rw [writeGroup, writeWord_mem, Memory.read_writeBytes_outside, ih (by omega) (by omega)]
    rw [sub_addrAt]
    generalize a - base = d at ha ⊢
    bv_omega

/-- Once an access was answered with an error, writing words does not hide it. -/
theorem writeGroup_err_mono (p : PortView) (base : Word) (out : Vector Word 6) {w : Work} (h : w.err = true) (n : Nat) :
    (writeGroup p base out w n).err = true := by
  induction n with
  | zero => exact h
  | succ n ih => simp [writeGroup, writeWord, ih]

/-! ### One LED index -/

theorem ledGroup_residuals (p : PortView) (c : Setup) (l : Nat) (w : Work) :
    (ledGroup p c l w).residuals = (encodeStrips p c l w c.activeStrips).2.residuals := by
  simp [ledGroup]

theorem ledGroup_residuals_wf (p : PortView) (c : Setup) (l : Nat) {w : Work} (h : w.residuals.wf = true) :
    (ledGroup p c l w).residuals.wf = true := by
  rw [ledGroup_residuals]; exact encodeStrips_residuals_wf p c l h _

theorem ledGroup_wf (p : PortView) (c : Setup) (l : Nat) {w : Work} (h : w.mem.wf = true) :
    (ledGroup p c l w).mem.wf = true := by
  unfold ledGroup; exact writeGroup_wf _ _ _ (by simpa using h) _

theorem ledGroup_below (p : PortView) (c : Setup) (l : Nat) {w : Work} (h : w.mem.below (2 ^ 32) = true) :
    (ledGroup p c l w).mem.below (2 ^ 32) = true := by
  unfold ledGroup; exact writeGroup_below _ _ _ (by simpa using h) _

/-- Bytes outside the 24 of the LED index do not change (R95). -/
theorem ledGroup_read_outside (p : PortView) (c : Setup) (l : Nat) (w : Work) {a : Word}
    (ha : ¬(a - groupAddr c l).toNat < 24) : (ledGroup p c l w).mem.read a.toNat = w.mem.read a.toNat := by
  unfold ledGroup
  dsimp only
  rw [writeGroup_read_outside p _ _ _ (le_refl 6) ha, encodeStrips_mem]

/-! ### A sweep -/

theorem sweepGroups_residuals_wf (p : PortView) (c : Setup) {w : Work} (h : w.residuals.wf = true) (n : Nat) :
    (sweepGroups p c w n).residuals.wf = true := by
  induction n with
  | zero => exact h
  | succ n ih => exact ledGroup_residuals_wf p c n ih

theorem sweepGroups_wf (p : PortView) (c : Setup) {w : Work} (h : w.mem.wf = true) (n : Nat) :
    (sweepGroups p c w n).mem.wf = true := by
  induction n with
  | zero => exact h
  | succ n ih => exact ledGroup_wf p c n ih

theorem sweepGroups_below (p : PortView) (c : Setup) {w : Work} (h : w.mem.below (2 ^ 32) = true) (n : Nat) :
    (sweepGroups p c w n).mem.below (2 ^ 32) = true := by
  induction n with
  | zero => exact h
  | succ n ih => exact ledGroup_below p c n ih

/-- A pixel of an active strip is one of the `N * L` (R48). -/
theorem pixel_lt {c : Setup} {s l n : Nat} (hs : s < n) (hl : l < c.L) : c.pixel s l < n * c.L := by
  have : (s + 1) * c.L ≤ n * c.L := Nat.mul_le_mul_right _ hs
  rw [Nat.add_mul] at this
  simp only [Setup.pixel]; omega

theorem sweepGroups_residuals_below (p : PortView) (c : Setup) {bound : Nat} {w : Work}
    (h : w.residuals.below bound = true) (hb : 3 * (c.activeStrips * c.L) ≤ bound) {n : Nat} (hn : n ≤ c.L) :
    (sweepGroups p c w n).residuals.below bound = true := by
  induction n with
  | zero => exact h
  | succ n ih =>
    rw [sweepGroups, ledGroup_residuals]
    refine encodeStrips_residuals_below p c (ih (by omega)) fun s hs => ?_
    have := pixel_lt (c := c) hs (show n < c.L by omega)
    omega

/-- Entries of pixels beyond the active strips' do not change (R37, R97). -/
theorem sweepGroups_residuals_outside (p : PortView) (c : Setup) (w : Work) {n i ch : Nat} (hch : ch < 3)
    (hn : n ≤ c.L) (hi : c.activeStrips * c.L ≤ i) :
    readResidual (sweepGroups p c w n).residuals i ch = readResidual w.residuals i ch := by
  induction n with
  | zero => rfl
  | succ n ih =>
    rw [sweepGroups, ledGroup_residuals, encodeStrips_residuals_outside p c n _ hch, ih (by omega)]
    intro s hs e
    have := pixel_lt (c := c) hs (show n < c.L by omega)
    omega

/-- The 24 bytes of LED index `l` as offsets from OUT_BASE (R50). -/
theorem sub_groupAddr (c : Setup) (l : Nat) (a : Word) :
    a - groupAddr c l = a - c.outBase - BitVec.ofNat 32 (24 * l) :=
  sub_addrAt c.outBase a (24 * l)

/-- Bytes outside the groups written do not change (R97). -/
theorem sweepGroups_read_outside (p : PortView) (c : Setup) (w : Work) {n : Nat}
    (hn : 24 * n ≤ 2 ^ 32) {a : Word} (ha : ¬(a - c.outBase).toNat < 24 * n) :
    (sweepGroups p c w n).mem.read a.toNat = w.mem.read a.toNat := by
  induction n with
  | zero => rfl
  | succ n ih =>
    rw [sweepGroups, ledGroup_read_outside p c n, ih (by omega) (by omega)]
    rw [sub_groupAddr]
    generalize a - c.outBase = d at ha ⊢
    bv_omega

theorem ledGroup_err_mono (p : PortView) (c : Setup) (l : Nat) {w : Work} (h : w.err = true) :
    (ledGroup p c l w).err = true := by
  have he : ∀ (i ch : Nat) (w : Work), w.err = true → (encodeChannel p c i ch w).2.err = true := by
    intro i ch w h
    simp only [encodeChannel, gammaLookup]
    split <;> simp [gammaDirect, gammaInterp, gammaEntry, h]
  have hs : ∀ n, (encodeStrips p c l w n).2.err = true := by
    intro n
    induction n with
    | zero => exact h
    | succ n ih => exact he _ _ _ (he _ _ _ (he _ _ _ ih))
  exact writeGroup_err_mono _ _ _ (hs _) _

end Sys2Proof.Machine
end

