-- ==== Sys2Proof/Laws/Unstable.lean ====
section
/-! SUPPORT. What a command computes depends neither on the bytes its reads cannot see (R56) nor on the memory it is
about to write over: the congruence lemmas of the data path. -/

namespace Sys2Proof.Machine

/-- Two ports that a command cannot tell apart: they differ at most in bytes whose reads are free (R56). -/
structure PortView.Agrees (p q : PortView) : Prop where
  raced : q.raced = p.raced
  rangeBase : q.rangeBase = p.rangeBase
  rangeLen : q.rangeLen = p.rangeLen
  config : q.config = p.config
  mem : ∀ a : Word, p.unstable a = false → q.mem.read a.toNat = p.mem.read a.toNat

/-! ### Ports that agree -/

theorem readByte_agrees {p q : PortView} (h : p.Agrees q) (a : Word) (w : Work) : readByte q a w = readByte p a w := by
  have hu : q.unstable a = p.unstable a := by
    simp only [PortView.unstable, h.raced, h.rangeBase, h.rangeLen]
  unfold readByte
  rw [h.config, hu]
  split
  · rfl
  · next hs => rw [h.mem a (by simpa using hs)]

theorem gammaEntry_agrees {p q : PortView} (h : p.Agrees q) (c : Setup) (ch k : Nat) (w : Work) :
    gammaEntry q c ch k w = gammaEntry p c ch k w := by
  simp only [gammaEntry, readHalf, readByte_agrees h]

theorem encodeChannel_agrees {p q : PortView} (h : p.Agrees q) (c : Setup) (i ch : Nat) (w : Work) :
    encodeChannel q c i ch w = encodeChannel p c i ch w := by
  simp only [encodeChannel, gammaLookup, gammaDirect, gammaInterp, readByte_agrees h, gammaEntry_agrees h]

theorem encodePixel_agrees {p q : PortView} (h : p.Agrees q) (c : Setup) (i : Nat) (w : Work) :
    encodePixel q c i w = encodePixel p c i w := by
  simp only [encodePixel, encodeChannel_agrees h]

theorem encodeStrips_agrees {p q : PortView} (h : p.Agrees q) (c : Setup) (l : Nat) (w : Work) (n : Nat) :
    encodeStrips q c l w n = encodeStrips p c l w n := by
  induction n with
  | zero => rfl
  | succ n ih => simp only [encodeStrips, ih, encodePixel_agrees h]

theorem writeGroup_agrees {p q : PortView} (h : p.Agrees q) (base : Word) (out : Vector Word 6) (w : Work) (n : Nat) :
    writeGroup q base out w n = writeGroup p base out w n := by
  induction n with
  | zero => rfl
  | succ n ih => simp only [writeGroup, writeWord, ih, h.config]

theorem ledGroup_agrees {p q : PortView} (h : p.Agrees q) (c : Setup) (l : Nat) (w : Work) :
    ledGroup q c l w = ledGroup p c l w := by
  simp only [ledGroup, encodeStrips_agrees h, writeGroup_agrees h]

theorem sweepGroups_agrees {p q : PortView} (h : p.Agrees q) (c : Setup) (w : Work) (n : Nat) :
    sweepGroups q c w n = sweepGroups p c w n := by
  induction n with
  | zero => rfl
  | succ n ih => simp only [sweepGroups, ih, ledGroup_agrees h]

/-! ### The memory of the work -/

/-- The same work, over another memory. -/
abbrev Work.onMem (w : Work) (m : Memory) : Work := { w with mem := m }

theorem readByte_onMem (p : PortView) (a : Word) (w : Work) (m : Memory) :
    readByte p a (w.onMem m) = ((readByte p a w).1, (readByte p a w).2.onMem m) := by
  unfold readByte
  dsimp only
  split <;> rfl

theorem gammaEntry_onMem (p : PortView) (c : Setup) (ch k : Nat) (w : Work) (m : Memory) :
    gammaEntry p c ch k (w.onMem m) = ((gammaEntry p c ch k w).1, (gammaEntry p c ch k w).2.onMem m) := by
  simp only [gammaEntry, readHalf, readByte_onMem]

theorem encodeChannel_onMem (p : PortView) (c : Setup) (i ch : Nat) (w : Work) (m : Memory) :
    encodeChannel p c i ch (w.onMem m) = ((encodeChannel p c i ch w).1, (encodeChannel p c i ch w).2.onMem m) := by
  unfold encodeChannel gammaLookup
  cases c.gmode <;> simp only [gammaDirect, gammaInterp, readByte_onMem, gammaEntry_onMem]

theorem encodePixel_onMem (p : PortView) (c : Setup) (i : Nat) (w : Work) (m : Memory) :
    encodePixel p c i (w.onMem m) = ((encodePixel p c i w).1, (encodePixel p c i w).2.onMem m) := by
  simp only [encodePixel, encodeChannel_onMem]

theorem encodeStrips_onMem (p : PortView) (c : Setup) (l : Nat) (w : Work) (m : Memory) (n : Nat) :
    encodeStrips p c l (w.onMem m) n = ((encodeStrips p c l w n).1, (encodeStrips p c l w n).2.onMem m) := by
  induction n with
  | zero => rfl
  | succ n ih => simp only [encodeStrips, ih, encodePixel_onMem]

theorem writeGroup_onMem (p : PortView) (base : Word) (out : Vector Word 6) (w : Work) (m : Memory) (n : Nat) :
    writeGroup p base out (w.onMem m) n =
      (writeGroup p base out w n).onMem (writeGroup p base out (w.onMem m) n).mem := by
  induction n with
  | zero => rfl
  | succ n ih => simp only [writeGroup, writeWord]; rw [ih]

theorem ledGroup_onMem (p : PortView) (c : Setup) (l : Nat) (w : Work) (m : Memory) :
    ledGroup p c l (w.onMem m) = (ledGroup p c l w).onMem (ledGroup p c l (w.onMem m)).mem := by
  simp only [ledGroup, encodeStrips_onMem]
  exact writeGroup_onMem ..

theorem sweepGroups_onMem (p : PortView) (c : Setup) (w : Work) (m : Memory) (n : Nat) :
    sweepGroups p c (w.onMem m) n = (sweepGroups p c w n).onMem (sweepGroups p c (w.onMem m) n).mem := by
  induction n with
  | zero => rfl
  | succ n ih =>
    simp only [sweepGroups]
    rw [ih]
    exact ledGroup_onMem ..

/-- The 24 bytes of an LED index do not depend on what memory held there. -/
theorem ledGroup_read_onMem (p : PortView) (c : Setup) (l : Nat) {w : Work} {m : Memory} (hw : w.mem.wf = true)
    (hm : m.wf = true) {a : Word} (ha : (a - groupAddr c l).toNat < 24) :
    (ledGroup p c l (w.onMem m)).mem.read a.toNat = (ledGroup p c l w).mem.read a.toNat := by
  simp only [ledGroup, encodeStrips_onMem]
  rw [writeGroup_read p _ _ hm (le_refl 6), writeGroup_read p _ _ (by simpa using hw) (le_refl 6), if_pos ha, if_pos ha]

/-- The bytes of the groups written do not depend on what memory held there. -/
theorem sweepGroups_read_onMem (p : PortView) (c : Setup) {w : Work} {m : Memory} (hw : w.mem.wf = true)
    (hm : m.wf = true) {n : Nat} (hn : 24 * n ≤ 2 ^ 32) {a : Word} (ha : (a - c.outBase).toNat < 24 * n) :
    (sweepGroups p c (w.onMem m) n).mem.read a.toNat = (sweepGroups p c w n).mem.read a.toNat := by
  induction n with
  | zero => omega
  | succ n ih =>
    have hwf := sweepGroups_wf p c hw n
    have hmf : (sweepGroups p c (w.onMem m) n).mem.wf = true := sweepGroups_wf p c hm n
    rw [sweepGroups, sweepGroups_onMem, sweepGroups]
    by_cases hg : (a - groupAddr c n).toNat < 24
    · exact ledGroup_read_onMem p c n hwf hmf hg
    · rw [ledGroup_read_outside p c n _ hg, ledGroup_read_outside p c n _ hg]
      refine ih (by omega) ?_
      rw [sub_groupAddr] at hg
      generalize a - c.outBase = d at ha hg ⊢
      bv_omega

end Sys2Proof.Machine
end

