-- ==== Sys2Proof/Laws/Completion.lean ====
section
/-! SUPPORT. What the completion of a command leaves, what other agents and the reset input do to memory, that each of
these keeps the canonical forms, and the ways one step can go. -/

namespace Sys2Proof.Machine

theorem Setup.L_lt (c : Setup) : c.L < 2 ^ 16 := c.leds.isLt

theorem Setup.activeStrips_eq {c : Setup} (h : 1 ≤ c.N ∧ c.N ≤ 8) : c.activeStrips = c.N := by
  simp only [Setup.activeStrips]; omega

/-! ### The fields that every completion leaves or sets (R100, R108) -/

/-- What the end of any command says of the fields outside its own results. -/
structure EndFrame (s t : State) : Prop where
  ieDone : t.ieDone = s.ieDone
  ieErr : t.ieErr = s.ieErr
  setup : t.setup = s.setup
  xin : t.xin = s.xin
  config : t.config = s.config
  schedule : t.schedule = s.schedule
  portData : t.portData = s.portData
  memData : t.memData = s.memData
  mover : t.mover = s.mover
  choices : t.choices = s.choices
  inflight : t.inflight = none
  raced : t.raced = []
  mark : s.busFault = true → t.busFault = true
  status :
    t.status = { s.status with done := true } ∨
      t.status = { s.status.recorded .busErr with done := true } ∧ t.busFault = true

theorem finish_frame (s : State) : EndFrame s (finish s) :=
  ⟨rfl, rfl, rfl, rfl, rfl, rfl, rfl, rfl, rfl, rfl, rfl, rfl, id, .inl rfl⟩

theorem endWork_frame (base : Word) (len : Nat) (pixels : List Nat) (w : Work) (s : State) :
    EndFrame s (endWork base len pixels w s) ∧ (endWork base len pixels w s).result = s.result ∧
      (endWork base len pixels w s).xout = s.xout := by
  rcases endWork_cases base len pixels w s with ⟨_, e⟩ | ⟨_, e⟩ <;> rw [e]
  · exact ⟨⟨rfl, rfl, rfl, rfl, rfl, rfl, rfl, rfl, rfl, rfl, rfl, rfl, fun _ => rfl, .inr ⟨rfl, rfl⟩⟩, rfl, rfl⟩
  · exact ⟨⟨rfl, rfl, rfl, rfl, rfl, rfl, rfl, rfl, rfl, rfl, rfl, rfl, id, .inl rfl⟩, rfl, rfl⟩

/-- The end of ENCODE is the end of its work but for RESULT and the free bytes drawn. -/
theorem completeEncode_eq (k : Nat) (s : State) :
    ∃ result draws,
      completeEncode k s =
        { endWork s.command.outBase 0 [k]
            (encodePixel (s.portView s.command.outBase 0) s.command k s.startWork).2 s with
          result := result
          draws := draws } := by
  unfold completeEncode
  dsimp only
  split
  · exact ⟨_, _, rfl⟩
  · exact ⟨_, _, rfl⟩

theorem completed_frame (i : Instr) (s : State) :
    EndFrame s (completed i s) ∧ ((completed i s).result = s.result ∨ ∃ k, i = .encode k) ∧
      ((completed i s).xout = s.xout ∨ ∃ k, i = .transpose k) := by
  cases i with
  | nop => exact ⟨finish_frame s, .inl rfl, .inl rfl⟩
  | transpose k =>
    exact ⟨⟨rfl, rfl, rfl, rfl, rfl, rfl, rfl, rfl, rfl, rfl, rfl, rfl, id, .inl rfl⟩, .inl rfl, .inr ⟨k, rfl⟩⟩
  | sweep =>
    obtain ⟨f, hr, hx⟩ := endWork_frame _ _ _ _ s
    exact ⟨f, .inl hr, .inl hx⟩
  | sweepLed =>
    obtain ⟨f, hr, hx⟩ := endWork_frame _ _ _ _ s
    exact ⟨f, .inl hr, .inl hx⟩
  | encode k =>
    obtain ⟨r, d, e⟩ := completeEncode_eq k s
    rw [completed, e]
    obtain ⟨f, -, hx⟩ := endWork_frame s.command.outBase 0 [k]
      (encodePixel (s.portView s.command.outBase 0) s.command k s.startWork).2 s
    exact ⟨⟨f.1, f.2, f.3, f.4, f.5, f.6, f.7, f.8, f.9, f.10, f.11, f.12, f.13, f.14⟩, .inr ⟨k, rfl⟩, .inl hx⟩

/-! ### Memory and residuals after a completion -/

theorem endWork_wf {base : Word} {len : Nat} {pixels : List Nat} {w : Work} {s : State} (hs : s.mem.wf = true)
    (hw : w.mem.wf = true) : (endWork base len pixels w s).mem.wf = true := by
  rcases endWork_cases base len pixels w s with ⟨_, e⟩ | ⟨_, e⟩ <;> rw [e]
  · exact fillFree_wf hs _ _ _
  · exact hw

theorem endWork_below {base : Word} {len : Nat} {pixels : List Nat} {w : Work} {s : State}
    (hs : s.mem.below (2 ^ 32) = true) (hw : w.mem.below (2 ^ 32) = true) :
    (endWork base len pixels w s).mem.below (2 ^ 32) = true := by
  rcases endWork_cases base len pixels w s with ⟨_, e⟩ | ⟨_, e⟩ <;> rw [e]
  · exact fillFree_below hs _ _ _
  · exact hw

theorem endWork_residuals_wf {base : Word} {len : Nat} {pixels : List Nat} {w : Work} {s : State}
    (hs : s.residuals.wf = true) (hw : w.residuals.wf = true) :
    (endWork base len pixels w s).residuals.wf = true := by
  rcases endWork_cases base len pixels w s with ⟨_, e⟩ | ⟨_, e⟩ <;> rw [e]
  · exact freeResiduals_wf hs _ _
  · exact hw

theorem endWork_residuals_below {base : Word} {len bound : Nat} {pixels : List Nat} {w : Work} {s : State}
    (hs : s.residuals.below bound = true) (hp : ∀ i ∈ pixels, 3 * i + 2 < bound)
    (hw : w.residuals.below bound = true) : (endWork base len pixels w s).residuals.below bound = true := by
  rcases endWork_cases base len pixels w s with ⟨_, e⟩ | ⟨_, e⟩ <;> rw [e]
  · exact freeResiduals_below hs hp _
  · exact hw

theorem endWork_read_outside {base : Word} {len : Nat} {pixels : List Nat} {w : Work} {s : State} {a : Word}
    (hlen : len ≤ 2 ^ 32) (ha : ¬(a - base).toNat < len) (hw : w.mem.read a.toNat = s.mem.read a.toNat) :
    (endWork base len pixels w s).mem.read a.toNat = s.mem.read a.toNat := by
  rcases endWork_cases base len pixels w s with ⟨_, e⟩ | ⟨_, e⟩ <;> rw [e]
  · exact fillFree_read_outside _ _ _ hlen ha
  · exact hw

theorem endWork_residuals_outside {base : Word} {len : Nat} {pixels : List Nat} {w : Work} {s : State} {i ch : Nat}
    (hch : ch < 3) (hi : i ∉ pixels) (hw : readResidual w.residuals i ch = readResidual s.residuals i ch) :
    readResidual (endWork base len pixels w s).residuals i ch = readResidual s.residuals i ch := by
  rcases endWork_cases base len pixels w s with ⟨_, e⟩ | ⟨_, e⟩ <;> rw [e]
  · exact freeResiduals_read_outside _ hch hi _
  · exact hw

theorem completed_wf {s : State} (h : s.mem.wf = true) (i : Instr) : (completed i s).mem.wf = true := by
  cases i with
  | nop => exact h
  | transpose => exact h
  | sweep => exact endWork_wf h (sweepGroups_wf _ _ h _)
  | sweepLed => exact endWork_wf h (ledGroup_wf _ _ _ h)
  | encode k =>
    obtain ⟨r, d, e⟩ := completeEncode_eq k s
    rw [completed, e]
    exact endWork_wf h (by rw [encodePixel_mem]; exact h)

theorem completed_below {s : State} (h : s.mem.below (2 ^ 32) = true) (i : Instr) :
    (completed i s).mem.below (2 ^ 32) = true := by
  cases i with
  | nop => exact h
  | transpose => exact h
  | sweep => exact endWork_below h (sweepGroups_below _ _ h _)
  | sweepLed => exact endWork_below h (ledGroup_below _ _ _ h)
  | encode k =>
    obtain ⟨r, d, e⟩ := completeEncode_eq k s
    rw [completed, e]
    exact endWork_below h (by rw [encodePixel_mem]; exact h)

theorem completed_residuals_wf {s : State} (h : s.residuals.wf = true) (i : Instr) :
    (completed i s).residuals.wf = true := by
  cases i with
  | nop => exact h
  | transpose => exact h
  | sweep => exact endWork_residuals_wf h (sweepGroups_residuals_wf _ _ h _)
  | sweepLed =>
    exact endWork_residuals_wf h (by rw [ledGroup_residuals]; exact encodeStrips_residuals_wf _ _ _ h _)
  | encode k =>
    obtain ⟨r, d, e⟩ := completeEncode_eq k s
    rw [completed, e]
    exact endWork_residuals_wf h (encodePixel_residuals_wf _ _ _ h)

/-! ### Other agents and the reset input -/

theorem agentWrite_wf {s : State} (h : s.mem.wf = true) (width : Width) (a v : Word) :
    (agentWrite width a v s).mem.wf = true := Memory.writeBytes_wf h _ _ _

theorem agentWrite_below {s : State} (h : s.mem.below (2 ^ 32) = true) (width : Width) (a v : Word) :
    (agentWrite width a v s).mem.below (2 ^ 32) = true := Memory.writeBytes_below h _ _ _

/-- The memory a completion leaves depends only on what it finds of the command, memory, residuals, build, races and
free bytes. -/
theorem completed_mem_congr {s t : State} (hc : t.command = s.command) (hm : t.mem = s.mem)
    (hr : t.residuals = s.residuals) (hb : t.config = s.config) (hx : t.racedAddrs = s.racedAddrs) (hd : t.draws = s.draws)
    (i : Instr) : (completed i t).mem = (completed i s).mem := by
  have hp : ∀ base len, t.portView base len = s.portView base len := by
    intro base len; simp only [State.portView, hm, hx, hb]
  have hw : t.startWork = s.startWork := by simp only [State.startWork, hr, hm, hd]
  have he : ∀ base len pixels w, (endWork base len pixels w t).mem = (endWork base len pixels w s).mem := by
    intro base len pixels w
    unfold endWork
    split
    · simp only [busFaultEnd, finish_mem, recordError_mem, hm]
    · rfl
  cases i with
  | nop => exact hm
  | transpose => exact hm
  | sweep => simp only [completed, completeSweep, hc, hp, hw, he]
  | sweepLed => simp only [completed, completeSweepLed, hc, hp, hw, he]
  | encode k =>
    obtain ⟨r, d, e⟩ := completeEncode_eq k t
    obtain ⟨r', d', e'⟩ := completeEncode_eq k s
    simp only [completed, e, e', hc, hp, hw, he]

theorem memoryIfCompleted_congr {s t : State} (hf : t.inflight = s.inflight) (hm : t.mem = s.mem)
    (hr : t.residuals = s.residuals) (hb : t.config = s.config) (hx : t.racedAddrs = s.racedAddrs) (hd : t.draws = s.draws) :
    memoryIfCompleted t = memoryIfCompleted s := by
  unfold memoryIfCompleted
  rw [hf]
  split
  · exact hm
  · next f h => exact completed_mem_congr (by simp only [State.command, hf, h]) hm hr hb hx hd _

/-- The memory to come, when the engine is next: what the completion leaves (R57). -/
theorem memoryToCome_engine {s : State} {f : InFlight} (h : s.inflight = some f)
    (hs : s.schedule = [] ∨ s.schedule.head? = some .engine) : memoryToCome s = (completed f.cmd s).mem := by
  have hr : racedToCome s.mem s.schedule s.raced = s.raced := by
    rcases hs with hs | hs
    · rw [hs]; rfl
    · obtain ⟨rest, e⟩ := List.head?_eq_some_iff.1 hs
      rw [e]; rfl
  rw [memoryToCome, hr]
  show memoryIfCompleted s = _
  simp only [memoryIfCompleted, h]

/-- Nothing in flight, nothing to come. -/
theorem memoryToCome_idle {s : State} (h : s.inflight = none) : memoryToCome s = s.mem := by
  simp only [memoryToCome, memoryIfCompleted, h]

theorem addRaced_addrs (a : Word) (m : Memory) (raced : List Host.Cell) (n : Nat) :
    (addRaced a m raced n).map Prod.fst = raced.map Prod.fst ++ (List.range n).map fun b => (addrAt a b).toNat := by
  simp [addRaced]

theorem mem_addRaced {a : Word} {m : Memory} {raced : List Host.Cell} {n x : Nat} :
    x ∈ (addRaced a m raced n).map Prod.fst ↔ x ∈ raced.map Prod.fst ∨ ∃ b, b < n ∧ x = (addrAt a b).toNat := by
  rw [addRaced_addrs, List.mem_append, List.mem_map (l := List.range n)]
  refine or_congr Iff.rfl (exists_congr fun b => ?_)
  rw [List.mem_range, eq_comm (a := x)]

/-- Which addresses will be raced depends only on which are. -/
theorem racedToCome_addrs (moves : List Move) {m m' : Memory} {raced raced' : List Host.Cell}
    (h : raced'.map Prod.fst = raced.map Prod.fst) :
    (racedToCome m' moves raced').map Prod.fst = (racedToCome m moves raced).map Prod.fst := by
  induction moves generalizing raced raced' with
  | nil => exact h
  | cons move rest ih =>
    cases move with
    | memWrite width a v => exact ih (by rw [addRaced_addrs, addRaced_addrs, h])
    | write | read | memRead => exact ih h
    | engine | wait | reset => exact h

theorem mem_racedToCome_of_mem (m : Memory) (moves : List Move) {raced : List Host.Cell} {a : Nat}
    (h : a ∈ raced.map Prod.fst) : a ∈ (racedToCome m moves raced).map Prod.fst := by
  induction moves generalizing raced with
  | nil => exact h
  | cons move rest ih =>
    cases move with
    | memWrite width b v => exact ih (mem_addRaced.2 (.inl h))
    | write | read | memRead => exact ih h
    | engine | wait | reset => exact h

/-- A byte that is not raced holds its value from before the command. -/
theorem State.beforeCommand_of_not_raced {s : State} {a : Nat} (h : a ∉ s.racedAddrs) :
    s.beforeCommand a = s.mem.read a := by
  have : s.raced.lookup a = none := by
    rw [List.lookup_eq_none_iff]
    intro p hp
    exact bne_iff_ne.2 fun e => h (List.mem_map.2 ⟨p, hp, e.symm⟩)
  rw [State.beforeCommand, this]

/-- Another agent's write leaves every byte's value from before the command (R57). -/
theorem agentWrite_beforeCommand {s : State} (hb : s.busy = true) (width : Width) (a v : Word) (x : Nat) :
    (agentWrite width a v s).beforeCommand x = s.beforeCommand x := by
  have hr : (agentWrite width a v s).raced = addRaced a s.mem s.raced width.bytes := by simp [agentWrite, hb]
  by_cases hx : ∃ b, b < width.bytes ∧ x = (addrAt a b).toNat
  · have key : ∀ (l : List Nat), (∃ b ∈ l, x = (addrAt a b).toNat) →
        (l.map fun b => ((addrAt a b).toNat, s.mem.read (addrAt a b).toNat)).lookup x = some (s.mem.read x) := by
      intro l
      induction l with
      | nil => rintro ⟨b, hb, -⟩; cases hb
      | cons c l ih =>
        rintro ⟨b, hb, e⟩
        rw [List.map_cons, List.lookup_cons]
        by_cases hc : x = (addrAt a c).toNat
        · rw [← hc, beq_self_eq_true]
        · rw [beq_false_of_ne hc]
          rcases List.mem_cons.1 hb with rfl | hb
          · exact absurd e hc
          · exact ih ⟨b, hb, e⟩
    obtain ⟨b, hb, e⟩ := hx
    have hl := key (List.range width.bytes) ⟨b, List.mem_range.2 hb, e⟩
    simp only [State.beforeCommand, hr, addRaced, List.lookup_append, hl]
    cases s.raced.lookup x <;> rfl
  · have hm : (agentWrite width a v s).mem.read x = s.mem.read x :=
      Memory.read_writeBytes_ne _ _ _ fun b hb e => hx ⟨b, hb, e.symm⟩
    have hl : ((List.range width.bytes).map fun b => ((addrAt a b).toNat, s.mem.read (addrAt a b).toNat)).lookup x =
        none := by
      rw [List.lookup_eq_none_iff]
      intro p hp
      obtain ⟨b, hb, rfl⟩ := List.mem_map.1 hp
      exact bne_iff_ne.2 fun e => hx ⟨b, List.mem_range.1 hb, e⟩
    simp only [State.beforeCommand, hr, hm, addRaced, List.lookup_append, hl, Option.or_none]

/-- The bytes a command will write do not depend on bytes that are raced by its end: two states with the same command,
residuals, build, races and free bytes, whose memories agree elsewhere, leave the same bytes in the write range. -/
theorem memoryIfCompleted_read {s t : State} {f : InFlight} (hs : s.inflight = some f) (ht : t.inflight = some f)
    (hr : t.residuals = s.residuals) (hb : t.config = s.config) (hx : t.racedAddrs = s.racedAddrs) (hd : t.draws = s.draws)
    (hws : s.mem.wf = true) (hwt : t.mem.wf = true) (hm : ∀ a, a ∉ s.racedAddrs → t.mem.read a = s.mem.read a) {a : Word}
    (ha : inRange (writeRange f).1 (writeRange f).2 a = true) :
    (memoryIfCompleted t).read a.toNat = (memoryIfCompleted s).read a.toNat := by
  have hcs : s.command = f.snapshot := State.command_of_inflight hs
  have hct : t.command = f.snapshot := State.command_of_inflight ht
  have hp : ∀ base len, (s.portView base len).Agrees (t.portView base len) := fun base len =>
    ⟨hx, rfl, rfl, hb, fun b h => hm _ (PortView.unstable_eq_false.1 h).1⟩
  have hw : t.startWork = s.startWork.onMem t.mem := by simp only [State.startWork, hr, hd]
  have hL := Setup.L_lt f.snapshot
  have he : ∀ (base : Word) (len : Nat) (pixels : List Nat) (w v : Work), len ≤ 2 ^ 32 → v.err = w.err →
      v.draws = w.draws → (a - base).toNat < len → v.mem.read a.toNat = w.mem.read a.toNat →
      (endWork base len pixels v t).mem.read a.toNat = (endWork base len pixels w s).mem.read a.toNat := by
    intro base len pixels w v hlen h1 h2 h3 h4
    unfold endWork
    rw [h1]
    split
    · rw [h2]; exact fillFree_read_inside hwt hws _ _ hlen h3
    · exact h4
  unfold memoryIfCompleted
  rw [hs, ht]
  dsimp only
  unfold writeRange at ha
  cases hc : f.cmd with
  | nop => simp [hc, inRange] at ha
  | encode => simp [hc, inRange] at ha
  | transpose => simp [hc, inRange] at ha
  | sweep =>
    simp only [hc, inRange, decide_eq_true_eq] at ha
    simp only [completed, completeSweep, hcs, hct, sweepGroups_agrees (hp _ _), hw]
    have e := sweepGroups_onMem (s.portView f.snapshot.outBase (24 * f.snapshot.L)) f.snapshot s.startWork t.mem
      f.snapshot.L
    exact he _ _ _ _ _ (by omega) (by rw [e]) (by rw [e]) ha (sweepGroups_read_onMem _ _ hws hwt (by omega) ha)
  | sweepLed l =>
    simp only [hc, inRange, decide_eq_true_eq] at ha
    simp only [completed, completeSweepLed, hcs, hct, ledGroup_agrees (hp _ _), hw]
    have e := ledGroup_onMem (s.portView (groupAddr f.snapshot l) 24) f.snapshot l s.startWork t.mem
    exact he _ _ _ _ _ (by omega) (by rw [e]) (by rw [e]) ha (ledGroup_read_onMem _ _ l hws hwt ha)

theorem oldOrNew_wf {m : Memory} (h : m.wf = true) (new : Memory) (base : Word) (choice n : Nat) :
    (oldOrNew new base choice m n).wf = true := by
  induction n with
  | zero => exact h
  | succ n ih =>
    simp only [oldOrNew]
    split
    · exact Memory.write_wf ih _ _
    · exact ih

theorem oldOrNew_below {m : Memory} (h : m.below (2 ^ 32) = true) (new : Memory) (base : Word) (choice n : Nat) :
    (oldOrNew new base choice m n).below (2 ^ 32) = true := by
  induction n with
  | zero => exact h
  | succ n ih =>
    simp only [oldOrNew]
    split
    · exact Memory.write_below ih (addrAt base n).isLt _
    · exact ih

/-- Every byte is old or new (R117). -/
theorem oldOrNew_read {m : Memory} (h : m.wf = true) (new : Memory) (base : Word) (choice n : Nat) (a : Nat) :
    (oldOrNew new base choice m n).read a = m.read a ∨ (oldOrNew new base choice m n).read a = new.read a := by
  induction n with
  | zero => exact .inl rfl
  | succ n ih =>
    simp only [oldOrNew]
    split
    · rw [Memory.read_write (oldOrNew_wf h new base choice n)]
      split
      · next e => rw [e]; exact .inr rfl
      · exact ih
    · exact ih

/-- Bytes outside the range stay old (R117). -/
theorem oldOrNew_read_outside (m new : Memory) (base : Word) (choice : Nat) {n : Nat} (hn : n ≤ 2 ^ 32) {a : Word}
    (ha : ¬(a - base).toNat < n) : (oldOrNew new base choice m n).read a.toNat = m.read a.toNat := by
  induction n with
  | zero => rfl
  | succ n ih =>
    simp only [oldOrNew]
    split
    · rw [Memory.read_write_ne, ih (by omega) (by omega)]
      intro e
      have := BitVec.eq_of_toNat_eq e
      rw [← this, addrAt_sub base (by omega)] at ha
      omega
    · exact ih (by omega) (by omega)

theorem resetMemory_wf {s : State} (h : s.mem.wf = true) : (resetMemory s).wf = true := by
  unfold resetMemory
  split
  · exact h
  · exact oldOrNew_wf h _ _ _ _

theorem resetMemory_below {s : State} (h : s.mem.below (2 ^ 32) = true) : (resetMemory s).below (2 ^ 32) = true := by
  unfold resetMemory
  split
  · exact h
  · exact oldOrNew_below h _ _ _ _

theorem coldReset_wf {s : State} (h : s.mem.wf = true) : (coldReset s).mem.wf = true := resetMemory_wf h

/-! ### The ways one step can go -/

/-- What one step can do (R100): one line for each kind of move. -/
theorem step_cases {s t : State} (h : step s = .next t) :
    (s.inflight = none ∧ (s.schedule = [] ∨ s.schedule.head? = some .engine) ∧
      t = { s with schedule := s.schedule.tail }) ∨
    (∃ f, s.inflight = some f ∧ (s.schedule = [] ∨ s.schedule.head? = some .engine) ∧
      t = completed f.cmd { s with schedule := s.schedule.tail, mover := .engine }) ∨
    (∃ w rest, s.schedule = .write 0x10 w :: rest ∧
      ((∃ i, decode w = .ok i ∧
          t = issue i (ownChecks i { s with schedule := rest, mover := .host })
                { s with schedule := rest, mover := .host }) ∨
        ((∃ e, decode w = .error e) ∧ t = rejectIllegal { s with schedule := rest, mover := .host }))) ∨
    (∃ r v rest, r ≠ .cmd ∧ s.schedule = .write r.offset v :: rest ∧ t = writeReg r v { s with schedule := rest }) ∨
    (∃ off v rest, Reg.ofOffset off = none ∧ s.schedule = .write off v :: rest ∧ t = { s with schedule := rest }) ∨
    (∃ off rest, s.schedule = .read off :: rest ∧
      t = { s with schedule := rest, portData := windowValue off s }) ∨
    (∃ rest, s.schedule = .wait :: rest ∧ t = poll { s with schedule := rest }) ∨
    (∃ width a v rest, s.schedule = .memWrite width a v :: rest ∧
      t = agentWrite width a v { s with schedule := rest }) ∨
    (∃ width a rest, s.schedule = .memRead width a :: rest ∧ t = agentRead width a { s with schedule := rest }) ∨
    (∃ rest, s.schedule = .reset :: rest ∧ t = coldReset { s with schedule := rest }) := by
  have engine : (s.schedule = [] ∨ s.schedule.head? = some .engine) →
      (s.inflight = none ∧ t = { s with schedule := s.schedule.tail }) ∨
      (∃ f, s.inflight = some f ∧ t = completed f.cmd { s with schedule := s.schedule.tail, mover := .engine }) := by
    intro he
    rw [step_engine he] at h
    cases hf : s.inflight with
    | none => rw [engineStep_idle (by exact hf)] at h; cases h; exact .inl ⟨rfl, by rw [hf]⟩
    | some f =>
      rw [engineStep_busy (f := f) (by exact hf), exec_engine rfl] at h
      cases h; exact .inr ⟨f, rfl, by rw [hf]⟩
  cases hs : s.schedule with
  | nil =>
    rcases engine (.inl hs) with ⟨a, b⟩ | ⟨f, a, b⟩
    · exact .inl ⟨a, .inl rfl, by rw [hs] at b; exact b⟩
    · exact .inr (.inl ⟨f, a, .inl rfl, by rw [hs] at b; exact b⟩)
  | cons m rest =>
    cases m with
    | engine =>
      rcases engine (.inr (by rw [hs]; rfl)) with ⟨a, b⟩ | ⟨f, a, b⟩
      · exact .inl ⟨a, .inr rfl, by rw [hs] at b; exact b⟩
      · exact .inr (.inl ⟨f, a, .inr rfl, by rw [hs] at b; exact b⟩)
    | write off v =>
      rw [step_cons hs, takeMove] at h
      by_cases ha : off.toNat % 4 = 0
      · cases hr : Reg.ofOffset off with
        | none =>
          rw [portWrite_reserved ha hr] at h
          cases h
          exact .inr (.inr (.inr (.inr (.inl ⟨off, v, rest, hr, rfl, rfl⟩))))
        | some r =>
          have ho := Reg.offset_of_ofOffset hr
          by_cases hc : r = .cmd
          · subst hc
            subst ho
            rw [show Reg.offset .cmd = 0x10 from rfl, portWrite_cmd] at h
            refine .inr (.inr (.inl ⟨v, rest, rfl, ?_⟩))
            rcases issueWord_cases v { s with schedule := rest } with ⟨i, hd, e⟩ | ⟨hd, e⟩ <;> rw [e] at h <;> cases h
            · exact .inl ⟨i, hd, rfl⟩
            · exact .inr ⟨hd, rfl⟩
          · subst ho
            rw [portWrite_reg hc] at h
            cases h
            exact .inr (.inr (.inr (.inl ⟨r, v, rest, hc, rfl, rfl⟩)))
      · rw [portWrite_misaligned ha] at h; cases h
    | read off =>
      rw [step_cons hs, takeMove] at h
      by_cases ha : off.toNat % 4 = 0
      · rw [portRead_aligned ha] at h
        cases h
        exact .inr (.inr (.inr (.inr (.inr (.inl ⟨off, rest, rfl, rfl⟩)))))
      · rw [portRead_misaligned ha] at h; cases h
    | wait =>
      rw [step_cons hs] at h; cases h
      exact .inr (.inr (.inr (.inr (.inr (.inr (.inl ⟨rest, rfl, rfl⟩))))))
    | memWrite width a v =>
      rw [step_cons hs] at h; cases h
      exact .inr (.inr (.inr (.inr (.inr (.inr (.inr (.inl ⟨width, a, v, rest, rfl, rfl⟩)))))))
    | memRead width a =>
      rw [step_cons hs] at h; cases h
      exact .inr (.inr (.inr (.inr (.inr (.inr (.inr (.inr (.inl ⟨width, a, rest, rfl, rfl⟩))))))))
    | reset =>
      rw [step_cons hs] at h; cases h
      exact .inr (.inr (.inr (.inr (.inr (.inr (.inr (.inr (.inr ⟨rest, rfl, rfl⟩))))))))

end Sys2Proof.Machine
end

