-- ==== Sys2Proof/Laws/Encoding.lean ====
section
/-! SUPPORT. The fields of a command word as digits of the number it is (R62). -/

namespace Sys2Proof

theorem opField_toNat (w : Word) : (opField w).toNat = w.toNat % 16 := by
  simp [opField, BitVec.extractLsb'_toNat]

theorem rsvField_toNat (w : Word) : (rsvField w).toNat = w.toNat / 16 % 16 := by
  simp [rsvField, BitVec.extractLsb'_toNat, Nat.shiftRight_eq_div_pow]

theorem argField_eq (w : Word) : argField w = w.toNat / 256 := by
  have := w.isLt
  simp only [argField, BitVec.extractLsb'_toNat, Nat.shiftRight_eq_div_pow]
  omega

/-- The argument a decoder reads fits the field. -/
theorem argField_lt (w : Word) : argField w < 2 ^ 24 := (w.extractLsb' 8 24).isLt

/-- RSV is 0 when that digit is. -/
theorem rsvField_eq_zero (w : Word) : rsvField w = 0 ↔ w.toNat / 16 % 16 = 0 := by
  rw [← rsvField_toNat, ← BitVec.toNat_inj]; rfl

/-- The word of a command as a number. -/
theorem encode_toNat (i : Instr) : (encode i).toNat = i.arg % 2 ^ 24 * 256 + i.opcode.toNat := by
  have h : (encode i).toNat = ((BitVec.ofNat 24 i.arg).toNat * 2 ^ 4 + (0#4).toNat) * 2 ^ 4 + i.opcode.toNat := by
    simp only [← Machine.toNat_append_eq]
    rfl
  simp only [BitVec.toNat_ofNat] at h
  omega

theorem opField_encode (i : Instr) : opField (encode i) = i.opcode := by
  apply BitVec.eq_of_toNat_eq
  rw [opField_toNat, encode_toNat]
  have := i.opcode.isLt
  omega

theorem rsvField_encode (i : Instr) : rsvField (encode i) = 0 := by
  rw [rsvField_eq_zero, encode_toNat]
  have := i.opcode.isLt
  omega

theorem argField_encode {i : Instr} (h : i.WellFormed) : argField (encode i) = i.arg := by
  rw [argField_eq, encode_toNat]
  have := i.opcode.isLt
  have : i.arg < 2 ^ 24 := h
  omega

end Sys2Proof
end

