-- ==== Sys2Proof/Laws/PerInstr.lean ====
section
/-! SUPPORT. Facts stated per command, one lemma for each constructor. -/

namespace Sys2Proof.Laws.FixedBits

/-- The low byte of a command's word is the table's `match` value: RSV is 0 and OP the command's opcode (R62, R66). -/
def Statement (i : Instr) : Prop :=
  (encode i).toNat % 256 =
    match i with
    | .nop _ => 0x00
    | .sweep _ => 0x01
    | .sweepLed _ => 0x02
    | .encode _ => 0x03
    | .transpose _ => 0x04

/-- The low byte of an encoded word is its opcode. -/
theorem low_byte (i : Instr) : (Sys2Proof.encode i).toNat % 256 = i.opcode.toNat := by
  rw [encode_toNat]
  have := i.opcode.isLt
  omega

theorem nop (arg : Nat) : Statement (.nop arg) := low_byte (.nop arg)
theorem sweep (arg : Nat) : Statement (.sweep arg) := low_byte (.sweep arg)
theorem sweepLed (led : Nat) : Statement (.sweepLed led) := low_byte (.sweepLed led)
theorem encode (pixel : Nat) : Statement (.encode pixel) := low_byte (.encode pixel)
theorem transpose (arg : Nat) : Statement (.transpose arg) := low_byte (.transpose arg)

end Sys2Proof.Laws.FixedBits
end

