-- ==== Sys2Proof/Tests/Slice0.lean ====
section
/-! SUPPORT. Tests with results taken from spec/95_test_vectors.md and the rules' own examples, and for every
statement with hypotheses a concrete state that meets them. -/

namespace Sys2Proof.Tests

open Sys2Proof.Machine

/-! ### Small states -/

/-- The base configuration of spec/95_test_vectors.md section 2.8, with the framebuffers of its programs. -/
def base : Setup :=
  { gmode := .direct, chord := .q2q1q0, coeff := 0x8000, leds := 4, strips := 2
    prevBase := 0x1000, nextBase := 0x2000, outBase := 0x3000, gammaBase := 0x10000 }

/-- Bytes at the addresses from `a`. -/
def place (m : Memory) (a : Nat) : List Byte → Memory
  | [] => m
  | b :: bs => place (m.write a b) (a + 1) bs

/-- A 16-bit entry at an address, little-endian. -/
def entryAt (m : Memory) (a : Nat) (v : Nat) : Memory := place m a [BitVec.ofNat 8 v, BitVec.ofNat 8 (v / 256)]

/-- Entries of the DIRECT identity table at 0x10000: entry `x` of channel `ch` holds `x`. -/
def identity (m : Memory) : List (Nat × Nat) → Memory
  | [] => m
  | (ch, x) :: xs => identity (entryAt m (0x10000 + 2 * (65536 * ch + x)) x) xs

/-- Entries of an INTERP257 table at 0x10000. -/
def table257 (m : Memory) : List (Nat × Nat × Nat) → Memory
  | [] => m
  | (ch, k, v) :: xs => table257 (entryAt m (0x10000 + 2 * (257 * ch + k)) v) xs

/-- The idle block after reset, configured. -/
def idle (c : Setup) : State := { State.reset with setup := c }

/-- The block with a command in flight and the engine about to complete it. -/
def busy (i : Instr) (c : Setup) : State :=
  { State.reset with setup := c, inflight := some { cmd := i, snapshot := c }, mover := .engine }

/-- The next state, if there is one. -/
def nextOf (o : Host.Outcome State Fault Refusal) : Option State :=
  match o with
  | .next s => some s
  | .fault _ => none
  | .refused _ => none

theorem next_of_isSome {o : Host.Outcome State Fault Refusal} (h : (nextOf o).isSome = true) : ∃ t, o = .next t := by
  cases o with
  | next t => exact ⟨t, rfl⟩
  | fault r => cases h
  | refused r => cases h

/-- The little-endian word in memory. -/
def wordAt (s : State) (a : Nat) : Nat :=
  (s.mem.read a).toNat + 256 * (s.mem.read (a + 1)).toNat + 65536 * (s.mem.read (a + 2)).toNat
    + 16777216 * (s.mem.read (a + 3)).toNat

/-- The three residual entries of a pixel. -/
def residualsOf (s : State) (i : Nat) : List Byte := [0, 1, 2].map fun ch => readResidual s.residuals i ch

/-! ### Well-formedness -/

theorem test_wellFormed_refuses_wide_argument :
    ¬(Instr.encode 0x1000000).WellFormed ∧ ¬(Instr.nop 0x1000000).WellFormed ∧ ¬(Instr.sweep 0x1000000).WellFormed ∧
      ¬(Instr.sweepLed 0x1000000).WellFormed ∧ ¬(Instr.transpose 0x1000000).WellFormed := by decide

theorem test_wellFormed_accepts_widest_argument : (Instr.encode 0xFFFFFF).WellFormed := by decide

theorem test_config_refuses_no_leds :
    ¬Config.WellFormed { maxLeds := 0, busErrors := [] } ∧ Config.WellFormed { maxLeds := 1, busErrors := [] } := by decide

/-! ### Decoding: words written out from R62, R67 (ARG in [31:8], RSV in [7:4], OP in [3:0]) -/

theorem test_decode_nop : decode 0b00000000_00000000_00000000_0000_0000#32 = .ok (.nop 0) := by decide
theorem test_decode_sweep : decode 0b00000000_00000000_00000000_0000_0001#32 = .ok (.sweep 0) := by decide
theorem test_decode_sweepLed : decode 0b00000000_00000000_00000101_0000_0010#32 = .ok (.sweepLed 5) := by decide
theorem test_decode_encode : decode 0b00000000_00000001_00100011_0000_0011#32 = .ok (.encode 0x123) := by decide
theorem test_decode_transpose : decode 0b00000000_00000000_00000000_0000_0100#32 = .ok (.transpose 0) := by decide
theorem test_decode_top_argument_bit : decode 0b10000000_00000000_00000000_0000_0011#32 = .ok (.encode 0x800000) := by decide
theorem test_decode_illegal :
    decode 0x00000015 = .error .illegalCmd ∧ decode 0x00000014 = .error .illegalCmd ∧
      decode 0x00000005 = .error .illegalCmd ∧ decode 0x0000000F = .error .illegalCmd := by decide
theorem test_encode_words :
    encode (.nop 0) = 0x00000000 ∧ encode (.sweep 0) = 0x00000001 ∧ encode (.sweepLed 5) = 0x00000502 ∧
      encode (.encode 0x123) = 0x00012303 ∧ encode (.transpose 0) = 0x00000004 := by decide

/-! ### The data path (sections 2.2 to 2.5 of the vectors) -/

/-- BL2 to BL4. -/
theorem test_blend :
    blend 0x00001 0xFF 0x00 = 0xFFFE ∧ blend 0x08000 0x00 0xFF = 0x7FFF ∧ blend 0x08000 0x10 0x20 = 0x1818 ∧
      blend 0x0FFFF 0x10 0x20 = 0x201F ∧ blend 0x10000 0x00 0xFF = 0xFFFF := by decide

/-- GM5, GM7, GM8. -/
theorem test_interpolate :
    interpolate 0x8000 0x8100 0x80 = 0x8080 ∧ interpolate 0xFF00 0xFFFF 0xFF = 0xFFFE ∧
      interpolate 0x2D41 0x2E25 0x80 = 0x2DB3 := by decide

/-- QT3 to QT8. -/
theorem test_quantise :
    quantise 0x00FF 0x01 = (0x01, 0x00) ∧ quantise 0x8080 0x80 = (0x81, 0x00) ∧ quantise 0xFF00 0xFF = (0xFF, 0xFF) ∧
      quantise 0xFF01 0xFF = (0xFF, 0xFF) ∧ quantise 0xFFFF 0xFF = (0xFF, 0xFF) ∧
      quantise 0xFFFF 0x00 = (0xFF, 0xFF) := by decide

/-- PK0 to PK5. -/
theorem test_pack :
    pack .q2q1q0 0x11 0x22 0x33 = 0x332211 ∧ pack .q1q0q2 0x11 0x22 0x33 = 0x221133 ∧
      pack .q0q1q2 0x11 0x22 0x33 = 0x112233 ∧ pack .q0q2q1 0x11 0x22 0x33 = 0x113322 ∧
      pack .q1q2q0 0x11 0x22 0x33 = 0x223311 ∧ pack .q2q0q1 0x11 0x22 0x33 = 0x331122 := by decide

/-! ### The commands, one step each -/

/-- AC17: NOP needs no legal configuration. -/
theorem test_nop_accepted :
    (nextOf (step (State.reset.withFetchWord 32 0))).map (fun s => (s.busy, s.status.err)) = some (true, false) := by
  decide

/-- R99: NOP from idle with DONE = 1 leaves DONE = 1 and BUSY = 0. -/
theorem test_nop_completes :
    (nextOf (step (busy (.nop 7) Setup.reset))).map State.statusWord = some 0x00000002 := by decide

/-- TX5. -/
def wordsTX5 : Vector Colour 8 :=
  #v[0x123456, 0xABCDEF, 0x000000, 0xFFFFFF, 0x000001, 0x800000, 0x0F0F0F, 0xF0F0F0]

theorem test_transpose_eight :
    (nextOf (step { busy (.transpose 0) { base with strips := 8 } with xin := wordsTX5 })).map State.xout =
      some #v[0x898A88AA, 0x4A4B484A, 0x89898A8A, 0x4A484B4A, 0x898A8B8A, 0x5A4B4B4A] := by decide +kernel

/-- TX6. -/
theorem test_transpose_three :
    (nextOf (step { busy (.transpose 0) { base with strips := 3 } with xin := wordsTX5 })).map State.xout =
      some #v[0x01020002, 0x02030002, 0x01010202, 0x02000302, 0x01020302, 0x02030302] := by decide +kernel

/-- The configuration and memory of EN1. -/
def setupEN1 : Setup := { base with coeff := 0 }
def memEN1 : Memory :=
  identity (place (place [] 0x1000 [0x00, 0x80, 0xFF]) 0x2000 [0xFF, 0xFF, 0xFF]) [(0, 0), (1, 0x8080), (2, 0xFFFF)]

/-- EN1b: the second encoding, with a carry in channel 1 and saturation in channel 2. -/
theorem test_encode_direct :
    (nextOf (step { busy (.encode 0) setupEN1 with mem := memEN1, residuals := place [] 0 [0x00, 0x80, 0xFF] })).map
      (fun s => (s.result, residualsOf s 0)) = some (0xFF8100, [0x00, 0x00, 0xFF]) := by decide +kernel

/-- EN3, with the entries of the gamma-2.5 table of section 2.3. -/
def memEN3 : Memory :=
  table257 (place [] 0x1000 [0x80, 0x40, 0x12])
    [(0, 0x80, 0x2D41), (0, 0x81, 0x2E25), (1, 0x40, 0x0800), (1, 0x41, 0x0851), (2, 0x12, 0x0056), (2, 0x13, 0x0062)]

theorem test_encode_interp257 :
    (nextOf (step { busy (.encode 0) { setupEN1 with gmode := .interp257 } with mem := memEN3 })).map
      (fun s => (s.result, residualsOf s 0)) = some (0x00082D, [0xB3, 0x14, 0x56]) := by decide +kernel

/-- The configuration and memory of P2. -/
def setupP2 : Setup := { base with chord := .q1q0q2, leds := 2 }
def memP2 : Memory :=
  identity
    (place
      (place [] 0x1000 [0x12, 0x34, 0x56, 0xFF, 0x00, 0x80, 0x01, 0x02, 0x03, 0x00, 0x00, 0x00])
      0x2000 [0x12, 0x34, 0x56, 0x00, 0xFF, 0x80, 0xFF, 0xFF, 0xFF, 0x80, 0x80, 0x80])
    [(0, 0x1212), (0, 0x7FFF), (0, 0x8080), (0, 0x4040), (1, 0x3434), (1, 0x7FFF), (1, 0x8100), (1, 0x4040),
      (2, 0x5656), (2, 0x8080), (2, 0x8181), (2, 0x4040)]

/-- P2, the first sweep: the draw buffer and the residuals. -/
theorem test_sweep_draw_buffer :
    (nextOf (step { busy (.sweep 0) setupP2 with mem := memP2 })).map
        (fun s => ([0, 1, 2, 3, 4, 5, 6, 7, 8, 9, 10, 11, 12].map fun j => wordAt s (0x3000 + 4 * j))) =
      some [0x01010002, 0x02000100, 0x01000002, 0x00010000, 0x01000102, 0x02010100,
        0x01010300, 0x01010101, 0x01010300, 0x01010101, 0x00000201, 0x00000000, 0x00000000] := by decide +kernel

theorem test_sweep_residuals :
    (nextOf (step { busy (.sweep 0) setupP2 with mem := memP2 })).map
        (fun s => ([0, 1, 2, 3, 4].map (residualsOf s), s.statusWord)) =
      some ([[0x12, 0x34, 0x56], [0xFF, 0xFF, 0x80], [0x80, 0x00, 0x81], [0x40, 0x40, 0x40], [0, 0, 0]], 0x00000002) := by
  decide +kernel

/-- P4, the step with `c = 0x4000`. -/
theorem test_sweepLed_interp257 :
    (nextOf (step
        { busy (.sweepLed 0) { base with gmode := .interp257, coeff := 0x4000, leds := 1, strips := 1 } with
          mem := table257 (place [] 0x2000 [0xFF, 0xFF, 0xFF])
            [(0, 0x3F, 0x3F00), (0, 0x40, 0x4000), (1, 0x3F, 0x3F00), (1, 0x40, 0x4000), (2, 0x3F, 0x3F00),
              (2, 0x40, 0x4000)] })).map
        (fun s => ([0, 1, 2, 3, 4, 5].map fun j => wordAt s (0x3000 + 4 * j), residualsOf s 0)) =
      some ([0x01010000, 0x01010101, 0x01010000, 0x01010101, 0x01010000, 0x01010101], [0xFF, 0xFF, 0xFF]) := by
  decide +kernel

/-- P2's LED 1 alone: only its 24 bytes are written (R98's example). -/
theorem test_sweepLed_writes_its_group_only :
    (nextOf (step { busy (.sweepLed 1) setupP2 with mem := memP2 })).map
        (fun s => ([0, 5, 6, 7, 8, 9, 10, 11, 12].map fun j => wordAt s (0x3000 + 4 * j))) =
      some [0, 0, 0x01010300, 0x01010101, 0x01010300, 0x01010101, 0x00000201, 0x00000000, 0] := by decide +kernel

/-! ### The register port (section 2.9 of the vectors) -/

/-- What a register reads after one step from a state. -/
def readAfter (s : State) (off : BitVec 8) : Option Word := (nextOf (step s)).map (windowValue off)

/-- CR1 to CR6. -/
theorem test_register_writes :
    readAfter { State.reset with schedule := [.write 0x08 0x74] } 0x08 = some 0x04 ∧
      readAfter { State.reset with schedule := [.write 0x08 0x57] } 0x08 = some 0x57 ∧
      readAfter { State.reset with schedule := [.write 0x40 0xFF123456] } 0x40 = some 0x00123456 ∧
      readAfter { State.reset with schedule := [.write 0x14 0xFFFFFFFF] } 0x14 = some 0x0001FFFF ∧
      readAfter { State.reset with schedule := [.write 0x18 0x12345678] } 0x18 = some 0x00005678 ∧
      readAfter { State.reset with schedule := [.write 0x1C 0xFF] } 0x1C = some 0x0000000F := by decide

/-- CR7, CR8: what a write of STATUS clears. -/
theorem test_status_writes :
    readAfter
        { State.reset with
          status := { done := true, err := true, errOvf := false, errCode := .cfgStrips }
          schedule := [.write 0x0C 0x2] } 0x0C = some 0x00000304 ∧
      readAfter
        { State.reset with
          status := { done := true, err := true, errOvf := true, errCode := .cfgStrips }
          schedule := [.write 0x0C 0x4] } 0x0C = some 0x00000002 := by decide

/-- CR9, CR10: what a write does while BUSY. -/
theorem test_writes_while_busy :
    readAfter { busy (.nop 0) base with schedule := [.write 0x14 0x100] } 0x14 = some 0x8000 ∧
      readAfter { busy (.nop 0) base with schedule := [.write 0x08 0x17] } 0x08 = some 0x03 := by decide

/-- CR11 to CR13. -/
theorem test_constant_registers :
    windowValue 0x10 State.reset = 0 ∧ windowValue 0x34 State.reset = 0 ∧
      windowValue 0x00 State.reset = 0x46434C31 ∧ windowValue 0x04 State.reset = 0x08380040 := by decide

/-- R19: a misaligned access is refused. -/
theorem test_misaligned_access_is_refused :
    step { State.reset with schedule := [.read 0x0D] } = .refused .misalignedAccess ∧
      step { State.reset with schedule := [.write 0x17 5] } = .refused .misalignedAccess := ⟨rfl, rfl⟩

/-- P3 lines 2 to 5: CFG_STRIPS first, then ERR_OVF beside the kept code. -/
theorem test_errors_are_kept :
    readAfter { State.reset with schedule := [.write 0x10 0x00000001] } 0x0C = some 0x00000304 ∧
      readAfter
        { State.reset with
          status := { done := false, err := true, errOvf := false, errCode := .cfgStrips }
          schedule := [.write 0x10 0x00000015] } 0x0C = some 0x0000030C := by decide

/-! ### Witnesses: concrete states that meet the hypotheses of each statement, at the boundaries of its clauses -/

/-- The legal configuration for every command, in the small format of the gamma table. -/
def small : Setup := { base with gmode := .interp257, coeff := 0x10000 }

theorem small_legal :
    small.legalFor Config.initial (.sweep 0) ∧ small.legalFor Config.initial (.sweepLed 0) ∧
      small.legalFor Config.initial (.sweepLed 3) ∧ small.legalFor Config.initial (.encode 0) ∧
      small.legalFor Config.initial (.encode 7) ∧ small.legalFor Config.initial (.transpose 0) ∧
      small.legalFor Config.initial (.nop 0) := by
  simp only [Setup.legalFor]; decide

theorem small_apart : small.RegionsApart small.outBase (24 * small.leds.toNat) := by
  refine ⟨by decide, fun k hk => ?_⟩
  have hk : k < 1542 := hk
  refine decide_eq_false (show ¬(0x10000#32 + BitVec.ofNat 32 k - 0x3000#32).toNat < 96 from ?_)
  bv_omega

theorem small_apart_led (l : Nat) (hl : l < 4) :
    small.RegionsApart (small.outBase + BitVec.ofNat 32 (24 * l)) 24 := by
  have : l = 0 ∨ l = 1 ∨ l = 2 ∨ l = 3 := by omega
  refine ⟨by rcases this with rfl | rfl | rfl | rfl <;> decide, fun k hk => ?_⟩
  have hk : k < 1542 := hk
  refine decide_eq_false
    (show ¬(0x10000#32 + BitVec.ofNat 32 k - (0x3000#32 + BitVec.ofNat 32 (24 * l))).toNat < 24 from ?_)
  rcases this with rfl | rfl | rfl | rfl <;> bv_omega

theorem lin_lt (s : State) {c : Setup} (hc : c.coeff.toNat ≤ 0x10000) (i ch : Nat) : Manual.lin s c i ch < 65536 := by
  have h := blend_toNat hc (s.mem.read (Manual.fbAddr c.prevBase i ch).toNat)
    (s.mem.read (Manual.fbAddr c.nextBase i ch).toNat)
  have hlt := (blend c.coeff (s.mem.read (Manual.fbAddr c.prevBase i ch).toNat)
    (s.mem.read (Manual.fbAddr c.nextBase i ch).toNat)).isLt
  rw [h] at hlt
  exact hlt

theorem entryAddr_apart {c : Setup} {base : Word} {len ch k : Nat} (ha : c.RegionsApart base len) (hch : ch < 3)
    (hk : k < c.gmode.entries) :
    inRange base len (Manual.entryAddr c ch k) = false ∧ inRange base len (Manual.entryAddr c ch k + 1) = false := by
  have hlt : c.gmode.entries * ch + k < c.gmode.entries * 3 := by
    have := Nat.mul_le_mul_left c.gmode.entries (show ch + 1 ≤ 3 from hch)
    rw [Nat.mul_add] at this; omega
  have he : gammaAddr c ch k = Manual.entryAddr c ch k := by
    unfold gammaAddr Manual.entryAddr addrAt
    cases c.gmode <;> rfl
  rw [← he]
  refine ⟨ha.2 _ (show _ < 2 * _ by omega), ?_⟩
  rw [show gammaAddr c ch k + 1 = addrAt (gammaAddr c ch k) 1 from rfl, gammaAddr, addrAt_addrAt]
  exact ha.2 _ (show _ < 2 * _ by omega)

/-- Regions apart: no byte that the encoding of a pixel reads is in the range. -/
theorem encodeReads_apart (s : State) {c : Setup} (hc : c.coeff.toNat ≤ 0x10000) {base : Word} {len : Nat}
    (ha : c.RegionsApart base len) {p : Nat} (hp : p < c.N * c.L) :
    ∀ a ∈ Manual.encodeReads s c p, inRange base len a = false := by
  intro a hm
  obtain ⟨ch, hch, hm⟩ := List.mem_flatMap.1 hm
  have hch : ch < 3 := by simp at hch; omega
  have hk : 3 * p + ch < 3 * c.N * c.L := by rw [Nat.mul_assoc]; omega
  have hl := lin_lt s hc p ch
  simp only [List.mem_cons] at hm
  rcases hm with rfl | rfl | hm
  · exact (ha.1 _ hk).1
  · exact (ha.1 _ hk).2
  · have key := fun k => entryAddr_apart (k := k) ha hch
    simp only [Manual.gammaReads] at hm
    cases hg : c.gmode with
    | direct =>
      rw [hg] at hm key
      have h := key _ hl
      simp only [List.mem_cons, List.not_mem_nil, or_false] at hm
      rcases hm with rfl | rfl
      exacts [h.1, h.2]
    | interp257 =>
      rw [hg] at hm key
      have h := key (Manual.lin s c p ch / 256) (show _ < 257 by omega)
      have h' := key (Manual.lin s c p ch / 256 + 1) (show _ < 257 by omega)
      simp only [List.mem_cons, List.not_mem_nil, or_false] at hm
      rcases hm with rfl | rfl | rfl | rfl
      exacts [h.1, h.2, h'.1, h'.2]

theorem quiet_without_errors (s : State) (hr : s.raced = []) (hb : s.config.busErrors = []) : s.Quiet :=
  ⟨hr, fun a => by simp [Config.busError, hb]⟩

/-- The duties of R122 and a port without errors make a command undisturbed. -/
theorem undisturbed_of_duties {i : Instr} {c : Setup} {s : State} (hl : c.legalFor s.config i) (hq : s.Quiet)
    (ha : c.RegionsApart (writeRange { cmd := i, snapshot := c }).1 (writeRange { cmd := i, snapshot := c }).2) :
    Manual.undisturbed i c s := by
  refine ⟨fun p hp a hm => ⟨by simp [State.racedAddrs, hq.1], fun hw => ?_, hq.2 a⟩, fun a _ => hq.2 a⟩
  have hw : inRange (writeRange { cmd := i, snapshot := c }).1 (writeRange { cmd := i, snapshot := c }).2 a = true := by
    cases i with
    | nop | encode | transpose => exact hw.elim
    | sweep | sweepLed => exact decide_eq_true hw
  have key : c.coeff.toNat ≤ 0x10000 ∧ p < c.N * c.L := by
    cases i with
    | nop | transpose => exact hp.elim
    | encode k => exact ⟨hl.2.2.1, show p < _ from hp ▸ hl.2.2.2.2⟩
    | sweep => exact ⟨hl.2.2.1, hp⟩
    | sweepLed l => obtain ⟨st, h1, rfl⟩ := hp; exact ⟨hl.2.2.1, pixel_lt (c := c) h1 hl.2.2.2.2.2⟩
  rw [encodeReads_apart s key.1 ha key.2 a hm] at hw
  cases hw

/-- The entries of EN3, with its pixel in the next framebuffer. -/
def memFlying : Memory :=
  table257 (place [] 0x2000 [0x80, 0x40, 0x12])
    [(0, 0x80, 0x2D41), (0, 0x81, 0x2E25), (1, 0x40, 0x0800), (1, 0x41, 0x0851), (2, 0x12, 0x0056), (2, 0x13, 0x0062)]

/-- A state with memory, residuals and both enables in use, and a command in flight with the small configuration. -/
def flying (i : Instr) : State :=
  { busy i small with
    ieDone := true, ieErr := true, result := 0x123456, xin := wordsTX5, mem := memFlying, residuals := place [] 0 [1, 2, 3] }

theorem flying_inv (i : Instr) (hw : i.WellFormed) (hl : small.legalFor Config.initial i) : (flying i).Inv :=
  ⟨show memFlying.wf = true by decide +kernel, show memFlying.below (2 ^ 32) = true by decide +kernel,
    show Memory.wf (place [] 0 [1, 2, 3]) = true by decide, show Memory.below (8 * 64 * 3) (place [] 0 [1, 2, 3]) = true by decide,
    ⟨fun _ => rfl, fun _ => rfl⟩, fun h => Bool.noConfusion (show false = true from h), ⟨hw, rfl, hl, rfl⟩, show (64 : BitVec 16) ≠ 0 by decide⟩

theorem witness_DecodeOfEncodeIsIdentity : (Instr.encode 0xFFFFFF).WellFormed ∧ (Instr.nop 0).WellFormed := by decide

theorem witness_EncodeOfDecodeIsIdentity : decode 0x00012303 = .ok (.encode 0x123) := by decide

theorem witness_StepRunsTheIssuedCommand :
    decode 0x00000702 = .ok (.sweepLed 7) ∧ decodeTableWord 32 0x00000702 = some (.sweepLed 7) ∧
      ({ State.reset with schedule := [.write 0x10 0x00000702, .wait] } : State).schedule =
        .write 0x10 0x00000702 :: [.wait] := by decide

theorem witness_StepRunsTheCommandInFlight :
    (Manual.engineNext (flying (.encode 7)) ∧ (flying (.encode 7)).inflight = some { cmd := .encode 7, snapshot := small }) ∧
      Manual.engineNext { flying (.encode 7) with schedule := [.engine, .wait] } ∧
      (Manual.engineNext State.reset ∧ State.reset.inflight = none) := by
  refine ⟨⟨.inl rfl, rfl⟩, .inr rfl, .inl rfl, rfl⟩

/-- AC1 to AC17: every branch of R105, at its boundary. -/
theorem witness_CommandWriteIsCheckedInOrder :
    Manual.firstError (busy (.nop 0) base) 0x00000015 = some .busy ∧
      Manual.firstError (idle base) 0x00000015 = some .illegalCmd ∧
      Manual.firstError (idle base) 0x00000010 = some .illegalCmd ∧
      Manual.firstError (idle { base with strips := 0, leds := 0 }) 0x00000001 = some .cfgStrips ∧
      Manual.firstError (idle { base with strips := 9 }) 0x00000004 = some .cfgStrips ∧
      Manual.firstError (idle { base with leds := 0 }) 0x00000004 = none ∧
      Manual.firstError (idle { base with leds := 65 }) 0x00000001 = some .cfgLeds ∧
      Manual.firstError (idle { base with coeff := 0x10001 }) 0x00000003 = some .cfgCoeff ∧
      Manual.firstError (idle { base with coeff := 0x10000 }) 0x00000003 = none ∧
      Manual.firstError (idle { base with outBase := 0x3002 }) 0x00000001 = some .align ∧
      Manual.firstError (idle { base with outBase := 0x3002 }) 0x00000003 = none ∧
      Manual.firstError (idle { base with gammaBase := 0x10001 }) 0x00000003 = some .align ∧
      Manual.firstError (idle base) 0x00000302 = none ∧ Manual.firstError (idle base) 0x00000402 = some .argRange ∧
      Manual.firstError (idle base) 0x00000703 = none ∧ Manual.firstError (idle base) 0x00000803 = some .argRange ∧
      Manual.firstError (idle { base with strips := 0 }) 0x00000000 = none := by decide

theorem witness_EveryCommandIsAcceptedWhenLegal :
    (idle small).mover = .host ∧ (idle small).inflight = none ∧
      (idle small).setup.legalFor (idle small).config (.sweep 0) ∧
      (idle small).setup.legalFor (idle small).config (.sweepLed 3) ∧
      (idle small).setup.legalFor (idle small).config (.encode 7) ∧
      (idle small).setup.legalFor (idle small).config (.transpose 0) ∧
      (idle small).setup.legalFor (idle small).config (.nop 0) :=
  ⟨rfl, rfl, small_legal.1, small_legal.2.2.1, small_legal.2.2.2.2.1, small_legal.2.2.2.2.2.1, trivial⟩

theorem witness_RejectionDoesNoWork :
    (∃ t, step { flying (.encode 7) with schedule := [.write 0x10 0x00000001] } = .next t ∧
      (flying (.encode 7)).inflight ≠ none) ∧
      ∃ t, step { idle { small with strips := 9 } with schedule := [.write 0x10 0x00000001] } = .next t ∧
        t.inflight = none :=
  ⟨⟨_, rfl, by decide⟩, _, rfl, rfl⟩

theorem witness_ReservedEncodingsDoNoWork :
    State.reset.inflight = none ∧ (busy (.nop 0) base).inflight ≠ none ∧ 5 ≤ (0x00000005 : Word).toNat % 16 ∧ (0x00000014 : Word).toNat / 16 % 16 ≠ 0 ∧
      ¬(5 ≤ (0x00000004 : Word).toNat % 16 ∨ (0x00000004 : Word).toNat / 16 % 16 ≠ 0) := by decide

theorem witness_IgnoredArgumentMakesNoDifference : (flying (.nop 0)).mover = .engine := rfl

theorem witness_NopCompletes : Manual.completing (.nop 9) small (flying (.nop 9)) := ⟨rfl, rfl⟩

theorem witness_TransposeCompletes :
    Manual.completing (.transpose 0) small (flying (.transpose 0)) ∧
      Manual.completing (.transpose 0) { base with strips := 8 } (busy (.transpose 0) { base with strips := 8 }) :=
  ⟨⟨rfl, rfl⟩, rfl, rfl⟩

theorem quiet_reads (s : State) (hr : s.raced = []) (hb : s.config.busErrors = []) (c : Setup) (i : Nat) :
    ∀ a ∈ Manual.encodeReads s c i, a.toNat ∉ s.racedAddrs ∧ Config.busError s.config a = false :=
  fun a _ => ⟨by simp [State.racedAddrs, hr], (quiet_without_errors s hr hb).2 a⟩

theorem witness_EncodeCompletes :
    Manual.completing (.encode 7) small (flying (.encode 7)) ∧ small.coeff.toNat ≤ 0x10000 ∧
      (flying (.encode 7)).residuals.wf = true ∧
      ∀ a ∈ Manual.encodeReads (flying (.encode 7)) small 7,
        a.toNat ∉ (flying (.encode 7)).racedAddrs ∧ Config.busError (flying (.encode 7)).config a = false :=
  ⟨⟨rfl, rfl⟩, by decide, by decide, quiet_reads _ rfl rfl _ _⟩

/-- `flying`, while another agent has written a byte elsewhere, on a platform with an unbacked range elsewhere. -/
def noisy (i : Instr) : State :=
  { flying i with raced := [(0x9000, 0)], config := { maxLeds := 64, busErrors := [(0xF0000000, 0xFFFFFFFF)] } }

theorem noisy_reads (i : Instr) (hi : i = .sweep 0 ∨ i = .sweepLed 3) : ∀ p, p < 8 → ∀ a ∈ Manual.encodeReads (noisy i) small p,
    a.toNat ∉ (noisy i).racedAddrs ∧ ¬(a - 0x3000).toNat < 96 ∧ Config.busError (noisy i).config a = false := by
  have h : ((List.range 8).all fun p => (Manual.encodeReads (noisy i) small p).all fun a =>
      !([0x9000].contains a.toNat) && !(decide ((a - 0x3000).toNat < 96)) &&
        !(Config.busError (noisy i).config a)) = true := by
    rcases hi with rfl | rfl <;> decide +kernel
  intro p hp a ha
  have h := List.all_eq_true.1 (List.all_eq_true.1 h p (List.mem_range.2 hp)) a ha
  simp only [Bool.and_eq_true, Bool.not_eq_true', decide_eq_false_iff_not] at h
  exact ⟨by simpa [State.racedAddrs, noisy] using h.1.1, h.1.2, h.2⟩

theorem noisy_writes (i : Instr) (a : Word) (ha : (a - 0x3000).toNat < 96) :
    Config.busError (noisy i).config a = false := by
  have h : ¬0xF0000000 ≤ a.toNat := by bv_omega
  exact (Bool.or_false _).trans (Bool.and_eq_false_iff.2 (.inl (decide_eq_false h)))

theorem noisy_undisturbed :
    Manual.undisturbed (.sweep 0) small (noisy (.sweep 0)) ∧
      Manual.undisturbed (.sweepLed 3) small (noisy (.sweepLed 3)) := by
  have led : ∀ a : Word, Manual.writes (.sweepLed 3) small a → (a - 0x3000).toNat < 96 := by
    intro a h
    have h : (a - (0x3000#32 + BitVec.ofNat 32 (24 * 3))).toNat < 24 := h
    bv_omega
  refine ⟨⟨noisy_reads _ (.inl rfl), noisy_writes _⟩, fun p hp a ha => ?_, fun a h => noisy_writes _ a (led a h)⟩
  obtain ⟨st, hs, rfl⟩ := hp
  have hs : st < 2 := hs
  obtain ⟨h1, h2, h3⟩ := noisy_reads (.sweepLed 3) (.inr rfl) (st * small.leds.toNat + 3) (show st * 4 + 3 < 8 by omega) a ha
  exact ⟨h1, fun h => h2 (led a h), h3⟩

theorem witness_SweepLedCompletes :
    Manual.completing (.sweepLed 3) small (noisy (.sweepLed 3)) ∧
      small.legalFor (noisy (.sweepLed 3)).config (.sweepLed 3) ∧ (noisy (.sweepLed 3)).mem.wf = true ∧
      (noisy (.sweepLed 3)).residuals.wf = true ∧ Manual.undisturbed (.sweepLed 3) small (noisy (.sweepLed 3)) :=
  ⟨⟨rfl, rfl⟩, small_legal.2.2.1, by decide +kernel, by decide, noisy_undisturbed.2⟩

theorem witness_SweepCompletes :
    Manual.completing (.sweep 0) small (noisy (.sweep 0)) ∧ small.legalFor (noisy (.sweep 0)).config (.sweep 0) ∧
      (noisy (.sweep 0)).mem.wf = true ∧ (noisy (.sweep 0)).residuals.wf = true ∧
      Manual.undisturbed (.sweep 0) small (noisy (.sweep 0)) :=
  ⟨⟨rfl, rfl⟩, small_legal.1, by decide +kernel, by decide, noisy_undisturbed.1⟩

theorem witness_CompletionFrame :
    ∀ i ∈ [Instr.nop 0, .sweep 0, .sweepLed 0, .sweepLed 3, .encode 0, .encode 7, .transpose 0],
      Manual.completing i small (flying i) ∧ small.legalFor (flying i).config i := by
  intro i hi
  refine ⟨⟨rfl, rfl⟩, ?_⟩
  have h := small_legal
  simp only [List.mem_cons, List.not_mem_nil, or_false] at hi
  rcases hi with rfl | rfl | rfl | rfl | rfl | rfl | rfl
  · trivial
  · exact h.1
  · exact h.2.1
  · exact h.2.2.1
  · exact h.2.2.2.1
  · exact h.2.2.2.2.1
  · exact h.2.2.2.2.2.1

/-- `flying`, on a platform whose port answers one byte with an error. -/
def faulty (i : Instr) (a : Word) : State := { flying i with config := { maxLeds := 64, busErrors := [(a, a)] } }

theorem witness_EncodeBusFaultIsRecorded :
    Manual.completing (.encode 0) small (faulty (.encode 0) 0x1002) ∧ small.coeff.toNat ≤ 0x10000 ∧
      (∀ a ∈ Manual.encodeReads (faulty (.encode 0) 0x1002) small 0, a.toNat ∉ (faulty (.encode 0) 0x1002).racedAddrs) ∧
      ∃ a ∈ Manual.encodeReads (faulty (.encode 0) 0x1002) small 0,
        Config.busError (faulty (.encode 0) 0x1002).config a = true :=
  ⟨⟨rfl, rfl⟩, by decide, fun _ _ => List.not_mem_nil, Manual.fbAddr small.prevBase 0 2,
    List.mem_flatMap.2 ⟨2, by decide, List.mem_cons_self⟩, by decide⟩

/-- The last byte of the write range, and the last framebuffer byte, of a SWEEP and of a SWEEP_LED. -/
theorem witness_SweepBusFaultIsRecorded :
    (Manual.completing (.sweep 0) small (faulty (.sweep 0) 0x305F) ∧
      small.legalFor (faulty (.sweep 0) 0x305F).config (.sweep 0) ∧
      Config.busError (faulty (.sweep 0) 0x305F).config 0x305F = true ∧ Manual.writes (.sweep 0) small 0x305F) ∧
    (Manual.completing (.sweepLed 3) small (faulty (.sweepLed 3) 0x2017) ∧
      small.legalFor (faulty (.sweepLed 3) 0x2017).config (.sweepLed 3) ∧
      Config.busError (faulty (.sweepLed 3) 0x2017).config 0x2017 = true ∧ Manual.encodes (.sweepLed 3) small 7 ∧
      0x2017 = Manual.fbAddr small.nextBase 7 2) ∧
    (Manual.completing (.sweep 0) small (faulty (.sweep 0) 0x10103) ∧
      Config.busError (faulty (.sweep 0) 0x10103).config 0x10103 = true ∧ Manual.encodes (.sweep 0) small 0 ∧
      0x10103 ∈ Manual.encodeReads (faulty (.sweep 0) 0x10103) small 0 ∧
      ∀ a ∈ Manual.encodeReads (faulty (.sweep 0) 0x10103) small 0,
        a.toNat ∉ (faulty (.sweep 0) 0x10103).racedAddrs ∧ ¬Manual.writes (.sweep 0) small a) ∧
    Manual.completing (.sweepLed 3) small (faulty (.sweepLed 3) 0x10404) ∧
    Config.busError (faulty (.sweepLed 3) 0x10404).config 0x10404 = true ∧ Manual.encodes (.sweepLed 3) small 7 ∧
    0x10404 ∈ Manual.encodeReads (faulty (.sweepLed 3) 0x10404) small 7 ∧
    ∀ a ∈ Manual.encodeReads (faulty (.sweepLed 3) 0x10404) small 7,
      a.toNat ∉ (faulty (.sweepLed 3) 0x10404).racedAddrs ∧ ¬Manual.writes (.sweepLed 3) small a :=
  ⟨⟨⟨rfl, rfl⟩, small_legal.1, by decide, show (_ : Nat) < _ by decide⟩, ⟨⟨rfl, rfl⟩, small_legal.2.2.1, by decide,
    ⟨1, by decide, by decide⟩, by decide⟩, ⟨⟨rfl, rfl⟩, by decide, show (_ : Nat) < _ by decide, by decide +kernel,
    fun a ha => ⟨List.not_mem_nil, (noisy_undisturbed.1.1 0 (show (_ : Nat) < _ by decide) a ha).2.1⟩⟩, ⟨rfl, rfl⟩,
    by decide, ⟨1, by decide, by decide⟩, by decide +kernel,
    fun a ha => ⟨List.not_mem_nil, (noisy_undisturbed.2.1 7 ⟨1, by decide, by decide⟩ a ha).2.1⟩⟩

theorem witness_CompletionUsesTheSnapshot :
    Manual.completing (.sweep 0) small (flying (.sweep 0)) ∧ ∃ t, exec (.sweep 0) (flying (.sweep 0)) = .next t :=
  ⟨⟨rfl, rfl⟩, _, rfl⟩

/-- `flying` with a byte and registers changed that ENCODE 0 does not read. -/
def flyingElsewhere : State :=
  { flying (.encode 0) with mem := memFlying.write 0x9000 7, xout := #v[1, 2, 3, 4, 5, 6] }

theorem same_reads : ∀ a ∈ Manual.encodeReads (flying (.encode 0)) small 0,
    flyingElsewhere.mem.read a.toNat = (flying (.encode 0)).mem.read a.toNat := by
  have h : (Manual.encodeReads (flying (.encode 0)) small 0).all
      (fun a => flyingElsewhere.mem.read a.toNat == (flying (.encode 0)).mem.read a.toNat) = true := by decide +kernel
  exact fun a ha => eq_of_beq (List.all_eq_true.1 h a ha)

theorem witness_EncodeDependsOnItsReadSetOnly :
    Manual.completing (.encode 0) small (flying (.encode 0)) ∧ Manual.completing (.encode 0) small flyingElsewhere ∧
      small.coeff.toNat ≤ 0x10000 ∧
      (flying (.encode 0)).residuals.wf = true ∧ flyingElsewhere.residuals.wf = true ∧
      (∀ a ∈ Manual.encodeReads (flying (.encode 0)) small 0,
        a.toNat ∉ (flying (.encode 0)).racedAddrs ∧ a.toNat ∉ flyingElsewhere.racedAddrs ∧
          flyingElsewhere.mem.read a.toNat = (flying (.encode 0)).mem.read a.toNat ∧
          Config.busError (flying (.encode 0)).config a = false ∧ Config.busError flyingElsewhere.config a = false) ∧
      (∀ ch, ch < 3 → flyingElsewhere.residuals.read (3 * 0 + ch) = (flying (.encode 0)).residuals.read (3 * 0 + ch)) ∧
      (∃ t, exec (.encode 0) (flying (.encode 0)) = .next t) ∧ ∃ t, exec (.encode 0) flyingElsewhere = .next t :=
  ⟨⟨rfl, rfl⟩, ⟨rfl, rfl⟩, by decide, by decide, by decide,
    fun a ha => ⟨List.not_mem_nil, List.not_mem_nil, same_reads a ha, rfl, rfl⟩,
    fun _ _ => rfl, ⟨_, rfl⟩, _, rfl⟩

/-- Two strips of two LEDs, the memory of P2 beside a table of zeros. -/
def beforeSweep : State := { idle { small with leds := 2 } with mem := memP2, residuals := place [] 0 [1, 2, 3] }

theorem witness_SweepEqualsItsSweepLeds :
    beforeSweep.Inv ∧ beforeSweep.inflight = none ∧ beforeSweep.setup.legalFor beforeSweep.config (.sweep 0) ∧
      Manual.undisturbed (.sweep 0) beforeSweep.setup beforeSweep ∧
      (∃ t, core.run 2 { beforeSweep with schedule := Manual.issueAll [.sweep 0] } = .next t) ∧
      ∃ u, core.run (2 * beforeSweep.setup.leds.toNat)
        { beforeSweep with
          schedule := Manual.issueAll ((List.range beforeSweep.setup.leds.toNat).map .sweepLed) } = .next u := by
  refine ⟨⟨by decide +kernel, by decide +kernel, by decide, by decide, by decide, by decide, rfl, by decide⟩, rfl, ?_,
    undisturbed_of_duties ?_ (quiet_without_errors _ rfl rfl) ⟨by decide, fun k hk => ?_⟩,
    next_of_isSome (by decide +kernel), next_of_isSome (by decide +kernel)⟩
  · simp only [Setup.legalFor]; decide
  · simp only [Setup.legalFor]; decide
  · have hk : k < 1542 := hk
    refine decide_eq_false (show ¬(0x10000#32 + BitVec.ofNat 32 k - 0x3000#32).toNat < 48 from ?_)
    bv_omega

theorem witness_WeightsSumToUnit : (0x10000 : BitVec 17).toNat ≤ 0x10000 ∧ (0 : BitVec 17).toNat ≤ 0x10000 := by decide

theorem witness_BlendIsTheExactFloor : (0x08000 : BitVec 17).toNat ≤ 0x10000 := by decide

theorem witness_BlendCorners :
    ((0 : BitVec 17).toNat ≤ 0x10000 ∧ (0 : BitVec 17).toNat = 0) ∧ (0x10000 : BitVec 17).toNat = 0x10000 ∧
      widen 0x80 = widen 0x80 := by decide

/-- QT5 and QT6: the largest sum without saturation and the smallest with it. -/
theorem witness_QuantisationSplitsTheSaturatedSum :
    (0xFF00 : BitVec 16).toNat + (0xFF : Byte).toNat ≤ 0xFFFF ∧ 0xFFFF < (0xFF01 : BitVec 16).toNat + (0xFF : Byte).toNat := by
  decide

theorem witness_PackingFollowsTheChordTable :
    ChannelOrder.bits .q2q1q0 = 0 ∧ ChannelOrder.bits .q1q0q2 = 1 ∧ ChannelOrder.bits .q0q1q2 = 2 ∧
      ChannelOrder.bits .q0q2q1 = 3 ∧ ChannelOrder.bits .q1q2q0 = 4 ∧ ChannelOrder.bits .q2q0q1 = 5 := by decide

theorem witness_DitheringConvergesToTheTarget :
    (0xFF00 : BitVec 16).toNat ≤ 0xFF00 ∧ 0xFF00 < (0xFF01 : BitVec 16).toNat := by decide

theorem witness_PortAccessesAreLittleEndian :
    (flying (.encode 0)).startWork.mem.wf = true ∧
      ((flying (.encode 0)).portView 0x3000 24).unstable 0xFFFFFFFF = false ∧
      ((flying (.encode 0)).portView 0x3000 24).unstable (0xFFFFFFFF + 1) = false := by decide +kernel

theorem witness_ReadsAreStableOrFree :
    let p := { flying (.sweepLed 0) with raced := [(0x1000, 7)] }.portView 0x3000 24
    ((0x3018 : Word).toNat ∉ p.raced ∧ inRange p.rangeBase p.rangeLen 0x3018 = false) ∧ (0x1000 : Word).toNat ∈ p.raced ∧
      inRange p.rangeBase p.rangeLen 0x3017 = true := by decide

/-- A write over the byte 0x2000, which held 0x80 before the command; and an idle one over the top of memory. -/
theorem witness_UnracedBytesKeepTheirValue :
    (∃ t, step { flying (.encode 0) with schedule := [.memWrite .word 0x1FFE 0x01020304] } = .next t ∧
      t.inflight = some { cmd := .encode 0, snapshot := small } ∧ 0x1FFE ∈ t.racedAddrs ∧ 0x2002 ∉ t.racedAddrs ∧
      t.mem.read 0x2000 = 0x02 ∧ t.beforeCommand 0x2000 = 0x80) ∧
    (idle small).mem.wf = true ∧ (idle small).inflight = none ∧
    ∃ t, step { idle small with schedule := [.memWrite .word 0xFFFFFFFF 0x01020304] } = .next t ∧
      t.mem.read 0xFFFFFFFF = 0x04 ∧ t.mem.read 2 = 0x01 ∧ t.raced = [] :=
  ⟨⟨_, rfl, rfl, by decide, by decide, by decide +kernel, by decide +kernel⟩, rfl, rfl, _, rfl, by decide, by decide, rfl⟩

/-- A byte, a half that leaves the range, a misaligned word over two draw-buffer words, an aligned word. -/
theorem witness_EarlyReadsAreOldOrNew :
    (∃ t, step { flying (.sweepLed 0) with schedule := [.memRead .byte 0x3017] } = .next t) ∧
      (∃ t, step { flying (.sweepLed 0) with schedule := [.memRead .half 0x3017] } = .next t) ∧
      (∃ t, step { flying (.sweepLed 0) with schedule := [.memRead .word 0x3001] } = .next t) ∧
      (∃ t, step { flying (.sweepLed 0) with schedule := [.memRead .word 0x3014] } = .next t) ∧
      (∀ b, b < 4 → Manual.inFlightWrites (flying (.sweepLed 0)) (0x3014 + BitVec.ofNat 32 b)) ∧
      (0x3014 : Word).toNat % 4 = 0 ∧ ¬Manual.inFlightWrites (flying (.sweepLed 0)) 0x3018 :=
  ⟨⟨_, rfl⟩, ⟨_, rfl⟩, ⟨_, rfl⟩, ⟨_, rfl⟩,
    fun b hb => ⟨_, rfl, show (0x3014#32 + BitVec.ofNat 32 b - (0x3000#32 + BitVec.ofNat 32 0)).toNat < 24 by bv_omega⟩,
    by decide, fun ⟨f, hf, h⟩ => by
      cases hf
      exact absurd h (show ¬(0x3018#32 - (0x3000#32 + BitVec.ofNat 32 0)).toNat < 24 by decide)⟩

/-- The completion; and, in flight, another agent's write of a framebuffer byte that the command reads. -/
theorem witness_MemoryToComeIsWhatCompletionLeaves :
    (Manual.engineNext (flying (.sweep 0)) ∧ ∃ t, step (flying (.sweep 0)) = .next t) ∧
      (flying (.sweep 0)).Inv ∧ Manual.writes (.sweep 0) small 0x305F ∧
      ∃ t, step { flying (.sweep 0) with schedule := [.memWrite .byte 0x2000 7] } = .next t ∧
        t.inflight = (flying (.sweep 0)).inflight ∧ t.inflight ≠ none ∧ t.raced ≠ [] :=
  ⟨⟨.inl rfl, _, rfl⟩, flying_inv _ (by decide) small_legal.1, show (_ : Nat) < _ by decide, _, rfl, rfl, by decide,
    by decide⟩

theorem witness_RegisterReadsHaveNoSideEffect :
    (0x74 : BitVec 8).toNat % 4 = 0 ∧ (0x0D : BitVec 8).toNat % 4 ≠ 0 ∧
      (0x74 : BitVec 8).toNat ∈ [0x00, 0x04, 0x30, 0x60, 0x64, 0x68, 0x6C, 0x70, 0x74] ∧
      ∀ off ∈ [(0x34 : BitVec 8), 0x3C, 0x78, 0xFC],
        (0x34 ≤ off.toNat ∧ off.toNat ≤ 0x3C ∨ 0x78 ≤ off.toNat) ∧ off.toNat % 4 = 0 := by decide

theorem witness_BusyProtectsTheConfiguration :
    (flying (.encode 0)).inflight ≠ none ∧ (0x14 : BitVec 8).toNat ∈ [0x14, 0x18, 0x1C, 0x20, 0x24, 0x28, 0x2C, 0x40, 0x44,
      0x48, 0x4C, 0x50, 0x54, 0x58, 0x5C] := by decide

/-- CR1 and CR2: CHORD 7 is not taken, CHORD 5 is. -/
theorem witness_CtrlWriteKeepsChordLegal :
    (idle small).inflight = none ∧ 5 < (0x74 : Word).toNat / 16 % 8 ∧ (0x57 : Word).toNat / 16 % 8 ≤ 5 ∧
      (∃ t, step { idle small with schedule := [.write 0x08 0x74] } = .next t) ∧
      ∃ t, step { idle small with schedule := [.write 0x08 0x57] } = .next t :=
  ⟨rfl, by decide, by decide, ⟨_, rfl⟩, _, rfl⟩

theorem witness_StatusWriteClears :
    ({ flying (.encode 0) with schedule := [.write 0x0C 0x6] } : State).schedule = .write 0x0C 0x6 :: [] := rfl

theorem witness_IdleWritesReadBack :
    (idle small).inflight = none ∧
      ({ idle small with schedule := [.write 0x5C 0xFF123456, .read 0x5C] } : State).schedule =
        .write 0x5C 0xFF123456 :: .read 0x5C :: [] ∧
      (0x5C : BitVec 8).toNat ∈ [0x40, 0x44, 0x48, 0x4C, 0x50, 0x54, 0x58, 0x5C] := by decide

theorem witness_PseudoInstructionsExpand :
    1 < 2 ∧ 7 < 8 ∧ (ScriptLine.setctrl 1 7 1 1).moves = [.write 0x08 0x77] := by decide

/-- ERR set, cleared by the host's write and by reset. -/
theorem witness_ErrorsAreClearedByTheHostOnly :
    let s := { flying (.encode 0) with status := { done := false, err := true, errOvf := true, errCode := .busy } }
    (∃ t, step { s with schedule := [.write 0x0C 0x4] } = .next t ∧ s.status.err = true ∧ t.status.err = false) ∧
      ∃ t, step { s with schedule := [.reset] } = .next t ∧ s.status.errOvf = true ∧ t.status.errOvf = false :=
  ⟨⟨_, rfl, rfl, rfl⟩, _, rfl, rfl, rfl⟩

theorem witness_DataRegistersChangeOnlyBy :
    (∃ t, step (flying (.encode 7)) = .next t ∧ t.result ≠ (flying (.encode 7)).result) ∧
      (∃ t, step (flying (.transpose 0)) = .next t ∧ t.xout ≠ (flying (.transpose 0)).xout) ∧
      ∃ t, step { idle small with schedule := [.write 0x5C 1] } = .next t ∧ t.xin ≠ (idle small).xin :=
  ⟨⟨_, rfl, by decide +kernel⟩, ⟨_, rfl, by decide +kernel⟩, _, rfl, by decide +kernel⟩

theorem witness_ResidualsChangeOnlyByEncoding :
    (flying (.encode 0)).Inv ∧ ∃ t, step (flying (.encode 0)) = .next t ∧
      (flying (.encode 0)).schedule.head? ≠ some .reset ∧
      t.residuals.read (3 * 0 + 2) ≠ (flying (.encode 0)).residuals.read (3 * 0 + 2) :=
  ⟨flying_inv _ (by decide) small_legal.2.2.2.1, _, rfl, by decide, by decide +kernel⟩

theorem witness_ConfigurationIsConstantInFlight :
    ∃ t, step { flying (.encode 0) with schedule := [.write 0x14 0x100] } = .next t ∧
      (flying (.encode 0)).inflight ≠ none ∧
      ({ flying (.encode 0) with schedule := [.write 0x14 0x100] } : State).schedule.head? ≠ some .reset :=
  ⟨_, rfl, by decide, by decide⟩

theorem witness_BuildAndMarkPersist :
    ∃ t, step { flying (.encode 0) with busFault := true, schedule := [.reset] } = .next t := ⟨_, rfl⟩

theorem witness_EveryStepKeepsTheInvariant :
    (flying (.sweepLed 3)).Inv ∧ (∃ t, step (flying (.sweepLed 3)) = .next t) ∧
      ∃ t, step { flying (.sweepLed 3) with schedule := [.reset] } = .next t :=
  ⟨flying_inv _ (by decide) small_legal.2.2.1, ⟨_, rfl⟩, _, rfl⟩

theorem witness_AcceptedCommandsComplete :
    let s := { flying (.sweep 0) with schedule := [.write 0x10 0, .memWrite .byte 0x1000 5, .read 0x74, .wait, .engine] }
    s.inflight ≠ none ∧ ∀ m ∈ s.schedule, m ≠ .reset ∧ ∀ (off : BitVec 8) (v : Word),
      (m = .read off ∨ m = .write off v) → off.toNat % 4 = 0 := by
  refine ⟨by decide, fun m hm => ?_⟩
  simp only [List.mem_cons, List.not_mem_nil, or_false] at hm
  rcases hm with rfl | rfl | rfl | rfl | rfl <;> refine ⟨by simp, fun off v h => ?_⟩ <;> rcases h with h | h <;>
    cases h <;> rfl

theorem witness_ResetSetsEveryRegister :
    ({ flying (.sweep 0) with schedule := [.reset, .wait] } : State).schedule = .reset :: [.wait] ∧
      ({ idle small with schedule := [.reset] } : State).inflight = none := ⟨rfl, rfl⟩

/-- The last byte of the write range and the one after it. -/
theorem witness_ResetLeavesMemoryOldOrNew :
    ({ flying (.sweep 0) with schedule := [.reset] } : State).Inv ∧
      (flying (.sweep 0)).inflight = some { cmd := .sweep 0, snapshot := small } ∧
      Manual.writes (.sweep 0) small 0x305F ∧ ¬Manual.writes (.sweep 0) small 0x3060 ∧
      ({ State.reset with schedule := [.reset] } : State).inflight = none :=
  have h := flying_inv (.sweep 0) (by decide) small_legal.1
  ⟨⟨h.1, h.2, h.3, h.4, h.5, h.6, h.7, h.8⟩, rfl, show (_ : Nat) < _ by decide, show ¬(_ : Nat) < _ by decide, rfl⟩

theorem witness_AfterResetOnlyNopIsAccepted :
    (Instr.nop 0).WellFormed ∧ (Instr.nop 0).opcode = 0 ∧ (Instr.encode 0xFFFFFF).WellFormed ∧
      (Instr.encode 0xFFFFFF).opcode ≠ 0 ∧
      ({ flying (.encode 0) with schedule := [.reset, .write 0x10 (encode (.nop 0))] } : State).schedule =
        .reset :: .write 0x10 (encode (.nop 0)) :: [] := by decide

end Sys2Proof.Tests
end

section
/-! PROOFS. What a register write and the issue of a command leave unchanged, and the statement of spec/00_scope.md:
no step changes the build or clears the bus-fault mark. -/

namespace Sys2Proof.Machine

/-! ### The fields that the host's writes can change -/

/-- The issue of a command writes only the engine, STATUS and the raced bytes (R105, R106). -/
theorem issue_eq (i : Instr) (failing : Option ErrCode) (s : State) :
    ∃ inflight status raced,
      issue i failing s = { s with inflight := inflight, status := status, raced := raced } := by
  rcases issue_cases i failing s with ⟨-, h⟩ | ⟨-, e, -, h⟩ | ⟨-, -, h⟩ <;> rw [h]
  · exact ⟨_, _, _, rfl⟩
  · exact ⟨_, _, _, rfl⟩
  · exact ⟨_, _, _, rfl⟩

/-- A write that has no effect while BUSY leaves the old state or the written one (R20). -/
theorem unlessBusy_cases (s written : State) : unlessBusy s written = s ∨ unlessBusy s written = written := by
  unfold unlessBusy
  split
  · exact .inl rfl
  · exact .inr rfl

/-- A register write other than the issue of a command writes only the enables, STATUS, the configuration and XIN
(R20, R23 to R34). -/
theorem writeReg_eq (r : Reg) (v : Word) (s : State) :
    ∃ ieDone ieErr status setup xin,
      writeReg r v s =
        { s with ieDone := ieDone, ieErr := ieErr, status := status, setup := setup, xin := xin } := by
  cases r with
  | id | cap | cmd | result | xout | ctrl | status => exact ⟨_, _, _, _, _, rfl⟩
  | coeff | leds | strips | prevBase | nextBase | outBase | gammaBase | xin =>
    rw [writeReg]
    rcases unlessBusy_cases s _ with h | h <;> rw [h]
    · exact ⟨_, _, _, _, _, rfl⟩
    · exact ⟨_, _, _, _, _, rfl⟩

/-! ### The build and the bus-fault mark -/

/-- `t` is of the same build as `s`, and carries the bus-fault mark if `s` does (R8, R108). -/
def State.Persists (s t : State) : Prop := t.config = s.config ∧ (s.busFault = true → t.busFault = true)

theorem State.persists_of_eq {s t : State} (hc : t.config = s.config) (hb : t.busFault = s.busFault) :
    s.Persists t := ⟨hc, fun h => hb.trans h⟩

theorem EndFrame.persists {s t : State} (h : EndFrame s t) : s.Persists t := ⟨h.config, h.mark⟩

theorem issue_persists (i : Instr) (failing : Option ErrCode) (s : State) : s.Persists (issue i failing s) := by
  obtain ⟨_, _, _, h⟩ := issue_eq i failing s
  rw [h]
  exact State.persists_of_eq rfl rfl

theorem writeReg_persists (r : Reg) (v : Word) (s : State) : s.Persists (writeReg r v s) := by
  obtain ⟨_, _, _, _, _, h⟩ := writeReg_eq r v s
  rw [h]
  exact State.persists_of_eq rfl rfl

/-- Only a completion can touch the mark, and it can only set it; the reset input keeps both (R116). -/
theorem step_persists {s t : State} (h : step s = .next t) : s.Persists t := by
  rcases step_cases h with ⟨-, -, rfl⟩ | ⟨f, -, -, rfl⟩ | ⟨w, rest, -, ⟨i, -, rfl⟩ | ⟨-, rfl⟩⟩ |
    ⟨r, v, rest, -, -, rfl⟩ | ⟨off, v, rest, -, -, rfl⟩ | ⟨off, rest, -, rfl⟩ | ⟨rest, -, rfl⟩ |
    ⟨width, a, v, rest, -, rfl⟩ | ⟨width, a, rest, -, rfl⟩ | ⟨rest, -, rfl⟩
  · exact State.persists_of_eq rfl rfl
  · exact (completed_frame f.cmd _).1.persists
  · exact issue_persists i _ _
  · exact State.persists_of_eq rfl rfl
  · exact writeReg_persists r v _
  · exact State.persists_of_eq rfl rfl
  · exact State.persists_of_eq rfl rfl
  · exact State.persists_of_eq rfl rfl
  · exact State.persists_of_eq rfl rfl
  · exact State.persists_of_eq rfl rfl
  · exact State.persists_of_eq rfl rfl

/-- Settles O54: by what each of the ways one step can go leaves of the build and the mark. -/
theorem buildAndMarkPersist : Obligations.BuildAndMarkPersist := fun _ _ h => step_persists h

end Sys2Proof.Machine
end

section
/-! PROOFS. The register port: what each register reads, what a write of it does, idle and busy, and the statements of
spec/10_state.md section 2 about the window. -/

namespace Sys2Proof.Machine

/-! ### Where the registers stand -/

/-- How many bits an idle write stores, for the registers that take the written value as it comes (R28 to R31, R33);
0 for the others. -/
def Reg.width : Reg → Nat
  | .coeff => 17
  | .leds => 16
  | .strips => 4
  | .prevBase | .nextBase | .outBase | .gammaBase => 32
  | .xin _ => 24
  | .id | .cap | .ctrl | .status | .cmd | .result | .xout _ => 0

/-- The registers whose writes are ignored (R21, R22, R32, R34). -/
def Reg.readOnly : Reg → Bool
  | .id | .cap | .result | .xout _ => true
  | .ctrl | .status | .cmd | .coeff | .leds | .strips | .prevBase | .nextBase | .outBase | .gammaBase | .xin _ => false

theorem windowValue_of_ofOffset {off : BitVec 8} {r : Reg} (h : Reg.ofOffset off = some r) (s : State) :
    windowValue off s = regValue r s := by
  rw [windowValue, h]

theorem windowValue_reserved {off : BitVec 8} (h : Reg.ofOffset off = none) (s : State) : windowValue off s = 0 := by
  rw [windowValue, h]

theorem Reg.aligned_of_ofOffset {off : BitVec 8} {r : Reg} (h : Reg.ofOffset off = some r) : off.toNat % 4 = 0 :=
  (offsetAligned_iff off).1 (Reg.offset_of_ofOffset h ▸ Reg.offset_aligned r)

theorem Reg.offset_range (r : Reg) : r.offset.toNat ≤ 0x30 ∨ 0x40 ≤ r.offset.toNat ∧ r.offset.toNat ≤ 0x74 := by
  cases r with
  | xin s => revert s; decide
  | xout j => revert j; decide
  | _ => decide

/-- The offsets 0x34 to 0x3C and from 0x78 on are reserved (R19). -/
theorem ofOffset_reserved {off : BitVec 8} (h : 0x34 ≤ off.toNat ∧ off.toNat ≤ 0x3C ∨ 0x78 ≤ off.toNat) :
    Reg.ofOffset off = none := by
  refine Option.eq_none_iff_forall_ne_some.2 fun r hr => ?_
  have := r.offset_range
  rw [Reg.offset_of_ofOffset hr] at this
  omega

/-- A register stands at each of some offsets, with a property that need only be computed at their numbers. -/
theorem exists_reg_of_mem {α : Type} {f : Reg → α} {x : α} {l : List Nat}
    (h : ∀ n ∈ l, (Reg.ofOffset (BitVec.ofNat 8 n)).map f = some x) {off : BitVec 8} (ho : off.toNat ∈ l) :
    ∃ r, Reg.ofOffset off = some r ∧ f r = x :=
  Option.map_eq_some_iff.1 (by simpa using h _ ho)

/-! ### What a register write leaves unchanged -/

@[simp] theorem writeReg_mem (r : Reg) (v : Word) (s : State) : (writeReg r v s).mem = s.mem := by
  obtain ⟨_, _, _, _, _, h⟩ := writeReg_eq r v s
  rw [h]

@[simp] theorem writeReg_residuals (r : Reg) (v : Word) (s : State) : (writeReg r v s).residuals = s.residuals := by
  obtain ⟨_, _, _, _, _, h⟩ := writeReg_eq r v s
  rw [h]

@[simp] theorem writeReg_config (r : Reg) (v : Word) (s : State) : (writeReg r v s).config = s.config := by
  obtain ⟨_, _, _, _, _, h⟩ := writeReg_eq r v s
  rw [h]

@[simp] theorem writeReg_inflight (r : Reg) (v : Word) (s : State) : (writeReg r v s).inflight = s.inflight := by
  obtain ⟨_, _, _, _, _, h⟩ := writeReg_eq r v s
  rw [h]

@[simp] theorem writeReg_raced (r : Reg) (v : Word) (s : State) : (writeReg r v s).raced = s.raced := by
  obtain ⟨_, _, _, _, _, h⟩ := writeReg_eq r v s
  rw [h]

@[simp] theorem writeReg_result (r : Reg) (v : Word) (s : State) : (writeReg r v s).result = s.result := by
  obtain ⟨_, _, _, _, _, h⟩ := writeReg_eq r v s
  rw [h]

@[simp] theorem writeReg_xout (r : Reg) (v : Word) (s : State) : (writeReg r v s).xout = s.xout := by
  obtain ⟨_, _, _, _, _, h⟩ := writeReg_eq r v s
  rw [h]

@[simp] theorem writeReg_schedule (r : Reg) (v : Word) (s : State) : (writeReg r v s).schedule = s.schedule := by
  obtain ⟨_, _, _, _, _, h⟩ := writeReg_eq r v s
  rw [h]

theorem unlessBusy_busy {s : State} (h : s.inflight ≠ none) (written : State) : unlessBusy s written = s :=
  if_pos (State.busy_eq_true.2 h)

theorem unlessBusy_idle {s : State} (h : s.inflight = none) (written : State) : unlessBusy s written = written :=
  if_neg (by rw [State.busy_eq_false.2 h]; exact Bool.false_ne_true)

/-- A write of CTRL while BUSY updates the enables alone (R20). -/
theorem writeCtrl_busy {s : State} (h : s.inflight ≠ none) (v : Word) :
    writeCtrl v s = { s with ieDone := v.getLsbD 0, ieErr := v.getLsbD 1 } := by
  rw [writeCtrl, if_pos (State.busy_eq_true.2 h)]

/-- STATUS changes by a register write as R26 says or not at all. -/
theorem writeReg_status (r : Reg) (v : Word) (s : State) :
    (writeReg r v s).status = s.status ∨ (writeReg r v s).status = s.status.written v := by
  cases r with
  | status => exact .inr rfl
  | id | cap | cmd | result | xout | ctrl => exact .inl rfl
  | coeff | leds | strips | prevBase | nextBase | outBase | gammaBase | xin =>
    rw [writeReg]
    rcases unlessBusy_cases s _ with h | h <;> rw [h]
    · exact .inl rfl
    · exact .inl rfl

/-- While BUSY no register write reaches the configuration or XIN (R20). -/
theorem writeReg_busy {s : State} (h : s.inflight ≠ none) (r : Reg) (v : Word) :
    (writeReg r v s).setup = s.setup ∧ (writeReg r v s).xin = s.xin := by
  cases r with
  | id | cap | cmd | result | xout | status => exact ⟨rfl, rfl⟩
  | ctrl => rw [writeReg, writeCtrl_busy h]; exact ⟨rfl, rfl⟩
  | coeff | leds | strips | prevBase | nextBase | outBase | gammaBase | xin =>
    rw [writeReg, unlessBusy_busy h]
    exact ⟨rfl, rfl⟩

/-! ### A write by the host -/

/-- The step that writes a register other than CMD. -/
theorem step_write_reg {s : State} {off : BitVec 8} {v : Word} {rest : List Move} (hs : s.schedule = .write off v :: rest)
    {r : Reg} (hr : Reg.ofOffset off = some r) (hc : r ≠ .cmd) :
    step s = .next (writeReg r v { s with schedule := rest }) := by
  rw [step_cons hs, takeMove, ← Reg.offset_of_ofOffset hr, portWrite_reg hc]

/-- The step that writes CMD. -/
theorem step_write_cmd {s : State} {w : Word} {rest : List Move} (hs : s.schedule = .write 0x10 w :: rest) :
    step s = issueWord w { s with schedule := rest } := by
  rw [step_cons hs, takeMove, portWrite_cmd]

theorem writeReg_readOnly {r : Reg} (h : r.readOnly = true) (v : Word) (s : State) : writeReg r v s = s := by
  cases r with
  | id | cap | result | xout => rfl
  | _ => cases h

/-- While BUSY a write of a configuration register or XIN has no effect (R20). -/
theorem writeReg_stored_busy {r : Reg} (hw : r.width ≠ 0) {s : State} (h : s.inflight ≠ none) (v : Word) :
    writeReg r v s = s := by
  cases r with
  | coeff | leds | strips | prevBase | nextBase | outBase | gammaBase | xin => exact unlessBusy_busy h _
  | _ => exact absurd rfl hw

/-- An idle write of a configuration register or XIN reaches only those. -/
theorem writeReg_stored_eq {r : Reg} (hw : r.width ≠ 0) {s : State} (h : s.inflight = none) (v : Word) :
    writeReg r v s = { s with setup := (writeReg r v s).setup, xin := (writeReg r v s).xin } := by
  cases r with
  | coeff | leds | strips | prevBase | nextBase | outBase | gammaBase | xin => rw [writeReg, unlessBusy_idle h]
  | _ => exact absurd rfl hw

theorem toNat_setWidth_setWidth (v : Word) {n : Nat} (hn : n ≤ 32) :
    ((v.setWidth n).setWidth 32).toNat = v.toNat % 2 ^ n := by
  rw [BitVec.toNat_setWidth_of_le hn, BitVec.toNat_setWidth]

/-- An idle write of a configuration register or XIN reads back, cut to the register's width (R28 to R31, R33). -/
theorem regValue_writeReg_self {r : Reg} (hw : r.width ≠ 0) {s : State} (h : s.inflight = none) (v : Word) :
    (regValue r (writeReg r v s)).toNat = v.toNat % 2 ^ r.width := by
  cases r with
  | coeff | leds | strips =>
    rw [writeReg, unlessBusy_idle h]
    exact toNat_setWidth_setWidth v (by decide)
  | prevBase | nextBase | outBase | gammaBase =>
    rw [writeReg, unlessBusy_idle h]
    exact (Nat.mod_eq_of_lt v.isLt).symm
  | xin k =>
    rw [writeReg, unlessBusy_idle h]
    simp only [regValue, Fin.getElem_fin, Vector.getElem_set_self]
    exact toNat_setWidth_setWidth v (by decide)
  | _ => exact absurd rfl hw

/-- An idle write of a configuration register or XIN leaves what every other register reads. -/
theorem regValue_writeReg_of_ne {r r' : Reg} (hne : r' ≠ r) (hw : r.width ≠ 0) {s : State} (h : s.inflight = none)
    (v : Word) : regValue r' (writeReg r v s) = regValue r' s := by
  cases r with
  | xin k =>
    rw [writeReg, unlessBusy_idle h]
    cases r' with
    | xin k' =>
      have hk : k.val ≠ k'.val := fun e => hne (congrArg Reg.xin (Fin.ext e.symm))
      simp only [regValue, Fin.getElem_fin, Vector.getElem_set_ne _ _ hk]
    | _ => rfl
  | coeff | leds | strips | prevBase | nextBase | outBase | gammaBase =>
    rw [writeReg, unlessBusy_idle h]
    cases r' <;> simp_all [regValue, State.ctrlWord, State.statusWord, State.busy]
  | _ => exact absurd rfl hw

/-- The moves to come are not in the window. -/
theorem windowValue_schedule (off : BitVec 8) (s : State) (rest : List Move) :
    windowValue off { s with schedule := rest } = windowValue off s := by
  unfold windowValue
  split
  · next r _ => cases r <;> rfl
  · rfl

/-! ### The window as the host reads it -/

/-- Settles O41: reads, reserved offsets and read-only registers by their rules, then the registers one by one. -/
theorem registerReadsHaveNoSideEffect : Obligations.RegisterReadsHaveNoSideEffect := by
  refine ⟨fun s off v rest => ⟨?_, ?_, ?_, ?_⟩, fun s => ⟨rfl, ?_, ?_, ?_, ?_, ?_, ?_, ?_, rfl, rfl, rfl, rfl⟩⟩
  · intro hs ha
    rw [step_cons hs, takeMove, portRead_aligned ha, windowValue_schedule]
  · intro ho
    have hr := ofOffset_reserved ho
    refine ⟨windowValue_reserved hr s, fun hs ha => ?_⟩
    rw [step_cons hs, takeMove, portWrite_reserved ha hr]
  · intro ho hs
    obtain ⟨r, hr, hro⟩ := exists_reg_of_mem (f := Reg.readOnly) (x := true) (by decide) ho
    rw [step_write_reg hs hr (by rintro rfl; cases hro), writeReg_readOnly hro]
  · rintro (hs | hs) ha
    · rw [step_cons hs, takeMove, portRead_misaligned ha]
    · rw [step_cons hs, takeMove, portWrite_misaligned ha]
  · exact BitVec.toNat_setWidth_of_le (by decide)
  · intro j
    exact windowValue_of_ofOffset (Reg.ofOffset_offset (.xout j)) s
  · intro k
    have hread := windowValue_of_ofOffset (Reg.ofOffset_offset (.xin k)) s
    exact (congrArg BitVec.toNat hread).trans (BitVec.toNat_setWidth_of_le (by decide))
  · have hg : s.setup.gmode.bit.toNat = if s.setup.gmode = .interp257 then 1 else 0 := by
      cases s.setup.gmode <;> rfl
    rw [← hg]
    exact s.ctrlWord_toNat.trans (by omega)
  · exact BitVec.toNat_setWidth_of_le (by decide)
  · exact BitVec.toNat_setWidth_of_le (by decide)
  · exact BitVec.toNat_setWidth_of_le (by decide)

/-- Settles O42: CAP as a number, field by field. -/
theorem identityAndCapability : Obligations.IdentityAndCapability := by
  intro s
  have hcap : (windowValue 0x04 s).toNat =
      ((((0#4).toNat * 2 ^ 4 + (8#4).toNat) * 2 ^ 4 + (3#4).toNat) * 2 ^ 4 + (8#4).toNat) * 2 ^ 16
        + s.config.maxLeds.toNat := by
    simp only [← toNat_append_eq]
    rfl
  have hlt := s.config.maxLeds.isLt
  simp only [BitVec.toNat_ofNat] at hcap
  refine ⟨rfl, ?_, ?_, ?_, ?_, ?_⟩ <;> omega

/-- The bits of ERRCODE are those of the number in the table of R104. -/
theorem ErrCode.bits_toNat (e : ErrCode) : e.bits.toNat = Manual.errorNumber e := by
  cases e <;> rfl

/-- STATUS bit by bit, field by field of the concatenation (R25). -/
theorem State.statusWord_getLsbD (s : State) (b : Nat) :
    s.statusWord.getLsbD b =
      if b < 1 then (BitVec.ofBool s.busy).getLsbD b
      else if b - 1 < 1 then (BitVec.ofBool s.status.done).getLsbD (b - 1)
      else if b - 1 - 1 < 1 then (BitVec.ofBool s.status.err).getLsbD (b - 1 - 1)
      else if b - 1 - 1 - 1 < 1 then (BitVec.ofBool s.status.errOvf).getLsbD (b - 1 - 1 - 1)
      else if b - 1 - 1 - 1 - 1 < 4 then (0#4).getLsbD (b - 1 - 1 - 1 - 1)
      else if b - 1 - 1 - 1 - 1 - 4 < 4 then s.status.errCode.bits.getLsbD (b - 1 - 1 - 1 - 1 - 4)
      else (0#20).getLsbD (b - 1 - 1 - 1 - 1 - 4 - 4) := by
  simp only [← getLsbD_append_eq]
  rfl

/-- Settles O43: the four flags one by one; from bit 4 on only ERRCODE is not 0. -/
theorem statusWordFields : Obligations.StatusWordFields := by
  intro s b
  have hcode (k : Nat) : s.status.errCode.bits.getLsbD k = (Manual.errorNumber s.status.errCode).testBit k := by
    rw [← ErrCode.bits_toNat, BitVec.testBit_toNat]
  refine (s.statusWord_getLsbD b).trans ?_
  rcases b with _ | _ | _ | _ | b
  · simp [State.busy]
  · simp
  · simp
  · simp
  · obtain h | h | h : b < 4 ∨ 4 ≤ b ∧ b - 4 < 4 ∨ ¬b < 4 ∧ ¬b - 4 < 4 := by omega
    · simp [h, show ¬8 ≤ b + 1 + 1 + 1 + 1 by omega]
    · simpa [h, show ¬b < 4 by omega, show b + 1 + 1 + 1 + 1 < 12 by omega] using hcode (b - 4)
    · simp [h, show ¬b + 1 + 1 + 1 + 1 < 12 by omega]

/-! ### Writes while BUSY -/

/-- Manual's reading of R107 is the model's. -/
theorem recordedStatus_eq (e : ErrCode) (t : Status) : Manual.recordedStatus e t = t.recorded e := by
  cases h : t.err <;> simp [Manual.recordedStatus, Status.recorded, h]

/-- While BUSY every write of CMD is rejected with BUSY (R20, R105). -/
theorem issueWord_busy {s : State} (h : s.inflight ≠ none) (w : Word) :
    issueWord w s = .next { s with mover := .host, status := s.status.recorded .busy } := by
  have hb : s.busy = true := State.busy_eq_true.2 h
  rcases issueWord_cases w s with ⟨i, -, e⟩ | ⟨-, e⟩ <;> rw [e]
  · simp only [issue, if_pos (show State.busy { s with mover := .host } = true from hb)]
    rfl
  · simp only [rejectIllegal, if_pos (show State.busy { s with mover := .host } = true from hb)]
    rfl

/-- Settles O44: by the register written. -/
theorem busyProtectsTheConfiguration : Obligations.BusyProtectsTheConfiguration := by
  intro s off v rest hb hs
  refine ⟨fun ho => ?_, ?_, ?_, ?_⟩
  · obtain ⟨r, hr, hw⟩ := exists_reg_of_mem (f := fun r => r.width != 0) (x := true) (by decide) ho
    have hw : r.width ≠ 0 := bne_iff_ne.1 hw
    rw [step_write_reg hs hr (by rintro rfl; exact hw rfl), writeReg_stored_busy hw (by exact hb)]
  · rintro rfl
    rw [step_write_reg hs (r := .ctrl) rfl (by decide), writeReg, writeCtrl_busy (by exact hb)]
  · rintro rfl
    rw [step_write_reg hs (r := .status) rfl (by decide), writeReg]
  · rintro rfl
    rw [step_write_cmd hs, issueWord_busy (by exact hb), recordedStatus_eq]

/-! ### Idle writes -/

/-- CHORD takes the values 0 to 5 (R24). -/
theorem ChannelOrder.written_legal {b : BitVec 3} (h : b.toNat ≤ 5) (old : ChannelOrder) :
    (ChannelOrder.written b old).bits = b := by
  revert b
  cases old <;> decide

/-- CHORD does not take 6 and 7 (R24). -/
theorem ChannelOrder.written_illegal {b : BitVec 3} (h : 5 < b.toNat) (old : ChannelOrder) :
    ChannelOrder.written b old = old := by
  revert b
  cases old <;> decide

theorem ChannelOrder.bits_le (c : ChannelOrder) : c.bits.toNat ≤ 5 := by
  cases c <;> decide

/-- The low three bits of a word as a number. -/
theorem toNat_mod_eight (v : Word) :
    v.toNat % 8 = 4 * (v.getLsbD 2).toNat + 2 * (v.getLsbD 1).toNat + (v.getLsbD 0).toNat := by
  simp only [BitVec.getLsbD, Nat.toNat_testBit]
  omega

theorem GammaMode.bit_ofBit (b : Bool) : (GammaMode.ofBit b).bit = b := by
  cases b <;> rfl

theorem writeCtrl_idle {s : State} (h : s.inflight = none) (v : Word) :
    writeCtrl v s =
      { s with
        ieDone := v.getLsbD 0
        ieErr := v.getLsbD 1
        setup :=
          { s.setup with
            gmode := GammaMode.ofBit (v.getLsbD 2)
            chord := ChannelOrder.written (v.extractLsb' 4 3) s.setup.chord } } := by
  rw [writeCtrl, State.busy_eq_false.2 h]; rfl

/-- What CTRL reads after an idle write of it: the enables and GMODE as written, and CHORD as it was taken (R23, R24). -/
theorem ctrlWord_writeCtrl_idle {s : State} (h : s.inflight = none) (v : Word) :
    (writeCtrl v s).ctrlWord.toNat =
      v.toNat % 8 + 16 * (ChannelOrder.written (v.extractLsb' 4 3) s.setup.chord).bits.toNat := by
  rw [State.ctrlWord_toNat, writeCtrl_idle h, toNat_mod_eight, GammaMode.bit_ofBit]
  dsimp only
  omega

/-- Settles O45: CTRL as a number, with CHORD taken or kept. -/
theorem ctrlWriteKeepsChordLegal : Obligations.CtrlWriteKeepsChordLegal := by
  intro s t v rest hi hs ht
  rw [step_write_reg hs (r := .ctrl) rfl (by decide), writeReg] at ht
  have hread : (windowValue 0x08 t).toNat =
      v.toNat % 8 + 16 * (ChannelOrder.written (v.extractLsb' 4 3) s.setup.chord).bits.toNat := by
    cases ht
    exact ctrlWord_writeCtrl_idle hi v
  rw [writeCtrl_idle (by exact hi)] at ht
  cases ht
  have hbits : (v.extractLsb' 4 3).toNat = v.toNat / 16 % 8 := by
    simp [BitVec.extractLsb'_toNat, Nat.shiftRight_eq_div_pow]
  refine ⟨rfl, ?_, fun h => ?_, fun h => ?_, ?_⟩
  · cases v.getLsbD 2 <;> simp [GammaMode.ofBit]
  · rw [hread, ChannelOrder.written_legal (hbits ▸ h), hbits]
  · have hold := ChannelOrder.written_illegal (hbits ▸ h) s.setup.chord
    exact ⟨hold, by rw [hread, hold]⟩
  · have := (ChannelOrder.written (v.extractLsb' 4 3) s.setup.chord).bits_le
    omega

/-- Settles O47: by the register that stands at the offset. -/
theorem idleWritesReadBack : Obligations.IdleWritesReadBack := by
  intro s off v rest hi hs width hw
  obtain ⟨r, hr, hrw⟩ : ∃ r, Reg.ofOffset off = some r ∧ r.width = width := by
    revert hw
    simp only [width]
    split_ifs with h1 h2 h3 h4 h5 <;> intro hw
    · exact ⟨.coeff, by rw [h1]; rfl, rfl⟩
    · exact ⟨.leds, by rw [h2]; rfl, rfl⟩
    · exact ⟨.strips, by rw [h3]; rfl, rfl⟩
    · exact exists_reg_of_mem (by decide) h4
    · exact exists_reg_of_mem (by decide) h5
    · exact absurd rfl hw
  rw [← hrw] at hw ⊢
  have hidle : State.inflight { s with schedule := .read off :: rest } = none := hi
  have hu := step_write_reg hs hr (by rintro rfl; exact hw rfl)
  have ht := (step_cons (writeReg_schedule r v { s with schedule := .read off :: rest })).trans
    (portRead_aligned (Reg.aligned_of_ofOffset hr) _)
  refine ⟨_, _, hu, ht, ?_, writeReg_stored_eq hw hidle v, rfl, fun other hne => ?_⟩
  · rw [windowValue_schedule, windowValue_of_ofOffset hr]
    exact regValue_writeReg_self hw hidle v
  · rw [← windowValue_schedule other s (.read off :: rest)]
    cases ho : Reg.ofOffset other with
    | none => rw [windowValue_reserved ho, windowValue_reserved ho]
    | some r' =>
      have hrr : r' ≠ r := by
        rintro rfl
        exact hne ((Reg.offset_of_ofOffset ho).symm.trans (Reg.offset_of_ofOffset hr))
      rw [windowValue_of_ofOffset ho, windowValue_of_ofOffset ho, regValue_writeReg_of_ne hrr hw hidle]

/-! ### STATUS and the interrupt level -/

/-- Settles O46: bit by bit of what a write of STATUS leaves. -/
theorem statusWriteClears : Obligations.StatusWriteClears := by
  intro s v rest hs
  rw [step_write_reg hs (r := .status) rfl (by decide), writeReg, Status.written]
  cases v.getLsbD 1 <;> cases v.getLsbD 2 <;> simp

/-- Settles O49: the level is the disjunction of the two sources. -/
theorem interruptLevel : Obligations.InterruptLevel := by
  intro s
  simp only [State.irq, Bool.or_eq_true, Bool.and_eq_true]

/-! ### The issue of a word -/

theorem decode_of_decodeTableWord {n w : Nat} {i : Instr} (h : decodeTableWord n w = some i) :
    decode (BitVec.ofNat 32 (w % 2 ^ n)) = .ok i := by
  unfold decodeTableWord at h
  split at h
  · next hd => rw [hd, Option.some.inj h]
  · cases h

theorem issueWord_of_decode {w : Word} {i : Instr} (h : decode w = .ok i) (s : State) :
    issueWord w s = exec i { s with mover := .host } := by
  rw [issueWord, h]

/-- Settles O5: the next move is the write to CMD, whose word decodes. -/
theorem stepRunsTheIssuedCommand : Obligations.StepRunsTheIssuedCommand := by
  refine ⟨fun s w rest i hs hd => ?_, fun s w i hd => ?_⟩
  · rw [step_write_cmd hs, issueWord_of_decode hd]
  · rw [step_write_cmd rfl, issueWord_of_decode (decode_of_decodeTableWord hd)]
    rfl

end Sys2Proof.Machine
end

section
/-! PROOFS. The invariant of the machine: what each kind of step keeps of it, and the statement of spec/10_state.md that
every step keeps it. -/

namespace Sys2Proof

/-! ### What the decoder and the acceptance checks guarantee -/

theorem commandOf_arg {op : BitVec 4} {arg : Nat} {i : Instr} (h : commandOf op arg = .ok i) : i.arg = arg := by
  unfold commandOf at h
  split at h <;> cases h <;> rfl

/-- A decoded command's argument fits the 24-bit field (R62). -/
theorem decode_wellFormed {w : Word} {i : Instr} (h : decode w = .ok i) : i.WellFormed := by
  unfold decode at h
  split at h
  · exact (commandOf_arg h).trans_lt (argField_lt w)
  · cases h

end Sys2Proof

namespace Sys2Proof.Machine

/-- The checks of a command pass exactly when the configuration is legal for it (R105). -/
theorem ownChecks_eq_none {i : Instr} {s : State} : ownChecks i s = none ↔ s.setup.legalFor s.config i := by
  cases i with
  | nop => simp [ownChecks, Setup.legalFor]
  | transpose => simp [ownChecks, transposeChecks, checkStrips_eq, Setup.legalFor]
  | sweep => simp only [ownChecks, sweepChecks_eq, Setup.legalFor]; split_ifs <;> simp_all
  | sweepLed => simp only [ownChecks, sweepLedChecks_eq, Setup.legalFor]; split_ifs <;> simp_all
  | encode => simp only [ownChecks, encodeChecks_eq, Setup.legalFor]; split_ifs <;> simp_all

/-- The error a failing check raises is a code of the table (R104). -/
theorem ownChecks_ne_none {i : Instr} {s : State} {e : ErrCode} (h : ownChecks i s = some e) : e ≠ .none := by
  rintro rfl
  revert h
  cases i with
  | nop => simp [ownChecks]
  | transpose => simp [ownChecks, transposeChecks, checkStrips_eq]
  | sweep => simp only [ownChecks, sweepChecks_eq]; split_ifs <;> simp
  | sweepLed => simp only [ownChecks, sweepLedChecks_eq]; split_ifs <;> simp
  | encode => simp only [ownChecks, encodeChecks_eq]; split_ifs <;> simp

/-! ### The pixels of a command -/

/-- The pixels whose residual entries the completion of a command can write (R81, R95, R97). -/
def commandPixels (i : Instr) (c : Setup) : List Nat :=
  match i with
  | .nop _ | .transpose _ => []
  | .encode k => [k]
  | .sweepLed l => ledPixels c l
  | .sweep _ => sweepPixels c

theorem mem_ledPixels {c : Setup} {l p : Nat} : p ∈ ledPixels c l ↔ ∃ s, s < c.activeStrips ∧ c.pixel s l = p := by
  simp [ledPixels]

theorem mem_sweepPixels {c : Setup} {p : Nat} : p ∈ sweepPixels c ↔ p < c.activeStrips * c.L := List.mem_range

/-- They are among the pixels that the rules say the command encodes. -/
theorem encodes_of_mem_commandPixels {i : Instr} {c : Setup} {p : Nat} (h : p ∈ commandPixels i c) :
    Manual.encodes i c p := by
  have hN : c.activeStrips ≤ c.strips.toNat := Nat.min_le_left ..
  cases i with
  | nop | transpose => cases h
  | encode k => exact List.mem_singleton.1 h
  | sweepLed l =>
    obtain ⟨s, hs, rfl⟩ := mem_ledPixels.1 h
    exact ⟨s, hs.trans_le hN, rfl⟩
  | sweep => exact (mem_sweepPixels.1 h).trans_le (Nat.mul_le_mul_right _ hN)

/-- Under a legal configuration they are pixels of the residual store (R35). -/
theorem commandPixels_lt {i : Instr} {c : Setup} {config : Config} (hl : c.legalFor config i) {p : Nat}
    (h : p ∈ commandPixels i c) : p < 8 * config.maxLeds.toNat := by
  have sized {n : Nat} (hn : n ≤ 8) (hL : c.L ≤ config.maxLeds.toNat) : n * c.L ≤ 8 * config.maxLeds.toNat :=
    Nat.mul_le_mul hn hL
  have h8 : c.activeStrips ≤ 8 := Nat.min_le_right ..
  cases i with
  | nop | transpose => cases h
  | encode k =>
    obtain ⟨⟨-, hN⟩, ⟨-, hL⟩, -, -, hk⟩ := hl
    rw [List.mem_singleton.1 h]
    exact hk.trans_le (sized hN hL)
  | sweepLed l =>
    obtain ⟨-, ⟨-, hL⟩, -, -, -, hlt⟩ := hl
    obtain ⟨s, hs, rfl⟩ := mem_ledPixels.1 h
    exact (pixel_lt hs hlt).trans_le (sized h8 hL)
  | sweep =>
    obtain ⟨-, ⟨-, hL⟩, -⟩ := hl
    exact (mem_sweepPixels.1 h).trans_le (sized h8 hL)

/-- The residual store keeps its size when the command's pixels lie in it (R35). -/
theorem completed_residuals_below {bound : Nat} {s : State} (h : s.residuals.below bound = true) {i : Instr}
    (hp : ∀ p ∈ commandPixels i s.command, 3 * p + 2 < bound) : (completed i s).residuals.below bound = true := by
  cases i with
  | nop | transpose => exact h
  | encode k =>
    obtain ⟨r, d, e⟩ := completeEncode_eq k s
    rw [completed, e]
    exact endWork_residuals_below h hp (encodePixel_residuals_below _ _ h (hp k List.mem_cons_self))
  | sweepLed l =>
    refine endWork_residuals_below h hp ?_
    rw [ledGroup_residuals]
    exact encodeStrips_residuals_below _ _ h fun s hs => hp _ (mem_ledPixels.2 ⟨s, hs, rfl⟩)
  | sweep =>
    refine endWork_residuals_below h hp (sweepGroups_residuals_below _ _ h ?_ le_rfl)
    rcases Nat.eq_zero_or_pos (s.command.activeStrips * s.command.L) with h0 | h0
    · omega
    · have := hp _ (mem_sweepPixels.2 (Nat.sub_lt h0 Nat.one_pos))
      omega

/-- Residual entries of other pixels do not change (R81, R95, R97). -/
theorem completed_residuals_outside {i : Instr} {s : State} {p ch : Nat} (hch : ch < 3)
    (hp : p ∉ commandPixels i s.command) :
    readResidual (completed i s).residuals p ch = readResidual s.residuals p ch := by
  cases i with
  | nop | transpose => rfl
  | encode k =>
    obtain ⟨r, d, e⟩ := completeEncode_eq k s
    rw [completed, e]
    exact endWork_residuals_outside hch hp
      (encodePixel_residuals_outside _ _ _ hch fun h => hp (List.mem_singleton.2 h.symm))
  | sweepLed l =>
    refine endWork_residuals_outside hch hp ?_
    rw [ledGroup_residuals]
    exact encodeStrips_residuals_outside _ _ _ _ hch fun s hs h => hp (mem_ledPixels.2 ⟨s, hs, h⟩)
  | sweep =>
    exact endWork_residuals_outside hch hp
      (sweepGroups_residuals_outside _ _ _ hch le_rfl (Nat.le_of_not_lt fun h => hp (mem_sweepPixels.2 h)))

/-! ### STATUS -/

/-- The STATUS bits agree with one another: ERRCODE is NONE exactly while ERR is 0, ERR_OVF stands only beside ERR
(R25, R104). -/
def Status.Coherent (t : Status) : Prop :=
  (t.errCode = .none ↔ t.err = false) ∧ (t.errOvf = true → t.err = true)

theorem Status.recorded_coherent {e : ErrCode} (he : e ≠ .none) {t : Status} (h : t.Coherent) :
    (t.recorded e).Coherent := by
  cases ht : t.err with
  | false => simp [Status.recorded_of_clear e ht, Status.Coherent, he]
  | true =>
    have hc : t.errCode ≠ .none := fun hn => Bool.noConfusion (ht.symm.trans (h.1.1 hn))
    simp [Status.recorded_of_set e ht, Status.Coherent, ht, hc]

theorem Status.written_coherent (v : Word) {t : Status} (h : t.Coherent) : (t.written v).Coherent := by
  unfold Status.written
  cases v.getLsbD 2 with
  | false => simpa [Status.Coherent] using h
  | true => simp [Status.Coherent]

theorem State.Inv.coherent {s : State} (h : s.Inv) : s.status.Coherent := ⟨h.codeIffErr, h.ovfErr⟩

/-! ### The invariant, by the kind of step -/

theorem State.engineInv_idle {s : State} (h : s.inflight = none) : s.engineInv ↔ s.raced = [] := by
  simp only [State.engineInv, h]

theorem State.engineInv_busy {s : State} {f : InFlight} (h : s.inflight = some f) :
    s.engineInv ↔
      f.cmd.WellFormed ∧ f.snapshot = s.setup ∧ f.snapshot.legalFor s.config f.cmd ∧ s.status.done = false := by
  simp only [State.engineInv, h]

/-- The storage, the build and the residual store are kept by whatever leaves memory, residuals and build as they
are: STATUS and the engine remain to be shown. -/
theorem State.Inv.of_storage {s t : State} (h : s.Inv) (hm : t.mem = s.mem) (hr : t.residuals = s.residuals)
    (hc : t.config = s.config) (hs : t.status.Coherent) (he : t.engineInv) : t.Inv where
  memWf := by rw [hm]; exact h.memWf
  memBelow := by rw [hm]; exact h.memBelow
  residualsWf := by rw [hr]; exact h.residualsWf
  residualsBelow := by rw [hr, hc]; exact h.residualsBelow
  codeIffErr := hs.1
  ovfErr := hs.2
  engine := he
  build := by rw [hc]; exact h.build

theorem completed_inv {s : State} (h : s.Inv) {f : InFlight} (hf : s.inflight = some f) : (completed f.cmd s).Inv := by
  obtain ⟨-, -, hl, -⟩ := (State.engineInv_busy hf).1 h.engine
  obtain ⟨frame, -, -⟩ := completed_frame f.cmd s
  have hst : (completed f.cmd s).status.Coherent := by
    rcases frame.status with e | ⟨e, -⟩ <;> rw [e]
    · exact h.coherent
    · exact Status.recorded_coherent (e := .busErr) (by decide) h.coherent
  exact
    { memWf := completed_wf h.memWf _
      memBelow := completed_below h.memBelow _
      residualsWf := completed_residuals_wf h.residualsWf _
      residualsBelow := by
        rw [frame.config]
        refine completed_residuals_below h.residualsBelow fun p hp => ?_
        rw [State.command_of_inflight hf] at hp
        have := commandPixels_lt hl hp
        omega
      codeIffErr := hst.1
      ovfErr := hst.2
      engine := (State.engineInv_idle frame.inflight).2 frame.raced
      build := by rw [frame.config]; exact h.build }

/-- Recording an error leaves the engine as it is (R107). -/
theorem recordError_inv {s : State} (h : s.Inv) {e : ErrCode} (he : e ≠ .none) : (recordError e s).Inv := by
  refine h.of_storage rfl rfl rfl (Status.recorded_coherent he h.coherent) ?_
  cases hf : s.inflight with
  | none => exact (State.engineInv_idle (by exact hf)).2 ((State.engineInv_idle hf).1 h.engine)
  | some f =>
    refine (State.engineInv_busy (f := f) (by exact hf)).2 ?_
    rw [recordError_status, Status.recorded_done]
    exact (State.engineInv_busy hf).1 h.engine

/-- The issue of a well-formed command, with its own checks (R105). -/
theorem issue_inv {s : State} (h : s.Inv) {i : Instr} (hi : i.WellFormed) : (issue i (ownChecks i s) s).Inv := by
  rcases issue_cases i (ownChecks i s) s with ⟨-, e⟩ | ⟨-, c, hc, e⟩ | ⟨-, hc, e⟩ <;> rw [e]
  · exact recordError_inv h (by decide)
  · exact recordError_inv h (ownChecks_ne_none hc)
  · exact h.of_storage rfl rfl rfl h.coherent
      ((State.engineInv_busy (accept_inflight i s)).2 ⟨hi, rfl, ownChecks_eq_none.1 hc, rfl⟩)

theorem rejectIllegal_inv {s : State} (h : s.Inv) : (rejectIllegal s).Inv :=
  recordError_inv h (by split <;> decide)

theorem writeReg_inv {s : State} (h : s.Inv) (r : Reg) (v : Word) : (writeReg r v s).Inv := by
  have hst : (writeReg r v s).status.Coherent := by
    rcases writeReg_status r v s with e | e <;> rw [e]
    · exact h.coherent
    · exact Status.written_coherent v h.coherent
  refine h.of_storage (writeReg_mem r v s) (writeReg_residuals r v s) (writeReg_config r v s) hst ?_
  have hin := writeReg_inflight r v s
  cases hf : s.inflight with
  | none =>
    rw [hf] at hin
    rw [State.engineInv_idle hin, writeReg_raced]
    exact (State.engineInv_idle hf).1 h.engine
  | some f =>
    rw [hf] at hin
    obtain ⟨hw, hsnap, hl, hd⟩ := (State.engineInv_busy hf).1 h.engine
    obtain ⟨hset, -⟩ := writeReg_busy (s := s) (by rw [hf]; exact Option.some_ne_none f) r v
    rw [State.engineInv_busy hin, hset, writeReg_config]
    refine ⟨hw, hsnap, hl, ?_⟩
    rcases writeReg_status r v s with e | e <;> rw [e]
    · exact hd
    · simp [Status.written, hd]

/-- Another agent's write races bytes only while a command is in flight (R56). -/
theorem agentWrite_inv {s : State} (h : s.Inv) (width : Width) (a v : Word) : (agentWrite width a v s).Inv where
  memWf := agentWrite_wf h.memWf width a v
  memBelow := agentWrite_below h.memBelow width a v
  residualsWf := h.residualsWf
  residualsBelow := h.residualsBelow
  codeIffErr := h.codeIffErr
  ovfErr := h.ovfErr
  engine := by
    cases hf : s.inflight with
    | none =>
      rw [State.engineInv_idle (by exact hf), agentWrite, State.busy_eq_false.2 hf]
      exact (State.engineInv_idle hf).1 h.engine
    | some f => exact (State.engineInv_busy (by exact hf)).2 ((State.engineInv_busy hf).1 h.engine)
  build := h.build

theorem coldReset_inv {s : State} (h : s.Inv) : (coldReset s).Inv where
  memWf := coldReset_wf h.memWf
  memBelow := resetMemory_below h.memBelow
  residualsWf := rfl
  residualsBelow := rfl
  codeIffErr := ⟨fun _ => rfl, fun _ => rfl⟩
  ovfErr := fun h => Bool.noConfusion (show false = true from h)
  engine := rfl
  build := h.build

/-- The invariant does not speak of the moves to come, of whose half is performed, of the choices made, or of what was
last read. -/
theorem State.Inv.of_outside {s : State} (h : s.Inv) (mover : Agent) (schedule : List Move) (choices : Nat)
    (portData memData : Word) :
    State.Inv
      { s with
        mover := mover, schedule := schedule, choices := choices, portData := portData, memData := memData } :=
  h.of_storage rfl rfl rfl h.coherent h.engine

/-- Settles O55: by the kind of step; each keeps the storage in canonical form, STATUS coherent and, in flight, the
snapshot legal. -/
theorem everyStepKeepsTheInvariant : Obligations.EveryStepKeepsTheInvariant := by
  intro s t hs h
  have moved (mover : Agent) (rest : List Move) : State.Inv { s with mover := mover, schedule := rest } :=
    hs.of_outside mover rest s.choices s.portData s.memData
  rcases step_cases h with ⟨-, -, rfl⟩ | ⟨f, hf, -, rfl⟩ | ⟨w, rest, -, ⟨i, hi, rfl⟩ | ⟨-, rfl⟩⟩ |
    ⟨r, v, rest, -, -, rfl⟩ | ⟨off, v, rest, -, -, rfl⟩ | ⟨off, rest, -, rfl⟩ | ⟨rest, -, rfl⟩ |
    ⟨width, a, v, rest, -, rfl⟩ | ⟨width, a, rest, -, rfl⟩ | ⟨rest, -, rfl⟩
  · exact moved s.mover _
  · exact completed_inv (moved .engine _) hf
  · exact issue_inv (moved .host rest) (decode_wellFormed hi)
  · exact rejectIllegal_inv (moved .host rest)
  · exact writeReg_inv (moved s.mover rest) r v
  · exact moved s.mover rest
  · exact hs.of_outside s.mover rest s.choices _ s.memData
  · exact hs.of_outside s.mover _ s.choices _ s.memData
  · exact agentWrite_inv (moved s.mover rest) width a v
  · exact hs.of_outside s.mover rest _ s.portData _
  · exact coldReset_inv (moved s.mover rest)

end Sys2Proof.Machine
end

section
/-! PROOFS. Rules of the whole machine, from the ways one step can go: where it stops, what a completion uses, and which
steps change the data registers, the residual store and the configuration. -/

namespace Sys2Proof.Machine

/-! ### Where a step stops -/

theorem issueWord_next (w : Word) (s : State) : ∃ t, issueWord w s = .next t := by
  rcases issueWord_cases w s with ⟨i, -, e⟩ | ⟨-, e⟩ <;> exact ⟨_, e⟩

theorem engineStep_next (s : State) : ∃ t, engineStep s = .next t := by
  cases h : s.inflight with
  | none => exact ⟨_, engineStep_idle h⟩
  | some f => exact ⟨_, (engineStep_busy h).trans (exec_engine rfl f.cmd)⟩

theorem portWrite_next {off : BitVec 8} (ha : off.toNat % 4 = 0) (v : Word) (s : State) :
    ∃ t, portWrite off v s = .next t := by
  cases hr : Reg.ofOffset off with
  | none => exact ⟨_, portWrite_reserved ha hr v s⟩
  | some r =>
    rw [← Reg.offset_of_ofOffset hr]
    by_cases hc : r = .cmd
    · subst hc; exact issueWord_next v s
    · exact ⟨_, portWrite_reg hc v s⟩

/-- Settles O8: by the next move; only an access of the register port can have no transaction. -/
theorem stepStopsOnlyOnMisalignedAccess : Obligations.StepStopsOnlyOnMisalignedAccess := by
  intro s
  cases hs : s.schedule with
  | nil => exact .inl (step_nil hs ▸ engineStep_next s)
  | cons m rest =>
    rw [step_cons hs]
    cases m with
    | engine => exact .inl (engineStep_next _)
    | wait | memWrite | memRead | reset => exact .inl ⟨_, rfl⟩
    | write off v =>
      by_cases ha : off.toNat % 4 = 0
      · exact .inl (portWrite_next ha v _)
      · exact .inr ⟨portWrite_misaligned ha v _, off, ha, .inr ⟨v, rfl⟩⟩
    | read off =>
      by_cases ha : off.toNat % 4 = 0
      · exact .inl ⟨_, portRead_aligned ha _⟩
      · exact .inr ⟨portRead_misaligned ha _, off, ha, .inl rfl⟩

/-! ### What a completion uses -/

/-- The end of a command's work keeps the configuration registers and does not use them. -/
theorem endWork_withSetup (base : Word) (len : Nat) (pixels : List Nat) (w : Work) (s : State) (d : Setup) :
    endWork base len pixels w { s with setup := d } = { endWork base len pixels w s with setup := d } := by
  unfold endWork
  split <;> rfl

/-- In flight, a completion uses the snapshot, never the configuration registers (R38, R124). -/
theorem completed_withSetup {s : State} {f : InFlight} (hf : s.inflight = some f) (i : Instr) (d : Setup) :
    completed i { s with setup := d } = { completed i s with setup := d } := by
  have hc : s.command = f.snapshot := State.command_of_inflight hf
  have hd : State.command { s with setup := d } = f.snapshot := State.command_of_inflight (by exact hf)
  cases i with
  | nop => rfl
  | transpose => simp only [completed, completeTranspose, hc, hd]; rfl
  | sweep => simp only [completed, completeSweep, hc, hd]; exact endWork_withSetup ..
  | sweepLed => simp only [completed, completeSweepLed, hc, hd]; exact endWork_withSetup ..
  | encode k =>
    have hport : State.portView { s with setup := d } = s.portView := rfl
    have hstart : State.startWork { s with setup := d } = s.startWork := rfl
    simp only [completed, completeEncode, hc, hd, hport, hstart, endWork_withSetup]
    split <;> rfl

/-- Settles O22: the completion finds the snapshot in flight. -/
theorem completionUsesTheSnapshot : Obligations.CompletionUsesTheSnapshot := by
  rintro i s t c d ⟨hm, hf⟩ h
  rw [exec_engine hm] at h
  cases h
  rw [exec_engine (by exact hm), completed_withSetup hf]

/-! ### What a step leaves unchanged -/

/-- `t` holds what `s` held in the configuration and data registers and in the residual store. -/
structure SameRegisters (s t : State) : Prop where
  setup : t.setup = s.setup
  xin : t.xin = s.xin
  result : t.result = s.result
  xout : t.xout = s.xout
  residuals : t.residuals = s.residuals

theorem issue_sameRegisters (i : Instr) (failing : Option ErrCode) {s u : State} (h : SameRegisters s u) :
    SameRegisters s (issue i failing u) := by
  obtain ⟨_, _, _, e⟩ := issue_eq i failing u
  rw [e]
  exact ⟨h.setup, h.xin, h.result, h.xout, h.residuals⟩

/-- Short of a reset, only a completion and a register write reach the configuration and data registers and the
residual store. -/
theorem step_registers {s t : State} (h : step s = .next t) (hreset : s.schedule.head? ≠ some .reset) :
    SameRegisters s t ∨
    (∃ f, s.inflight = some f ∧ Manual.engineNext s ∧
      t = completed f.cmd { s with schedule := s.schedule.tail, mover := .engine }) ∨
    (∃ r v, s.schedule.head? = some (.write (Reg.offset r) v) ∧
      t = writeReg r v { s with schedule := s.schedule.tail }) := by
  rcases step_cases h with ⟨-, -, rfl⟩ | ⟨f, hf, he, rfl⟩ | ⟨w, rest, -, ⟨i, -, rfl⟩ | ⟨-, rfl⟩⟩ |
    ⟨r, v, rest, -, hs, rfl⟩ | ⟨off, v, rest, -, -, rfl⟩ | ⟨off, rest, -, rfl⟩ | ⟨rest, -, rfl⟩ |
    ⟨width, a, v, rest, -, rfl⟩ | ⟨width, a, rest, -, rfl⟩ | ⟨rest, hs, rfl⟩
  · exact .inl ⟨rfl, rfl, rfl, rfl, rfl⟩
  · exact .inr (.inl ⟨f, hf, he, rfl⟩)
  · exact .inl (issue_sameRegisters i _ ⟨rfl, rfl, rfl, rfl, rfl⟩)
  · exact .inl ⟨rfl, rfl, rfl, rfl, rfl⟩
  · exact .inr (.inr ⟨r, v, by rw [hs]; rfl, by rw [hs]; rfl⟩)
  · exact .inl ⟨rfl, rfl, rfl, rfl, rfl⟩
  · exact .inl ⟨rfl, rfl, rfl, rfl, rfl⟩
  · exact .inl ⟨rfl, rfl, rfl, rfl, rfl⟩
  · exact .inl ⟨rfl, rfl, rfl, rfl, rfl⟩
  · exact .inl ⟨rfl, rfl, rfl, rfl, rfl⟩
  · exact absurd (congrArg List.head? hs) hreset

/-- XIN changes only by an idle write of one of XIN0..XIN7 (R20, R33). -/
theorem writeReg_xin (r : Reg) (v : Word) (s : State) :
    (writeReg r v s).xin = s.xin ∨ s.inflight = none ∧ ∃ k, r = .xin k := by
  by_cases hi : s.inflight = none
  · cases r with
    | xin k => exact .inr ⟨hi, k, rfl⟩
    | id | cap | cmd | result | xout | ctrl | status => exact .inl rfl
    | coeff | leds | strips | prevBase | nextBase | outBase | gammaBase =>
      rw [writeReg, unlessBusy_idle hi]
      exact .inl rfl
  · exact .inl (writeReg_busy hi r v).2

/-- Settles O51: a completion changes RESULT by ENCODE and XOUT by TRANSPOSE only, a register write XIN only. -/
theorem dataRegistersChangeOnlyBy : Obligations.DataRegistersChangeOnlyBy := by
  intro s t h hreset
  rcases step_registers h hreset with hsame | ⟨⟨cmd, c⟩, hf, he, rfl⟩ | ⟨r, v, hs, rfl⟩
  · exact ⟨fun hn => absurd hsame.result hn, fun hn => absurd hsame.xout hn, fun hn => absurd hsame.xin hn⟩
  · obtain ⟨frame, hresult, hxout⟩ := completed_frame cmd { s with schedule := s.schedule.tail, mover := .engine }
    refine ⟨fun hn => ⟨he, c, ?_⟩, fun hn => ⟨he, c, ?_⟩, fun hn => absurd frame.xin hn⟩
    · obtain ⟨i, rfl⟩ := hresult.resolve_left hn
      exact ⟨i, hf⟩
    · obtain ⟨a, rfl⟩ := hxout.resolve_left hn
      exact ⟨a, hf⟩
  · refine ⟨fun hn => absurd (writeReg_result r v _) hn, fun hn => absurd (writeReg_xout r v _) hn, fun hn => ?_⟩
    obtain ⟨hi, k, rfl⟩ := (writeReg_xin r v _).resolve_left hn
    exact ⟨hi, k, v, hs⟩

/-- Settles O52: a completion writes entries of its own pixels only; no other step but a reset writes the residual
store. -/
theorem residualsChangeOnlyByEncoding : Obligations.ResidualsChangeOnlyByEncoding := by
  intro s t p ch _ hch h hreset hne
  rcases step_registers h hreset with hsame | ⟨f, hf, he, rfl⟩ | ⟨r, v, -, rfl⟩
  · exact absurd (congrArg (Memory.read · (3 * p + ch)) hsame.residuals) hne
  · refine ⟨he, f, hf, encodes_of_mem_commandPixels ?_⟩
    by_contra hp
    rw [← State.command_of_inflight hf] at hp
    exact hne (completed_residuals_outside (s := { s with schedule := s.schedule.tail, mover := .engine }) hch hp)
  · exact absurd (congrArg (Memory.read · (3 * p + ch)) (writeReg_residuals r v _)) hne

/-- Settles O53: a completion keeps the configuration and XIN, and so does a register write while BUSY. -/
theorem configurationIsConstantInFlight : Obligations.ConfigurationIsConstantInFlight := by
  intro s t hb h hreset
  rcases step_registers h hreset with hsame | ⟨f, -, -, rfl⟩ | ⟨r, v, -, rfl⟩
  · exact ⟨hsame.setup, hsame.xin⟩
  · obtain ⟨frame, -, -⟩ := completed_frame f.cmd { s with schedule := s.schedule.tail, mover := .engine }
    exact ⟨frame.setup, frame.xin⟩
  · exact writeReg_busy (s := { s with schedule := s.schedule.tail }) hb r v

end Sys2Proof.Machine
end

section
/-! PROOFS. The memory port and the other agents on memory: the bytes of an access as digits of a number, what the steps
leave while a command is in flight, and the statements of spec/20_memory.md. -/

namespace Sys2Proof.Machine

/-! ### The block's own accesses -/

/-- Byte `k` of a word is its digit `k` to the base 256. -/
theorem extractLsb'_byte_toNat (v : Word) (k : Nat) :
    (v.extractLsb' (8 * k) 8).toNat = v.toNat / 2 ^ (8 * k) % 2 ^ 8 := by
  rw [BitVec.extractLsb'_toNat, Nat.shiftRight_eq_div_pow]

/-- A byte read after a little-endian write of `n` bytes, as a number (R42, R43, R45). -/
theorem Memory.read_writeBytes_toNat {m : Memory} (h : m.wf = true) (a v x : Word) {n : Nat} (hn : n ≤ 4) :
    ((m.writeBytes a v n).read x.toNat).toNat =
      if (x - a).toNat < n then v.toNat / 2 ^ (8 * (x - a).toNat) % 2 ^ 8 else (m.read x.toNat).toNat := by
  rw [Memory.read_writeBytes h a v x hn, ← extractLsb'_byte_toNat, apply_ite BitVec.toNat]

/-- Settles O36: a word is written byte by byte; a half of two stable bytes is their concatenation. -/
theorem portAccessesAreLittleEndian : Obligations.PortAccessesAreLittleEndian := by
  refine ⟨fun p a v x w hw => Memory.read_writeBytes_toNat hw a v x le_rfl, fun p a w h0 h1 => ?_⟩
  rw [readHalf_stable h0 h1, toNat_append_eq, Nat.add_comm]
  rfl

/-- Settles O37: by whether the byte is stable. -/
theorem readsAreStableOrFree : Obligations.ReadsAreStableOrFree := by
  intro p a w
  refine ⟨fun hr hi => ?_, fun h => ?_⟩
  · rw [readByte_stable (PortView.unstable_eq_false.2 ⟨hr, hi⟩)]
    exact ⟨rfl, rfl⟩
  · have hu : p.unstable a = true := by simpa [PortView.unstable] using h
    rw [readByte_unstable hu]
    exact ⟨rfl, rfl⟩

/-! ### What a step leaves while a command is in flight -/

theorem Width.bytes_le (width : Width) : width.bytes ≤ 4 := by
  cases width <;> decide

/-- In flight, the issue of a command is rejected with BUSY (R105). -/
theorem issue_busy {s : State} (h : s.inflight ≠ none) (i : Instr) (failing : Option ErrCode) :
    issue i failing s = recordError .busy s :=
  if_pos (State.busy_eq_true.2 h)

/-- `t` holds all that the completion of the command in flight in `s` finds besides the command: memory, residuals,
build, raced bytes and free bytes, now and by its end (R56). -/
structure SameForCompletion (s t : State) : Prop where
  mem : t.mem = s.mem
  residuals : t.residuals = s.residuals
  config : t.config = s.config
  draws : t.draws = s.draws
  raced : t.raced = s.raced
  toCome : racedToCome t.mem t.schedule t.raced = racedToCome s.mem s.schedule s.raced

theorem SameForCompletion.beforeCommand_eq {s t : State} (h : SameForCompletion s t) (a : Nat) :
    t.beforeCommand a = s.beforeCommand a := by
  simp only [State.beforeCommand, h.raced, h.mem]

theorem SameForCompletion.memoryToCome_eq {s t : State} (h : SameForCompletion s t) (hf : t.inflight = s.inflight) :
    memoryToCome t = memoryToCome s :=
  memoryIfCompleted_congr hf h.mem h.residuals h.config (congrArg (List.map Prod.fst) h.toCome) h.draws

/-- While a command stays in flight, a step is another agent's write to memory or leaves all that the command's
completion finds (R56, R100). -/
theorem step_inFlight {s t : State} {f : InFlight} (hs : s.inflight = some f) (ht : t.inflight = some f)
    (h : step s = .next t) :
    (∃ width a v rest, s.schedule = .memWrite width a v :: rest ∧
      t = agentWrite width a v { s with schedule := rest }) ∨
    ((∀ width a v, s.schedule.head? ≠ some (.memWrite width a v)) ∧ SameForCompletion s t) := by
  have hb : s.inflight ≠ none := hs ▸ Option.some_ne_none f
  rcases step_cases h with ⟨hi, -⟩ | ⟨g, -, -, rfl⟩ | ⟨w, rest, e, ⟨i, -, rfl⟩ | ⟨-, rfl⟩⟩ |
    ⟨r, v, rest, -, e, rfl⟩ | ⟨off, v, rest, -, e, rfl⟩ | ⟨off, rest, e, rfl⟩ | ⟨rest, e, rfl⟩ |
    ⟨width, a, v, rest, e, rfl⟩ | ⟨width, a, rest, e, rfl⟩ | ⟨rest, -, rfl⟩
  · exact absurd hi hb
  · rw [(completed_frame g.cmd _).1.inflight] at ht
    cases ht
  · rw [issue_busy (by exact hb)]
    exact .inr ⟨by simp [e], rfl, rfl, rfl, rfl, rfl, by rw [e]; rfl⟩
  · exact .inr ⟨by simp [e], rfl, rfl, rfl, rfl, rfl, by rw [e]; rfl⟩
  · obtain ⟨_, _, _, _, _, hw⟩ := writeReg_eq r v { s with schedule := rest }
    rw [hw]
    exact .inr ⟨by simp [e], rfl, rfl, rfl, rfl, rfl, by rw [e]; rfl⟩
  · exact .inr ⟨by simp [e], rfl, rfl, rfl, rfl, rfl, by rw [e]; rfl⟩
  · exact .inr ⟨by simp [e], rfl, rfl, rfl, rfl, rfl, by rw [e]; rfl⟩
  · have hp : (poll { s with schedule := rest }).schedule = .engine :: .wait :: rest :=
      if_pos (State.busy_eq_true.2 hb)
    exact .inr ⟨by simp [e], rfl, rfl, rfl, rfl, rfl, by rw [hp, e]; rfl⟩
  · exact .inl ⟨width, a, v, rest, e, rfl⟩
  · exact .inr ⟨by simp [e], rfl, rfl, rfl, rfl, rfl, by rw [e]; rfl⟩
  · cases ht

/-! ### Other agents' writes -/

/-- The step that takes another agent's write. -/
theorem step_memWrite {s : State} {width : Width} {a v : Word} {rest : List Move}
    (h : s.schedule = .memWrite width a v :: rest) :
    step s = .next (agentWrite width a v { s with schedule := rest }) := by
  rw [step_cons h, takeMove]

theorem agentWrite_raced_busy {s : State} (h : s.inflight ≠ none) (width : Width) (a v : Word) :
    (agentWrite width a v s).raced = addRaced a s.mem s.raced width.bytes :=
  if_pos (State.busy_eq_true.2 h)

theorem agentWrite_raced_idle {s : State} (h : s.inflight = none) (width : Width) (a v : Word) :
    (agentWrite width a v s).raced = s.raced := by
  rw [agentWrite, State.busy_eq_false.2 h]
  rfl

/-- In flight, another agent's write races exactly the bytes it covers (R56). -/
theorem mem_agentWrite_racedAddrs {s : State} (h : s.inflight ≠ none) {width : Width} {a v : Word} {x : Nat} :
    x ∈ (agentWrite width a v s).racedAddrs ↔
      x ∈ s.racedAddrs ∨ ∃ b, b < width.bytes ∧ x = (addrAt a b).toNat := by
  rw [State.racedAddrs, agentWrite_raced_busy h]
  exact mem_addRaced

/-- A byte that another agent's write does not cover keeps its value. -/
theorem agentWrite_read_ne (s : State) {width : Width} {a : Word} (v : Word) {x : Nat}
    (h : ¬∃ b, b < width.bytes ∧ x = (addrAt a b).toNat) : (agentWrite width a v s).mem.read x = s.mem.read x :=
  Memory.read_writeBytes_ne _ _ _ fun b hb e => h ⟨b, hb, e.symm⟩

/-- Settles O38: in flight by whether the step is another agent's write; then such a write in every state. -/
theorem unracedBytesKeepTheirValue : Obligations.UnracedBytesKeepTheirValue := by
  refine ⟨fun s t f hs ht h a => ?_, fun s width addr v rest h hw => ?_⟩
  · have hb : s.inflight ≠ none := hs ▸ Option.some_ne_none f
    have hstart (hr : s.raced = []) : s.beforeCommand a = s.mem.read a :=
      State.beforeCommand_of_not_raced (by simp [State.racedAddrs, hr])
    rcases step_inFlight hs ht h with ⟨width, addr, v, rest, e, rfl⟩ | ⟨hne, same⟩
    · have hraced := mem_agentWrite_racedAddrs (s := { s with schedule := rest }) hb (width := width) (a := addr)
        (v := v) (x := a)
      refine ⟨hraced.trans (or_congr Iff.rfl ⟨fun hx => ⟨width, addr, v, by rw [e]; rfl, hx⟩, ?_⟩),
        fun ha => ?_, agentWrite_beforeCommand (State.busy_eq_true.2 hb) width addr v a, hstart⟩
      · rintro ⟨width', addr', v', e', hx⟩
        rw [e] at e'
        cases e'
        exact hx
      · exact agentWrite_read_ne _ v fun hx => ha (hraced.2 (.inr hx))
    · refine ⟨?_, fun _ => by rw [same.mem], same.beforeCommand_eq a, hstart⟩
      rw [State.racedAddrs, same.raced]
      exact ⟨.inl, fun hx => hx.resolve_right fun ⟨width, addr, v, e, _⟩ => hne width addr v e⟩
  · exact ⟨_, step_memWrite h, rfl, fun hi => agentWrite_raced_idle (by exact hi) width addr v,
      fun x => Memory.read_writeBytes_toNat hw addr v x width.bytes_le⟩

/-! ### The memory to come -/

/-- Manual's write range of R55 is the model's. -/
theorem writes_iff (f : InFlight) (a : Word) :
    Manual.writes f.cmd f.snapshot a ↔ inRange (writeRange f).1 (writeRange f).2 a = true := by
  obtain ⟨cmd, c⟩ := f
  cases cmd with
  | nop | encode | transpose => simp [Manual.writes, writeRange, inRange]
  | sweep | sweepLed => rw [inRange, decide_eq_true_iff]; rfl

/-- The bytes a command is going to write do not depend on bytes that are raced by its end: `memoryIfCompleted_read`
with the races to come counted (R56, R57). -/
theorem memoryToCome_read {s t : State} {f : InFlight} (hs : s.inflight = some f) (ht : t.inflight = some f)
    (hr : t.residuals = s.residuals) (hb : t.config = s.config) (hd : t.draws = s.draws)
    (hx : (racedToCome t.mem t.schedule t.raced).map Prod.fst = (racedToCome s.mem s.schedule s.raced).map Prod.fst)
    (hws : s.mem.wf = true) (hwt : t.mem.wf = true)
    (hm : ∀ x, x ∉ (racedToCome s.mem s.schedule s.raced).map Prod.fst → t.mem.read x = s.mem.read x) {a : Word}
    (ha : Manual.writes f.cmd f.snapshot a) :
    (memoryToCome t).read a.toNat = (memoryToCome s).read a.toNat :=
  memoryIfCompleted_read (s := { s with raced := racedToCome s.mem s.schedule s.raced })
    (t := { t with raced := racedToCome t.mem t.schedule t.raced }) hs ht hr hb hx hd hws hwt hm
    ((writes_iff f a).1 ha)

/-- In flight, another agent's write changes no byte that the command is going to write: what it covers is already
among the races to come. -/
theorem memoryToCome_agentWrite {s : State} {f : InFlight} (hs : s.inflight = some f) (hw : s.mem.wf = true)
    {width : Width} {addr v : Word} {rest : List Move} (e : s.schedule = .memWrite width addr v :: rest) {a : Word}
    (ha : Manual.writes f.cmd f.snapshot a) :
    (memoryToCome (agentWrite width addr v { s with schedule := rest })).read a.toNat =
      (memoryToCome s).read a.toNat := by
  have hraced := agentWrite_raced_busy (s := { s with schedule := rest }) (hs ▸ Option.some_ne_none f) width addr v
  have hcome : racedToCome s.mem s.schedule s.raced =
      racedToCome s.mem rest (addRaced addr s.mem s.raced width.bytes) := by
    rw [e]
    rfl
  refine memoryToCome_read (t := agentWrite width addr v { s with schedule := rest }) hs hs rfl rfl rfl ?_ hw
    (agentWrite_wf (s := { s with schedule := rest }) hw width addr v) (fun x hx => ?_) ha
  · rw [hcome]
    exact racedToCome_addrs rest (by rw [hraced])
  · rw [hcome] at hx
    exact agentWrite_read_ne { s with schedule := rest } v fun hcov =>
      hx (mem_racedToCome_of_mem _ _ (mem_addRaced.2 (.inr hcov)))

/-- Settles O40: the engine's step completes the command; in flight, a step that is not another agent's write leaves
all that the completion finds. -/
theorem memoryToComeIsWhatCompletionLeaves : Obligations.MemoryToComeIsWhatCompletionLeaves := by
  refine ⟨fun s t he h => ?_, fun s t f hinv hs ht h a ha => ?_⟩
  · rw [step_engine he] at h
    cases hf : s.inflight with
    | none =>
      rw [engineStep_idle (by exact hf)] at h
      cases h
      exact (memoryToCome_idle hf).symm
    | some f =>
      rw [engineStep_busy (f := f) (by exact hf), exec_engine rfl] at h
      cases h
      rw [memoryToCome_engine hf he]
      exact completed_mem_congr (s := s) (t := { s with schedule := s.schedule.tail, mover := .engine })
        rfl rfl rfl rfl rfl rfl f.cmd
  · rcases step_inFlight hs ht h with ⟨width, addr, v, rest, e, rfl⟩ | ⟨-, same⟩
    · exact memoryToCome_agentWrite hs hinv.memWf e ha
    · rw [same.memoryToCome_eq (ht.trans hs.symm)]

/-! ### Other agents' reads -/

/-- A further byte goes above the digits there are. -/
theorem assemble_succ_toNat_of_lt (byteAt : Nat → Byte) {n : Nat} (hn : n < 4)
    (h : (assemble byteAt n).toNat < 2 ^ (8 * n)) :
    (assemble byteAt (n + 1)).toNat = (byteAt n).toNat * 2 ^ (8 * n) + (assemble byteAt n).toNat := by
  have hfits : (byteAt n).toNat * 2 ^ (8 * n) < 2 ^ 32 :=
    calc (byteAt n).toNat * 2 ^ (8 * n) < 2 ^ 8 * 2 ^ (8 * n) :=
          Nat.mul_lt_mul_of_pos_right (byteAt n).isLt (Nat.two_pow_pos _)
      _ = 2 ^ (8 + 8 * n) := (Nat.pow_add ..).symm
      _ ≤ 2 ^ 32 := Nat.pow_le_pow_right Nat.two_pos (by omega)
  rw [assemble, BitVec.toNat_or, BitVec.toNat_shiftLeft, BitVec.toNat_setWidth_of_le (by decide),
    Nat.shiftLeft_eq, Nat.mod_eq_of_lt hfits, ← Nat.shiftLeft_eq, Nat.shiftLeft_add_eq_or_of_lt h, Nat.or_comm]

/-- `n` bytes make a number of `n` digits to the base 256. -/
theorem assemble_lt (byteAt : Nat → Byte) {n : Nat} (hn : n ≤ 4) : (assemble byteAt n).toNat < 2 ^ (8 * n) := by
  induction n with
  | zero => exact Nat.two_pow_pos _
  | succ n ih =>
    have h := ih (by omega)
    rw [assemble_succ_toNat_of_lt byteAt hn h]
    calc (byteAt n).toNat * 2 ^ (8 * n) + (assemble byteAt n).toNat
        < ((byteAt n).toNat + 1) * 2 ^ (8 * n) := by rw [Nat.succ_mul (byteAt n).toNat]; exact Nat.add_lt_add_left h _
      _ ≤ 2 ^ 8 * 2 ^ (8 * n) := Nat.mul_le_mul_right _ (byteAt n).isLt
      _ = 2 ^ (8 * (n + 1)) := by rw [← Nat.pow_add]; congr 1; omega

/-- The digits of assembled bytes are the bytes (R43). -/
theorem assemble_digit (byteAt : Nat → Byte) {n b : Nat} (hn : n ≤ 4) (hb : b < n) :
    (assemble byteAt n).toNat / 2 ^ (8 * b) % 2 ^ 8 = (byteAt b).toNat := by
  induction n with
  | zero => omega
  | succ n ih =>
    have h := assemble_lt byteAt (show n ≤ 4 by omega)
    rw [assemble_succ_toNat_of_lt byteAt hn h]
    rcases Nat.lt_succ_iff_lt_or_eq.1 hb with hlt | rfl
    · have hsplit : 2 ^ (8 * n) = 2 ^ (8 * b) * (2 ^ 8 * 2 ^ (8 * (n - b - 1))) := by
        rw [← Nat.pow_add, ← Nat.pow_add]; congr 1; omega
      rw [hsplit, Nat.mul_left_comm, Nat.mul_add_div (Nat.two_pow_pos _), Nat.mul_left_comm, Nat.mul_add_mod]
      exact ih (by omega) hlt
    · rw [Nat.mul_comm, Nat.mul_add_div (Nat.two_pow_pos _), Nat.div_eq_of_lt h, Nat.add_zero]
      exact Nat.mod_eq_of_lt (byteAt b).isLt

/-- The word of four bytes (R43). -/
theorem assemble_four_toNat (byteAt : Nat → Byte) :
    (assemble byteAt 4).toNat =
      (byteAt 0).toNat + (byteAt 1).toNat * 2 ^ 8 + (byteAt 2).toNat * 2 ^ 16 + (byteAt 3).toNat * 2 ^ 24 := by
  have hlt := assemble_lt byteAt (le_refl 4)
  have h0 := assemble_digit byteAt (le_refl 4) (show 0 < 4 by decide)
  have h1 := assemble_digit byteAt (le_refl 4) (show 1 < 4 by decide)
  have h2 := assemble_digit byteAt (le_refl 4) (show 2 < 4 by decide)
  have h3 := assemble_digit byteAt (le_refl 4) (show 3 < 4 by decide)
  omega

/-- The addresses of an aligned word. -/
theorem addrAt_div_four {a : Word} (ha : a.toNat % 4 = 0) {b : Nat} (hb : b < 4) :
    (addrAt a b).toNat / 4 = a.toNat / 4 := by
  have := a.isLt
  rw [addrAt, BitVec.toNat_add, BitVec.toNat_ofNat]
  omega

theorem inFlightWrites_iff (s : State) (a : Word) : Manual.inFlightWrites s a ↔ inFlightRange s a = true := by
  cases hf : s.inflight with
  | none => simp [Manual.inFlightWrites, inFlightRange, hf]
  | some f => simp [Manual.inFlightWrites, inFlightRange, hf, writes_iff]

/-- What an access at `a` sees of the draw-buffer word `n` (an address divided by 4): the new one if true, the old one
if false (R46, R57). -/
def takesNew (s : State) (a : Word) (n : Nat) : Bool := Config.freeChoice (s.choices + if n = a.toNat / 4 then 0 else 1)

/-- In the write range a byte is old or new as its word is chosen (R46, R57). -/
theorem agentByte_inside {s : State} {a : Word} {b : Nat} (h : Manual.inFlightWrites s (addrAt a b)) (new : Memory) :
    agentByte s new a b =
      if takesNew s a ((addrAt a b).toNat / 4) then new.read (addrAt a b).toNat
      else s.beforeCommand (addrAt a b).toNat :=
  if_pos ((inFlightWrites_iff s _).1 h)

/-- Outside the write range a byte is the one held. -/
theorem agentByte_outside {s : State} {a : Word} {b : Nat} (h : ¬Manual.inFlightWrites s (addrAt a b))
    (new : Memory) : agentByte s new a b = s.mem.read (addrAt a b).toNat :=
  if_neg fun hr => h ((inFlightWrites_iff s _).2 hr)

/-- An aligned word in the write range is the whole old or the whole new one (R46, R57). -/
theorem agentByte_word {s : State} {a : Word} (ha : a.toNat % 4 = 0)
    (h : ∀ b, b < 4 → Manual.inFlightWrites s (addrAt a b)) (new : Memory) :
    (∀ b, b < 4 → agentByte s new a b = s.beforeCommand (addrAt a b).toNat) ∨
      ∀ b, b < 4 → agentByte s new a b = new.read (addrAt a b).toNat := by
  cases hc : takesNew s a (a.toNat / 4) with
  | false =>
    refine .inl fun b hb => ?_
    rw [agentByte_inside (h b hb), addrAt_div_four ha hb, hc, if_neg Bool.false_ne_true]
  | true =>
    refine .inr fun b hb => ?_
    rw [agentByte_inside (h b hb), addrAt_div_four ha hb, hc, if_pos rfl]

/-- The step that takes another agent's read; the read itself is no race, so the memory to come is that before it. -/
theorem step_memRead {s : State} {width : Width} {a : Word} {rest : List Move}
    (h : s.schedule = .memRead width a :: rest) :
    step s =
      .next
        { s with
          schedule := rest
          memData := assemble (agentByte s (memoryToCome s) a) width.bytes
          choices := s.choices + if s.busy then 2 else 0 } := by
  have hnew : memoryToCome { s with schedule := rest } = memoryToCome s :=
    memoryIfCompleted_congr rfl rfl rfl rfl (by rw [h]; rfl) rfl
  rw [step_cons h, takeMove, agentRead, hnew]
  rfl

/-- Settles O39: the number read has the bytes seen as its digits; those of an aligned word are seen alike. -/
theorem earlyReadsAreOldOrNew : Obligations.EarlyReadsAreOldOrNew := by
  intro s t width a rest hs h
  rw [step_memRead hs] at h
  cases h
  refine ⟨rfl, assemble_lt _ width.bytes_le, ⟨takesNew s a, fun b hb => ⟨fun hin => ?_, fun hout => ?_⟩⟩, ?_⟩
  · rw [assemble_digit _ width.bytes_le hb, agentByte_inside hin]
    rfl
  · rw [assemble_digit _ width.bytes_le hb, agentByte_outside hout]
    rfl
  · rintro rfl ha hin
    have hword {byte : Nat → Byte}
        (hbyte : ∀ b, b < 4 → agentByte s (memoryToCome s) a b = byte (addrAt a b).toNat) :
        (assemble (agentByte s (memoryToCome s) a) 4).toNat =
          (byte a.toNat).toNat + (byte (a + 1).toNat).toNat * 2 ^ 8 + (byte (a + 2).toNat).toNat * 2 ^ 16
            + (byte (a + 3).toNat).toNat * 2 ^ 24 := by
      rw [assemble_four_toNat, hbyte 0 (by decide), hbyte 1 (by decide), hbyte 2 (by decide), hbyte 3 (by decide),
        addrAt_zero]
      rfl
    exact (agentByte_word ha hin (memoryToCome s)).imp hword hword

end Sys2Proof.Machine
end

section
/-! PROOFS. The command words: the decoder and the encoder are inverse to each other, which words are reserved, what is
ignored of ARG, and the statements of spec/30_encoding.md. -/

namespace Sys2Proof

/-! ### The opcode map -/

/-- Each command stands in the opcode map at its own opcode (section 2 of spec/30_encoding.md). -/
theorem commandOf_opcode_arg (i : Instr) : commandOf i.opcode i.arg = .ok i := by
  cases i <;> rfl

/-- The map gives no command under a second opcode. -/
theorem commandOf_opcode {op : BitVec 4} {arg : Nat} {i : Instr} (h : commandOf op arg = .ok i) :
    i.opcode.toNat = op.toNat := by
  unfold commandOf at h
  split at h <;> cases h <;> exact Eq.symm ‹_›

/-- The opcode map as a chain of comparisons. -/
theorem commandOf_eq_ite (op : BitVec 4) (arg : Nat) :
    commandOf op arg =
      if op.toNat = 0 then .ok (.nop arg)
      else if op.toNat = 1 then .ok (.sweep arg)
      else if op.toNat = 2 then .ok (.sweepLed arg)
      else if op.toNat = 3 then .ok (.encode arg)
      else if op.toNat = 4 then .ok (.transpose arg)
      else .error .illegalCmd := by
  unfold commandOf
  split <;> simp_all

/-- The opcodes from 5 on are those without a command (R66). -/
theorem commandOf_eq_error_iff {op : BitVec 4} {arg : Nat} {e : DecodeError} :
    commandOf op arg = .error e ↔ 5 ≤ op.toNat := by
  rw [commandOf_eq_ite]
  split_ifs
  case neg => exact ⟨fun _ => by omega, fun _ => rfl⟩
  all_goals exact ⟨nofun, fun _ => by omega⟩

/-! ### Decoding a word -/

theorem decode_encode {i : Instr} (h : i.WellFormed) : decode (encode i) = .ok i := by
  rw [decode, if_pos (rsvField_encode i), opField_encode, argField_encode h, commandOf_opcode_arg]

theorem decode_eq_ok_iff {w : Word} {i : Instr} :
    decode w = .ok i ↔ w.toNat / 16 % 16 = 0 ∧ commandOf (opField w) (argField w) = .ok i := by
  rw [decode, ← rsvField_eq_zero]
  split
  next hr => exact (and_iff_right hr).symm
  next hr => exact ⟨nofun, fun h => absurd h.1 hr⟩

/-- The reserved words are those the decoder rejects (R66). -/
theorem decode_eq_error_iff {w : Word} {e : DecodeError} :
    decode w = .error e ↔ 5 ≤ w.toNat % 16 ∨ w.toNat / 16 % 16 ≠ 0 := by
  rw [decode, ← opField_toNat, ne_eq, ← rsvField_eq_zero, ← commandOf_eq_error_iff (arg := argField w) (e := e)]
  split
  next hr => exact (or_iff_left (not_not.2 hr)).symm
  next hr => exact iff_of_true rfl (.inr hr)

/-- The three fields of a word that decodes are the opcode, 0 and the argument of its command. -/
theorem encode_of_decode {w : Word} {i : Instr} (h : decode w = .ok i) : encode i = w := by
  obtain ⟨hrsv, hc⟩ := decode_eq_ok_iff.1 h
  have hop : i.opcode.toNat = w.toNat % 16 := (commandOf_opcode hc).trans (opField_toNat w)
  have harg : i.arg = w.toNat / 256 := (commandOf_arg hc).trans (argField_eq w)
  have hwf : i.arg < 2 ^ 24 := decode_wellFormed h
  apply BitVec.eq_of_toNat_eq
  rw [encode_toNat]
  omega

/-- Settles O1: the fields of the encoding are the opcode, 0 and the argument. -/
theorem decodeOfEncodeIsIdentity : Obligations.DecodeOfEncodeIsIdentity := fun _ => decode_encode

/-- Settles O2: the word is put together again from its fields. -/
theorem encodeOfDecodeIsIdentity : Obligations.EncodeOfDecodeIsIdentity := fun _ _ h =>
  ⟨decode_wellFormed h, encode_of_decode h⟩

/-- Settles O3: the fields as digits of the word, and the opcode map as a chain of comparisons. -/
theorem decodeByFields : Obligations.DecodeByFields := by
  intro w
  simp only [decode, rsvField_eq_zero, commandOf_eq_ite, opField_toNat, argField_eq, ne_eq, ite_not]

/-- Settles O4: the seven words decoded. -/
theorem exampleWordsDecode : Obligations.ExampleWordsDecode := by
  unfold Obligations.ExampleWordsDecode
  decide

end Sys2Proof

namespace Sys2Proof.Machine

/-! ### Reserved words and ignored arguments -/

theorem issueWord_of_error {w : Word} {e : DecodeError} (h : decode w = .error e) (s : State) :
    issueWord w s = .next (rejectIllegal { s with mover := .host }) := by
  rw [issueWord, h]

/-- A rejected word changes STATUS only (R105, R106). -/
theorem rejectIllegal_eq (s : State) :
    rejectIllegal s =
      { s with status := Manual.recordedStatus (if s.inflight = none then .illegalCmd else .busy) s.status } := by
  rw [rejectIllegal, recordError, recordedStatus_eq]
  by_cases h : s.inflight = none
  · rw [if_pos h, if_neg (by simp [State.busy, h])]
  · rw [if_neg h, if_pos (State.busy_eq_true.2 h)]

/-- Settles O12: a reserved word does not decode and is rejected; no other word fails to decode. -/
theorem reservedEncodingsDoNoWork : Obligations.ReservedEncodingsDoNoWork := by
  intro s w rest hs
  split
  next hr =>
    have hd : decode w = .error .illegalCmd := decode_eq_error_iff.2 hr
    rw [step_write_cmd hs, issueWord_of_error hd, rejectIllegal_eq]
  next hr =>
    cases hd : decode w with
    | ok i => exact ⟨i, rfl⟩
    | error e => exact absurd (decode_eq_error_iff.1 hd) hr

/-- Settles O13: the completion of NOP, SWEEP and TRANSPOSE is defined without the argument. -/
theorem ignoredArgumentMakesNoDifference : Obligations.IgnoredArgumentMakesNoDifference := by
  intro s a b h
  simp only [exec_engine h]
  exact ⟨rfl, rfl, rfl⟩

/-! ### The pseudo-instructions -/

/-- The fields of the value that `SETCTRL` writes do not overlap (R69). -/
theorem ctrlValue_toNat {g c d e : Nat} (hg : g < 2) (hc : c < 8) (hd : d < 2) (he : e < 2) :
    (ctrlValue g c d e).toNat = c * 16 + g * 4 + e * 2 + d := by
  have hor : c <<< 4 ||| g <<< 2 ||| e <<< 1 ||| d = c * 16 + g * 4 + e * 2 + d := by
    rw [Nat.lor_assoc, Nat.lor_assoc, ← Nat.shiftLeft_add_eq_or_of_lt (i := 1) hd,
      ← Nat.shiftLeft_add_eq_or_of_lt (i := 2) (by omega), ← Nat.shiftLeft_add_eq_or_of_lt (i := 4) (by omega)]
    omega
  rw [ctrlValue, hor, BitVec.toNat_ofNat]
  omega

/-- One poll reads STATUS; the engine's turn and a second poll follow when a command is in flight (R69). -/
theorem poll_eq (s : State) :
    poll s =
      { s with
        portData := windowValue 0x0C s
        schedule := if s.inflight = none then s.schedule else .engine :: .wait :: s.schedule } := by
  have hread : s.statusWord = windowValue 0x0C s := rfl
  rw [poll, hread]
  cases h : s.inflight <;> simp [State.busy, h]

/-- Settles O48: the poll, the moves of each pseudo-instruction, and the value that `SETCTRL` writes. -/
theorem pseudoInstructionsExpand : Obligations.PseudoInstructionsExpand := by
  refine ⟨fun s => congrArg _ (poll_eq s), rfl, rfl, fun g c d e hg hc hd he => ?_, fun _ => rfl, fun _ => rfl⟩
  exact ⟨ctrlValue g c d e, rfl, ctrlValue_toNat hg hc hd he⟩

end Sys2Proof.Machine
end

section
/-! PROOFS. The arithmetic of the PixelEncoder: weights, blend, interpolation, quantisation, packing and dithering, and
the statements of spec/40_pixel_encoder.md sections 2 and 4. -/

namespace Sys2Proof.Machine

/-! ### Weights, widening and the blend -/

/-- The floor of a weighted mean lies between the two values. -/
theorem weighted_floor_between {x y u v k : Nat} (h : u + v = k) (hk : 0 < k) :
    min x y ≤ (x * u + y * v) / k ∧ (x * u + y * v) / k ≤ max x y := by
  obtain ⟨hlow, hhigh⟩ := weighted_bounds (x := x) (y := y) h
  exact ⟨(Nat.le_div_iff_mul_le hk).2 hlow, Nat.div_le_of_le_mul (hhigh.trans_eq (Nat.mul_comm ..))⟩

/-- The blend lies between the two widened values (R72). -/
theorem blend_between {c : BitVec 17} (h : c.toNat ≤ 0x10000) (p n : Byte) :
    min (widen p) (widen n) ≤ (blend c p n).toNat ∧ (blend c p n).toNat ≤ max (widen p) (widen n) := by
  rw [blend_toNat h]
  exact weighted_floor_between (weights_sum h) (by decide)

/-- From black to full scale the blend is a scaled coefficient (R73). -/
theorem blend_black_white {c : BitVec 17} (h : c.toNat ≤ 0x10000) :
    (blend c 0x00 0xFF).toNat = 0xFFFF * c.toNat / 2 ^ 16 := by
  rw [blend_toNat h, show widen 0x00 = 0 from rfl, Nat.zero_mul, Nat.zero_add]
  rfl

/-- Settles O25: the weights sum to UNIT, and each is at most the sum. -/
theorem weightsSumToUnit : Obligations.WeightsSumToUnit := by
  intro c h
  have hsum := weights_sum h
  exact ⟨rfl, rfl, by omega, by omega, hsum, by omega⟩

/-- Settles O26: a byte beside itself is the number `256 * p + p`. -/
theorem wideningRepeatsTheByte : Obligations.WideningRepeatsTheByte := by
  intro p
  refine ⟨rfl, widen_le p, ?_, rfl, rfl, rfl⟩
  rw [toNat_append_eq, widen]
  omega

/-- Settles O27: no bit of the sum is lost, and the weights sum to UNIT. -/
theorem blendIsTheExactFloor : Obligations.BlendIsTheExactFloor := by
  intro c p n h
  obtain ⟨hlow, hhigh⟩ := blend_between h p n
  refine ⟨blend_toNat h p n, blend_sum_le h p n, hlow, hhigh, ?_⟩
  rw [blend_toNat h, widen, widen, weightPrev, weightNext, Nat.mul_comm 257, Nat.mul_comm 257]

/-- Settles O28: one weight is 0 at either end; equal values leave the blend no room; black to full scale is the scaled
coefficient. -/
theorem blendCorners : Obligations.BlendCorners := by
  intro c p n h
  have hwhite := blend_black_white h
  refine ⟨fun hc => ?_, fun hc => ?_, fun heq => ?_, hwhite, ?_, blend_black_white (by decide),
    blend_black_white (by decide)⟩
  · rw [blend_toNat h, weightPrev, weightNext, hc]
    omega
  · rw [blend_toNat h, weightPrev, weightNext, hc]
    omega
  · obtain ⟨hlow, hhigh⟩ := blend_between h p n
    omega
  · omega

/-- Settles O29: the weights `256 - a` and `a` sum to 256. -/
theorem interpolationStaysBetweenEntries : Obligations.InterpolationStaysBetweenEntries := by
  intro t0 t1 a
  have hsum : (256 - a.toNat) + a.toNat = 256 := by omega
  refine ⟨interpolate_toNat t0 t1 a, interpolate_sum_le t0 t1 a, ?_⟩
  rw [interpolate_toNat]
  exact weighted_floor_between hsum (by decide)

/-! ### Quantisation, packing and dithering -/

/-- Without saturation the two bytes hold the whole sum (R78). -/
theorem quantise_lossless {gam : BitVec 16} {r : Byte} (h : gam.toNat + r.toNat ≤ 0xFFFF) :
    256 * (quantise gam r).1.toNat + (quantise gam r).2.toNat = gam.toNat + r.toNat := by
  rw [quantise_fst_toNat, quantise_snd_toNat]
  omega

/-- From 0xFF00 on the output is full scale, with saturation and without (R78). -/
theorem quantise_fst_full {gam : BitVec 16} (h : 0xFF00 ≤ gam.toNat) (r : Byte) : (quantise gam r).1.toNat = 0xFF := by
  rw [quantise_fst_toNat]
  omega

/-- With saturation both bytes are full (R78). -/
theorem quantise_saturated {gam : BitVec 16} {r : Byte} (h : 0xFFFF < gam.toNat + r.toNat) :
    quantise gam r = (0xFF, 0xFF) := by
  refine Prod.ext (BitVec.eq_of_toNat_eq ?_) (BitVec.eq_of_toNat_eq ?_)
  · rw [quantise_fst_toNat, Nat.min_eq_right h.le]
    rfl
  · rw [quantise_snd_toNat, Nat.min_eq_right h.le]
    rfl

/-- The packed word by the table of R79, with the channel values as a function of the channel. -/
theorem pack_toNat_packOrder (order : ChannelOrder) {q0 q1 q2 : Byte} {q : Nat → Nat} (h0 : q 0 = q0.toNat)
    (h1 : q 1 = q1.toNat) (h2 : q 2 = q2.toNat) :
    (pack order q0 q1 q2).toNat =
      q (Manual.packOrder order).1 * 2 ^ 16 + q (Manual.packOrder order).2.1 * 2 ^ 8
        + q (Manual.packOrder order).2.2 := by
  rw [pack_toNat]
  cases order <;> simp only [Manual.packOrder, h0, h1, h2] <;> omega

/-- Settles O30: by whether the sum saturates. -/
theorem quantisationSplitsTheSaturatedSum : Obligations.QuantisationSplitsTheSaturatedSum := by
  intro gam r v
  have hv : v = gam.toNat + r.toNat := rfl
  refine ⟨by omega, quantise_fst_toNat gam r, quantise_snd_toNat gam r, quantise_lossless,
    fun h => ⟨by omega, ?_, quantise_saturated h⟩⟩
  rintro rfl
  have hr : (0 : Byte).toNat = 0 := rfl
  omega

/-- Settles O31: the packed word by the table, and the table row by row. -/
theorem packingFollowsTheChordTable : Obligations.PackingFollowsTheChordTable := by
  intro order q0 q1 q2 q
  refine ⟨pack_toNat_packOrder order rfl rfl rfl, ?_⟩
  cases order <;> decide

/-- Below saturation no brightness is lost over any number of quantisations (R85). -/
theorem ditherRun_exact {gam : BitVec 16} (h : gam.toNat ≤ 0xFF00) (m : Nat) (r : Byte) :
    256 * (Manual.ditherRun gam m r).1 + (Manual.ditherRun gam m r).2.toNat = m * gam.toNat + r.toNat := by
  induction m generalizing r with
  | zero => simp only [Manual.ditherRun, Nat.mul_zero, Nat.zero_mul]
  | succ m ih =>
    have hstep := quantise_lossless (show gam.toNat + r.toNat ≤ 0xFFFF by omega)
    have hrest := ih (quantise gam r).2
    simp only [Manual.ditherRun, Nat.succ_mul m]
    omega

/-- Above 0xFF00 every output is full scale (R85). -/
theorem ditherRun_full {gam : BitVec 16} (h : 0xFF00 < gam.toNat) (m : Nat) (r : Byte) :
    (Manual.ditherRun gam m r).1 = m * 0xFF := by
  induction m generalizing r with
  | zero => rfl
  | succ m ih =>
    have hstep := quantise_fst_full h.le r
    have hrest := ih (quantise gam r).2
    simp only [Manual.ditherRun]
    omega

/-- Settles O32: by induction on the number of quantisations, below and above 0xFF00. -/
theorem ditheringConvergesToTheTarget : Obligations.DitheringConvergesToTheTarget := by
  refine fun gam m r => ⟨fun h => ?_, fun h => ditherRun_full h m r⟩
  have hexact := ditherRun_exact h m r
  exact ⟨hexact, by omega, by omega⟩

end Sys2Proof.Machine
end

section
/-! PROOFS. What the encoding of a pixel computes where no byte it reads is raced or in the command's write range: the
formulas of spec/40_pixel_encoder.md sections 2 and 3, on memory as it stands; and the completion of ENCODE (section 5)
with what it depends on. -/

namespace Sys2Proof.Machine

/-! ### Reads of stable bytes -/

/-- What a command has done after reading these bytes, all of them stable: nothing was drawn, and an error counts. -/
def Work.afterReads (config : Config) (reads : List Word) (w : Work) : Work :=
  { w with err := w.err || reads.any (Config.busError config) }

@[simp] theorem Work.afterReads_afterReads (config : Config) (l m : List Word) (w : Work) :
    (w.afterReads config l).afterReads config m = w.afterReads config (l ++ m) := by
  simp [Work.afterReads, Bool.or_assoc]

@[simp] theorem Work.afterReads_residuals (config : Config) (reads : List Word) (w : Work) :
    (w.afterReads config reads).residuals = w.residuals := rfl

theorem Work.afterReads_of_no_error {config : Config} {reads : List Word}
    (h : ∀ a ∈ reads, Config.busError config a = false) (w : Work) : w.afterReads config reads = w := by
  have hany : reads.any (Config.busError config) = false := by simpa using h
  rw [Work.afterReads, hany, Bool.or_false]

/-- The addresses of the bytes that the encoding of one channel reads (R80). -/
def channelReads (s : State) (c : Setup) (i ch : Nat) : List Word :=
  Manual.fbAddr c.prevBase i ch :: Manual.fbAddr c.nextBase i ch :: Manual.gammaReads s c i ch

theorem encodeReads_eq (s : State) (c : Setup) (i : Nat) :
    Manual.encodeReads s c i = channelReads s c i 0 ++ (channelReads s c i 1 ++ channelReads s c i 2) := by
  simp [Manual.encodeReads, channelReads]

theorem mem_encodeReads {s : State} {c : Setup} {i ch : Nat} (hch : ch < 3) {a : Word} (h : a ∈ channelReads s c i ch) :
    a ∈ Manual.encodeReads s c i :=
  List.mem_flatMap.2 ⟨ch, by simp; omega, h⟩

/-- The entry address of the data path is that of R49. -/
theorem gammaAddr_eq (c : Setup) (ch k : Nat) : gammaAddr c ch k = Manual.entryAddr c ch k := by
  unfold gammaAddr Manual.entryAddr addrAt
  cases c.gmode <;> rfl

theorem channelAddr_eq (base : Word) (i ch : Nat) : channelAddr base i ch = Manual.fbAddr base i ch := rfl

/-- ENCODE writes no memory, so only another agent's write makes a byte it reads unstable (R56). -/
theorem portView_unstable_of_empty_range {s : State} {base : Word} {a : Word} (h : a.toNat ∉ s.racedAddrs) :
    (s.portView base 0).unstable a = false :=
  PortView.unstable_eq_false.2 ⟨h, decide_eq_false (Nat.not_lt_zero _)⟩

/-! ### The formulas in each gamma format -/

theorem gam_direct (s : State) {c : Setup} (h : c.gmode = .direct) (i ch : Nat) :
    Manual.gam s c i ch = Manual.entry s c ch (Manual.lin s c i ch) := by
  simp only [Manual.gam, h]

theorem gam_interp257 (s : State) {c : Setup} (h : c.gmode = .interp257) (i ch : Nat) :
    Manual.gam s c i ch =
      (Manual.entry s c ch (Manual.lin s c i ch / 256) * (256 - Manual.lin s c i ch % 256)
        + Manual.entry s c ch (Manual.lin s c i ch / 256 + 1) * (Manual.lin s c i ch % 256)) / 256 := by
  simp only [Manual.gam, h]

/-- The two bytes of a gamma entry (R49). -/
def entryReads (c : Setup) (ch k : Nat) : List Word := [Manual.entryAddr c ch k, Manual.entryAddr c ch k + 1]

theorem gammaReads_direct (s : State) {c : Setup} (h : c.gmode = .direct) (i ch : Nat) :
    Manual.gammaReads s c i ch = entryReads c ch (Manual.lin s c i ch) := by
  simp only [Manual.gammaReads, h, entryReads]

theorem gammaReads_interp257 (s : State) {c : Setup} (h : c.gmode = .interp257) (i ch : Nat) :
    Manual.gammaReads s c i ch =
      entryReads c ch (Manual.lin s c i ch / 256) ++ entryReads c ch (Manual.lin s c i ch / 256 + 1) := by
  simp only [Manual.gammaReads, h, entryReads, List.cons_append, List.nil_append]

/-! ### The encoding of a pixel on stable bytes -/

/-- The data path quantises a gamma value into the channel value and the residual entry of R78. -/
theorem quantise_of_gam {s : State} {c : Setup} {i ch : Nat} {gam : BitVec 16} (h : gam.toNat = Manual.gam s c i ch) :
    (quantise gam (readResidual s.residuals i ch)).1.toNat = Manual.level s c i ch ∧
      (quantise gam (readResidual s.residuals i ch)).2 = Manual.leftover s c i ch := by
  have hsat : min (gam.toNat + (readResidual s.residuals i ch).toNat) 0xFFFF = Manual.saturated s c i ch := by
    rw [h]; rfl
  refine ⟨by rw [quantise_fst_toNat, hsat, Manual.level], BitVec.eq_of_toNat_eq ?_⟩
  rw [quantise_snd_toNat, hsat, Manual.leftover, BitVec.toNat_ofNat, Nat.mod_mod]

/-- The residual store with the three entries of a pixel advanced (R78). -/
def advanced (s : State) (c : Setup) (i : Nat) (res : Memory) : Memory :=
  writeResidual (writeResidual (writeResidual res i 0 (Manual.leftover s c i 0)) i 1 (Manual.leftover s c i 1)) i 2
    (Manual.leftover s c i 2)

theorem advanced_wf (s : State) (c : Setup) (i : Nat) {res : Memory} (h : res.wf = true) :
    (advanced s c i res).wf = true := writeResidual_wf (writeResidual_wf (writeResidual_wf h _ _ _) _ _ _) _ _ _

theorem readResidual_advanced (s : State) (c : Setup) (i : Nat) {res : Memory} (h : res.wf = true) (j : Nat) {ch : Nat}
    (hch : ch < 3) :
    readResidual (advanced s c i res) j ch = if j = i then Manual.leftover s c i ch else readResidual res j ch := by
  have h0 := writeResidual_wf h i 0 (Manual.leftover s c i 0)
  have h1 := writeResidual_wf h0 i 1 (Manual.leftover s c i 1)
  rw [advanced, readResidual_writeResidual h1 (by decide) hch, readResidual_writeResidual h0 (by decide) hch,
    readResidual_writeResidual h (by decide) hch]
  by_cases hj : j = i
  · obtain rfl | rfl | rfl : ch = 0 ∨ ch = 1 ∨ ch = 2 := by omega
    all_goals simp [hj]
  · simp [hj, Ne.symm hj]

/-- The colour word is the packed channel values (R79, R80). -/
theorem colour_eq_pack (s : State) (c : Setup) (i : Nat) {q0 q1 q2 : Byte} (h0 : q0.toNat = Manual.level s c i 0)
    (h1 : q1.toNat = Manual.level s c i 1) (h2 : q2.toNat = Manual.level s c i 2) :
    pack c.chord q0 q1 q2 = Manual.colour s c i := by
  rw [Manual.colour, ← pack_toNat_packOrder c.chord h0.symm h1.symm h2.symm, BitVec.ofNat_toNat, BitVec.setWidth_eq]

section StableReads

variable {s : State} {c : Setup} {base : Word} {len i ch : Nat}

theorem readByte_portView {a : Word} (h : (s.portView base len).unstable a = false) (w : Work) :
    readByte (s.portView base len) a w = (s.mem.read a.toNat, w.afterReads s.config [a]) := by
  rw [readByte_stable h, Work.afterReads, List.any_cons, List.any_nil, Bool.or_false]
  rfl

/-- A gamma entry of two stable bytes (R44, R49). -/
theorem gammaEntry_portView {k : Nat} (h : ∀ a ∈ entryReads c ch k, (s.portView base len).unstable a = false) (w : Work) :
    (gammaEntry (s.portView base len) c ch k w).1.toNat = Manual.entry s c ch k ∧
      (gammaEntry (s.portView base len) c ch k w).2 = w.afterReads s.config (entryReads c ch k) := by
  have h0 := readByte_portView (h (Manual.entryAddr c ch k) (by simp [entryReads]))
  have h1 := readByte_portView (h (addrAt (Manual.entryAddr c ch k) 1) (by simp [entryReads, addrAt]))
  rw [gammaEntry, gammaAddr_eq, readHalf]
  simp only [h0, h1, toNat_append_eq, Work.afterReads_afterReads]
  refine ⟨?_, rfl⟩
  rw [Manual.entry, Nat.add_comm, Nat.mul_comm]
  rfl

/-- Step 3 in either format (R74, R75). -/
theorem gammaLookup_portView {lin : BitVec 16} (hlin : lin.toNat = Manual.lin s c i ch)
    (h : ∀ a ∈ Manual.gammaReads s c i ch, (s.portView base len).unstable a = false) (w : Work) :
    (gammaLookup (s.portView base len) c ch lin w).1.toNat = Manual.gam s c i ch ∧
      (gammaLookup (s.portView base len) c ch lin w).2 = w.afterReads s.config (Manual.gammaReads s c i ch) := by
  unfold gammaLookup
  cases hg : c.gmode with
  | direct =>
    rw [gammaReads_direct s hg] at h ⊢
    rw [← hlin] at h ⊢
    rw [gam_direct s hg, ← hlin]
    exact gammaEntry_portView h w
  | interp257 =>
    rw [gammaReads_interp257 s hg] at h ⊢
    have hidx : (lin.extractLsb' 8 8).toNat = Manual.lin s c i ch / 256 := by
      rw [BitVec.extractLsb'_toNat, Nat.shiftRight_eq_div_pow, ← hlin]; omega
    have hfrac : (lin.extractLsb' 0 8).toNat = Manual.lin s c i ch % 256 := by
      rw [BitVec.extractLsb'_toNat, Nat.shiftRight_zero, hlin]
    obtain ⟨hv0, hw0⟩ := gammaEntry_portView (fun a ha => h a (List.mem_append_left _ ha)) w
    obtain ⟨hv1, hw1⟩ := gammaEntry_portView (fun a ha => h a (List.mem_append_right _ ha))
      (w.afterReads s.config (entryReads c ch (Manual.lin s c i ch / 256)))
    simp only [gammaInterp, hidx, interpolate_toNat, hfrac, hw0, hv0, hv1, hw1, gam_interp257 s hg,
      Work.afterReads_afterReads, and_self]

/-- One channel of `EncodePixel` (R80). -/
theorem encodeChannel_portView (hc : c.coeff.toNat ≤ 0x10000)
    (h : ∀ a ∈ channelReads s c i ch, (s.portView base len).unstable a = false) {w : Work}
    (hr : readResidual w.residuals i ch = readResidual s.residuals i ch) :
    (encodeChannel (s.portView base len) c i ch w).1.toNat = Manual.level s c i ch ∧
      (encodeChannel (s.portView base len) c i ch w).2 =
        { w.afterReads s.config (channelReads s c i ch) with
          residuals := writeResidual w.residuals i ch (Manual.leftover s c i ch) } := by
  have hprev := readByte_portView (h (Manual.fbAddr c.prevBase i ch) (by simp [channelReads])) w
  have hnext := readByte_portView (h (Manual.fbAddr c.nextBase i ch) (by simp [channelReads]))
    (w.afterReads s.config [Manual.fbAddr c.prevBase i ch])
  obtain ⟨hgam, hw⟩ := gammaLookup_portView
    (blend_toNat hc (s.mem.read (Manual.fbAddr c.prevBase i ch).toNat) (s.mem.read (Manual.fbAddr c.nextBase i ch).toNat))
    (fun a ha => h a (by simp [channelReads, ha]))
    ((w.afterReads s.config [Manual.fbAddr c.prevBase i ch]).afterReads s.config [Manual.fbAddr c.nextBase i ch])
  simp only [encodeChannel, channelAddr_eq, hprev, hnext, hw, Work.afterReads_residuals, hr]
  obtain ⟨hlevel, hleft⟩ := quantise_of_gam (s := s) (i := i) (ch := ch) hgam
  refine ⟨hlevel, ?_⟩
  rw [hleft, Work.afterReads_afterReads, Work.afterReads_afterReads, channelReads]
  rfl

/-- `EncodePixel` (R80). -/
theorem encodePixel_portView (hc : c.coeff.toNat ≤ 0x10000)
    (h : ∀ a ∈ Manual.encodeReads s c i, (s.portView base len).unstable a = false) {w : Work}
    (hr : ∀ ch, ch < 3 → readResidual w.residuals i ch = readResidual s.residuals i ch) :
    encodePixel (s.portView base len) c i w =
      (Manual.colour s c i,
        { w.afterReads s.config (Manual.encodeReads s c i) with residuals := advanced s c i w.residuals }) := by
  have hchannel := fun {ch : Nat} (hch : ch < 3) {w' : Work} =>
    encodeChannel_portView (w := w') hc (fun a ha => h a (mem_encodeReads hch ha))
  obtain ⟨hq0, hw0⟩ := hchannel (show 0 < 3 by decide) (hr 0 (by decide))
  obtain ⟨hq1, hw1⟩ := hchannel (show 1 < 3 by decide)
    (w' := (encodeChannel (s.portView base len) c i 0 w).2) (by
      rw [hw0, readResidual_writeResidual_ne _ (by decide) (by decide) (by simp), hr 1 (by decide)])
  obtain ⟨hq2, hw2⟩ := hchannel (show 2 < 3 by decide)
    (w' := (encodeChannel (s.portView base len) c i 1 (encodeChannel (s.portView base len) c i 0 w).2).2) (by
      rw [hw1, hw0, readResidual_writeResidual_ne _ (by decide) (by decide) (by simp),
        readResidual_writeResidual_ne _ (by decide) (by decide) (by simp), hr 2 (by decide)])
  rw [encodePixel]
  dsimp only
  rw [colour_eq_pack s c i hq0 hq1 hq2, hw2, hw1, hw0, encodeReads_eq, ← Work.afterReads_afterReads,
    ← Work.afterReads_afterReads]
  rfl

end StableReads

/-! ### The completion of ENCODE -/

/-- ENCODE completes with the colour word and the advanced residual entries when its reads are undisturbed (R86). -/
theorem exec_encode_of_undisturbed {s : State} {c : Setup} {i : Nat} (h : Manual.completing (.encode i) c s)
    (hc : c.coeff.toNat ≤ 0x10000)
    (hreads : ∀ a ∈ Manual.encodeReads s c i, a.toNat ∉ s.racedAddrs ∧ Config.busError s.config a = false) :
    exec (.encode i) s =
      .next
        { s with
          result := Manual.colour s c i
          residuals := advanced s c i s.residuals
          inflight := none
          status := Manual.doneStatus s.status
          raced := [] } := by
  obtain ⟨hmover, hflight⟩ := h
  have hpixel : encodePixel (s.portView c.outBase 0) c i s.startWork =
      (Manual.colour s c i, { s.startWork with residuals := advanced s c i s.residuals }) := by
    rw [encodePixel_portView hc (fun a ha => portView_unstable_of_empty_range (hreads a ha).1) fun _ _ => rfl,
      Work.afterReads_of_no_error fun a ha => (hreads a ha).2]
    rfl
  rw [exec_engine hmover, completed, completeEncode, State.command_of_inflight hflight]
  dsimp only
  rw [hpixel]
  rfl

/-- Settles O16: the data path computes the formulas from the bytes that hold still, and no error ends the command. -/
theorem encodeCompletes : Obligations.EncodeCompletes := by
  intro s c i h hc hwf hreads
  exact ⟨_, exec_encode_of_undisturbed h hc hreads, advanced_wf s c i hwf,
    fun j ch hch => readResidual_advanced s c i hwf j hch⟩

/-! ### What the formulas depend on -/

section ReadSet

variable {s s' : State} {c : Setup} {i : Nat}

theorem entry_congr {ch k : Nat} (h : ∀ a ∈ entryReads c ch k, s'.mem.read a.toNat = s.mem.read a.toNat) :
    Manual.entry s' c ch k = Manual.entry s c ch k := by
  simp only [entryReads, List.forall_mem_cons] at h
  obtain ⟨hlow, hhigh, -⟩ := h
  simp only [Manual.entry, Manual.byteAt, hlow, hhigh]

theorem lin_congr {ch : Nat} (h : ∀ a ∈ channelReads s c i ch, s'.mem.read a.toNat = s.mem.read a.toNat) :
    Manual.lin s' c i ch = Manual.lin s c i ch := by
  simp only [channelReads, List.forall_mem_cons] at h
  obtain ⟨hprev, hnext, -⟩ := h
  simp only [Manual.lin, Manual.byteAt, hprev, hnext]

/-- The addresses read depend on the framebuffer bytes only (R74, R75). -/
theorem channelReads_congr {ch : Nat} (h : ∀ a ∈ channelReads s c i ch, s'.mem.read a.toNat = s.mem.read a.toNat) :
    channelReads s' c i ch = channelReads s c i ch := by
  simp only [channelReads, Manual.gammaReads, lin_congr h]

theorem gam_congr {ch : Nat} (h : ∀ a ∈ channelReads s c i ch, s'.mem.read a.toNat = s.mem.read a.toNat) :
    Manual.gam s' c i ch = Manual.gam s c i ch := by
  have hlin := lin_congr h
  have hgamma : ∀ a ∈ Manual.gammaReads s c i ch, s'.mem.read a.toNat = s.mem.read a.toNat :=
    fun a ha => h a (by simp [channelReads, ha])
  cases hg : c.gmode with
  | direct =>
    rw [gammaReads_direct s hg] at hgamma
    rw [gam_direct s' hg, gam_direct s hg, hlin, entry_congr hgamma]
  | interp257 =>
    rw [gammaReads_interp257 s hg, List.forall_mem_append] at hgamma
    rw [gam_interp257 s' hg, gam_interp257 s hg, hlin, entry_congr hgamma.1, entry_congr hgamma.2]

theorem saturated_congr {ch : Nat} (h : ∀ a ∈ channelReads s c i ch, s'.mem.read a.toNat = s.mem.read a.toNat)
    (hr : s'.residuals.read (3 * i + ch) = s.residuals.read (3 * i + ch)) :
    Manual.saturated s' c i ch = Manual.saturated s c i ch := by
  rw [Manual.saturated, Manual.saturated, gam_congr h, hr]

theorem leftover_congr {ch : Nat} (h : Manual.saturated s' c i ch = Manual.saturated s c i ch) :
    Manual.leftover s' c i ch = Manual.leftover s c i ch := by
  rw [Manual.leftover, Manual.leftover, h]

theorem packOrder_lt (order : ChannelOrder) :
    (Manual.packOrder order).1 < 3 ∧ (Manual.packOrder order).2.1 < 3 ∧ (Manual.packOrder order).2.2 < 3 := by
  cases order <;> decide

theorem colour_congr (h : ∀ ch, ch < 3 → Manual.saturated s' c i ch = Manual.saturated s c i ch) :
    Manual.colour s' c i = Manual.colour s c i := by
  obtain ⟨ha, hb, hd⟩ := packOrder_lt c.chord
  simp only [Manual.colour, Manual.level, h _ ha, h _ hb, h _ hd]

theorem encodeReads_congr (h : ∀ a ∈ Manual.encodeReads s c i, s'.mem.read a.toNat = s.mem.read a.toNat) :
    Manual.encodeReads s' c i = Manual.encodeReads s c i := by
  have hchannel := fun {ch : Nat} (hch : ch < 3) =>
    channelReads_congr fun a ha => h a (mem_encodeReads (ch := ch) hch ha)
  rw [encodeReads_eq, encodeReads_eq, hchannel (show 0 < 3 by decide), hchannel (show 1 < 3 by decide),
    hchannel (show 2 < 3 by decide)]

end ReadSet

/-- Settles O23: both completions are given by the formulas, which see only the bytes read and the pixel's residual
entries. -/
theorem encodeDependsOnItsReadSetOnly : Obligations.EncodeDependsOnItsReadSetOnly := by
  intro s s' t t' c i h h' hc hwf hwf' hreads hres ht ht'
  simp only [forall₂_and] at hreads
  obtain ⟨hraced, hraced', hmem, herr, herr'⟩ := hreads
  rw [← encodeReads_congr hmem] at hraced' herr'
  have hsat : ∀ ch, ch < 3 → Manual.saturated s' c i ch = Manual.saturated s c i ch :=
    fun ch hch => saturated_congr (fun a ha => hmem a (mem_encodeReads hch ha)) (hres ch hch)
  rw [exec_encode_of_undisturbed h hc fun a ha => ⟨hraced a ha, herr a ha⟩, Host.Outcome.next.injEq] at ht
  rw [exec_encode_of_undisturbed h' hc fun a ha => ⟨hraced' a ha, herr' a ha⟩, Host.Outcome.next.injEq] at ht'
  subst ht ht'
  refine ⟨colour_congr hsat, fun ch hch => ?_⟩
  change readResidual (advanced s' c i s'.residuals) i ch = readResidual (advanced s c i s.residuals) i ch
  rw [readResidual_advanced s' c i hwf' i hch, readResidual_advanced s c i hwf i hch, if_pos rfl, if_pos rfl,
    leftover_congr (hsat ch hch)]

end Sys2Proof.Machine
end

section
/-! PROOFS. The statements of spec/41_transposer.md: every bit of the output words, read by group, by colour-word bit and
by byte of the image (section 1), and the completion of TRANSPOSE (section 2). -/

namespace Sys2Proof.Machine

/-! ### The output words bit by bit -/

/-- Bit `8k + s` of the word emitted `j`-th (R88, R89, R90). -/
theorem transpose_getLsbD (cw : Nat → Colour) (n : Nat) {j k s : Nat} (hj : j < 6) (hk : k < 4) (hs : s < 8) :
    (transpose cw n)[j].getLsbD (8 * k + s) = if s < n then (cw s).getLsbD (4 * (5 - j) + 3 - k) else false := by
  rw [transpose_getElem cw n hj, groupWord_getLsbD cw n (5 - j) hk hs]

/-- Settles O33: each emitted word is its group's word. -/
theorem transposerBits : Obligations.TransposerBits :=
  fun cw n j k st => transpose_getLsbD cw n j.isLt k.isLt st.isLt

/-- Settles O34: bit `b` of a colour word is bit `b % 4` of its group `b / 4`. -/
theorem transposerIsInvertible : Obligations.TransposerIsInvertible := by
  intro cw n st b
  have hbit : 4 * (5 - (5 - b.val / 4)) + 3 - (3 - b.val % 4) = b := by omega
  rw [transpose_getLsbD cw n (by omega) (by omega) st.isLt, hbit]

/-- Settles O35: byte `m` of the image is byte `m % 4` of the word emitted `m / 4`-th. -/
theorem transposedImageIsBitPlanes : Obligations.TransposedImageIsBitPlanes := by
  intro cw n m st
  have hbit : 4 * (5 - m.val / 4) + 3 - m.val % 4 = 23 - m := by omega
  rw [BitVec.getLsbD_extractLsb', decide_eq_true st.isLt, Bool.true_and,
    transpose_getLsbD cw n (by omega) (by omega) st.isLt, hbit]

/-! ### The completion of TRANSPOSE -/

/-- TRANSPOSE completes with the transposed strip words in XOUT, for the strip count it was accepted with (R94). -/
theorem exec_transpose_of_completing {s : State} {c : Setup} {a : Nat}
    (h : Manual.completing (.transpose a) c s) :
    exec (.transpose a) s =
      .next
        { s with
          xout := transpose (fun k => s.xin[k]?.getD 0) c.N
          inflight := none
          status := Manual.doneStatus s.status
          raced := [] } := by
  obtain ⟨hmover, hflight⟩ := h
  rw [exec_engine hmover, completed, completeTranspose, State.command_of_inflight hflight]
  rfl

/-- Settles O15: the words left in XOUT are the transposer's, so their bits are given by `transpose_getLsbD`. -/
theorem transposeCompletes : Obligations.TransposeCompletes := by
  intro s c a h
  refine ⟨_, exec_transpose_of_completing h, fun j k st => ?_⟩
  have hstrip : s.xin[st.val]?.getD 0 = s.xin[st] := by simp
  calc (transpose (fun k => s.xin[k]?.getD 0) c.N)[j].getLsbD (8 * k + st)
      _ = if st.val < c.N then (s.xin[st.val]?.getD 0).getLsbD (4 * (5 - j) + 3 - k) else false :=
        transpose_getLsbD _ c.N j.isLt k.isLt st.isLt
      _ = (decide (st.val < c.strips.toNat) && s.xin[st].getLsbD (4 * (5 - j) + 3 - k)) := by
        rw [hstrip, Bool.if_false_right, Setup.N]

end Sys2Proof.Machine
end

section
/-! PROOFS. The engine's step (spec/42_sweep.md section 3): it completes the command in flight, whatever comes before it,
and the frame that every completion keeps. -/

namespace Sys2Proof.Machine

/-! ### The engine's step and NOP -/

/-- Settles O6: the engine's step is the completion of what is in flight. -/
theorem stepRunsTheCommandInFlight : Obligations.StepRunsTheCommandInFlight := by
  refine ⟨fun s f he hf => ?_, fun s he hi => ?_⟩
  · rw [step_engine he, engineStep_busy (by exact hf)]
  · rw [step_engine he, engineStep_idle (by exact hi)]

/-- Settles O14: the completion of NOP is the end that every command has. -/
theorem nopCompletes : Obligations.NopCompletes := by
  rintro s c a ⟨hm, -⟩
  rw [exec_engine hm]
  rfl

/-! ### The frame of a completion -/

/-- Memory outside the write range does not change, races and bus faults included (R55, R108). -/
theorem completed_read_outside {s : State} {f : InFlight} (hf : s.inflight = some f) {a : Word}
    (ha : ¬Manual.writes f.cmd f.snapshot a) : (completed f.cmd s).mem.read a.toNat = s.mem.read a.toNat := by
  obtain ⟨i, c⟩ := f
  have hc : s.command = c := State.command_of_inflight hf
  have hL := Setup.L_lt c
  cases i with
  | nop | transpose => rfl
  | encode k =>
    obtain ⟨r, d, e⟩ := completeEncode_eq k s
    rw [completed, e]
    exact endWork_read_outside (Nat.zero_le _) (Nat.not_lt_zero _) (by rw [encodePixel_mem]; rfl)
  | sweepLed l =>
    rw [completed, completeSweepLed, hc]
    exact endWork_read_outside (by decide) ha (ledGroup_read_outside _ c l _ ha)
  | sweep =>
    rw [completed, completeSweep, hc]
    exact endWork_read_outside (by omega) ha (sweepGroups_read_outside _ c _ (by omega) ha)

/-- Settles O19: what the end of every command leaves, and that it writes in its write range and its pixels only. -/
theorem completionFrame : Obligations.CompletionFrame := by
  rintro i s c ⟨hm, hf⟩ -
  obtain ⟨frame, hresult, hxout⟩ := completed_frame i s
  refine ⟨_, exec_engine hm i, frame.inflight, ?_,
    ⟨frame.ieDone, frame.ieErr, frame.setup, frame.xin, frame.config, frame.schedule, frame.portData, frame.memData⟩,
    hresult.resolve_left, hxout.resolve_left, fun a ha => completed_read_outside hf ha, fun p ch hch hp => ?_⟩
  · rw [recordedStatus_eq]
    exact frame.status
  · refine completed_residuals_outside hch fun hmem => hp (encodes_of_mem_commandPixels ?_)
    rwa [State.command_of_inflight hf] at hmem

/-! ### An accepted command completes -/

theorem run_succ {s t : State} (h : step s = .next t) (n : Nat) : core.run (n + 1) s = core.run n t := by
  have hstep : core.step s = .next t := h
  simp only [Host.Core.run, hstep]

/-- The engine's step in flight ends the command (R100). -/
theorem step_engine_completes {s : State} (hb : s.inflight ≠ none) (he : Manual.engineNext s) :
    ∃ t, step s = .next t ∧ t.inflight = none ∧ t.status.done = true := by
  obtain ⟨f, hf⟩ := Option.ne_none_iff_exists'.1 hb
  have hstep := stepRunsTheCommandInFlight.1 s f he hf
  rw [exec_engine rfl] at hstep
  obtain ⟨frame, -⟩ := completed_frame f.cmd { s with schedule := s.schedule.tail, mover := .engine }
  refine ⟨_, hstep, frame.inflight, ?_⟩
  rcases frame.status with e | ⟨e, -⟩ <;> rw [e]

theorem writeReg_inflight_schedule (r : Reg) (v : Word) (s : State) :
    (writeReg r v s).inflight = s.inflight ∧ (writeReg r v s).schedule = s.schedule := by
  obtain ⟨_, _, _, _, _, e⟩ := writeReg_eq r v s
  rw [e]
  exact ⟨rfl, rfl⟩

/-- A register-port write leaves the command in flight, and the moves to come, as they are (R20). -/
theorem portWrite_busy {s : State} (hb : s.inflight ≠ none) {off : BitVec 8} (ha : off.toNat % 4 = 0) (v : Word) :
    ∃ t, portWrite off v s = .next t ∧ t.inflight = s.inflight ∧ t.schedule = s.schedule := by
  cases hr : Reg.ofOffset off with
  | none => exact ⟨s, portWrite_reserved ha hr v s, rfl, rfl⟩
  | some r =>
    rw [← Reg.offset_of_ofOffset hr]
    by_cases hc : r = .cmd
    · subst hc
      exact ⟨_, issueWord_busy hb v, rfl, rfl⟩
    · exact ⟨_, portWrite_reg hc v s, writeReg_inflight_schedule r v s⟩

/-- A move after which the command in flight stays in flight: short of the engine's turn, a `WAIT`, a reset and an
access that the port has no transaction for. -/
def Move.Passes : Move → Prop
  | .engine | .wait | .reset => False
  | .read off | .write off _ => off.toNat % 4 = 0
  | .memWrite .. | .memRead .. => True

theorem takeMove_passes {m : Move} (hm : m.Passes) {s : State} (hb : s.inflight ≠ none) :
    ∃ t, takeMove m s = .next t ∧ t.inflight = s.inflight ∧ t.schedule = s.schedule := by
  cases m with
  | engine | wait | reset => exact hm.elim
  | read off => exact ⟨_, portRead_aligned hm s, rfl, rfl⟩
  | write off v => exact portWrite_busy hb hm v
  | memWrite | memRead => exact ⟨_, rfl, rfl, rfl⟩

/-- Settles O57: by induction on the moves to come; the first engine's turn or `WAIT` ends the command, and so does the
end of the schedule. -/
theorem acceptedCommandsComplete : Obligations.AcceptedCommandsComplete := by
  intro s hb hmoves
  have one {u : State} (hu : u.inflight ≠ none) (he : Manual.engineNext u) :
      ∃ t, core.run 1 u = .next t ∧ t.inflight = none ∧ t.status.done = true := by
    obtain ⟨t, hstep, ht⟩ := step_engine_completes hu he
    exact ⟨t, run_succ hstep 0, ht⟩
  induction hs : s.schedule generalizing s with
  | nil =>
    obtain ⟨t, ht⟩ := one hb (.inl hs)
    exact ⟨1, t, le_rfl, ht⟩
  | cons m rest ih =>
    rw [hs, List.forall_mem_cons] at hmoves
    obtain ⟨⟨hreset, haligned⟩, hrest⟩ := hmoves
    have passes (hm : m.Passes) :
        ∃ n t, n ≤ rest.length + 1 + 1 ∧ core.run n s = .next t ∧ t.inflight = none ∧ t.status.done = true := by
      obtain ⟨u, hu, hfu, hsu⟩ := takeMove_passes hm (s := { s with schedule := rest }) hb
      obtain ⟨n, t, hn, hrun, ht⟩ := ih (s := u) (hfu ▸ hb) (hsu ▸ hrest) hsu
      exact ⟨n + 1, t, by omega, (run_succ ((step_cons hs).trans hu) n).trans hrun, ht⟩
    cases m with
    | engine =>
      obtain ⟨t, ht⟩ := one hb (.inr (by rw [hs]; rfl))
      exact ⟨1, t, by simp, ht⟩
    | wait =>
      have hpoll := poll_eq { s with schedule := rest }
      obtain ⟨t, hrun, ht⟩ := one (u := poll { s with schedule := rest }) (by rw [hpoll]; exact hb)
        (.inr (by rw [hpoll]; exact congrArg List.head? (if_neg hb)))
      exact ⟨2, t, by simp, (run_succ (step_cons hs) 1).trans hrun, ht⟩
    | reset => exact absurd rfl hreset
    | read off => exact passes (haligned off 0 (.inl rfl))
    | write off v => exact passes (haligned off v (.inr rfl))
    | memWrite | memRead => exact passes trivial

end Sys2Proof.Machine
end

section
/-! PROOFS. SWEEP_LED and SWEEP where nothing disturbs what they read and write (spec/42_sweep.md sections 1 and 2): the
bytes of the draw buffer, the residual entries, and that a SWEEP equals its SWEEP_LEDs. -/

namespace Sys2Proof.Machine

/-! ### Several pixels advanced -/

/-- The residual store with the entries of several pixels advanced, in order (R78, R95). -/
def advancedAll (s : State) (c : Setup) (pixels : List Nat) (res : Memory) : Memory :=
  pixels.foldl (fun r i => advanced s c i r) res

@[simp] theorem advancedAll_nil (s : State) (c : Setup) (res : Memory) : advancedAll s c [] res = res := rfl

theorem advancedAll_cons (s : State) (c : Setup) (i : Nat) (is : List Nat) (res : Memory) :
    advancedAll s c (i :: is) res = advancedAll s c is (advanced s c i res) := rfl

theorem advancedAll_append (s : State) (c : Setup) (is js : List Nat) (res : Memory) :
    advancedAll s c (is ++ js) res = advancedAll s c js (advancedAll s c is res) := List.foldl_append ..

theorem advancedAll_wf (s : State) (c : Setup) (pixels : List Nat) {res : Memory} (h : res.wf = true) :
    (advancedAll s c pixels res).wf = true := by
  induction pixels generalizing res with
  | nil => exact h
  | cons i is ih => exact ih (advanced_wf s c i h)

/-- What a pixel's entries become does not depend on how often and when it is advanced. -/
theorem readResidual_advancedAll (s : State) (c : Setup) (pixels : List Nat) {res : Memory} (h : res.wf = true) (j : Nat)
    {ch : Nat} (hch : ch < 3) :
    readResidual (advancedAll s c pixels res) j ch =
      if j ∈ pixels then Manual.leftover s c j ch else readResidual res j ch := by
  induction pixels generalizing res with
  | nil => rfl
  | cons i is ih =>
    rw [advancedAll_cons, ih (advanced_wf s c i h), readResidual_advanced s c i h j hch]
    by_cases hi : j = i
    · simp [hi]
    · simp [hi]

/-! ### The pixels of the LED indices -/

/-- The pixels of the LED indices below `n`, in the order in which SWEEP encodes them (R96, R97). -/
def sweptPixels (c : Setup) (n : Nat) : List Nat := (List.range n).flatMap (ledPixels c)

theorem sweptPixels_succ (c : Setup) (n : Nat) : sweptPixels c (n + 1) = sweptPixels c n ++ ledPixels c n := by
  simp [sweptPixels, List.range_succ]

/-- Strip and LED index are the digits of the pixel's linear index (R48). -/
theorem pixel_inj {c : Setup} {s s' l l' : Nat} (hl : l < c.L) (hl' : l' < c.L) :
    c.pixel s l = c.pixel s' l' ↔ s = s' ∧ l = l' := by
  refine ⟨fun h => ?_, fun h => by rw [h.1, h.2]⟩
  have hmod {s l : Nat} (h : l < c.L) : c.pixel s l % c.L = l := by
    rw [Setup.pixel, Nat.add_comm, Nat.add_mul_mod_self_right, Nat.mod_eq_of_lt h]
  have hdiv {s l : Nat} (h : l < c.L) : c.pixel s l / c.L = s := by
    rw [Setup.pixel, Nat.add_comm, Nat.add_mul_div_right _ _ (by omega), Nat.div_eq_of_lt h, Nat.zero_add]
  exact ⟨by rw [← hdiv (s := s) hl, h, hdiv hl'], by rw [← hmod (s := s) hl, h, hmod hl']⟩

/-- All LED indices together make the pixels of the active strips (R97). -/
theorem mem_sweptPixels {c : Setup} {p : Nat} : p ∈ sweptPixels c c.L ↔ p < c.activeStrips * c.L := by
  simp only [sweptPixels, List.mem_flatMap, List.mem_range, mem_ledPixels]
  constructor
  · rintro ⟨l, hl, s, hs, rfl⟩
    exact pixel_lt hs hl
  · intro h
    have hL : 0 < c.L := Nat.pos_of_ne_zero fun h0 => by simp [h0] at h
    exact ⟨p % c.L, Nat.mod_lt _ hL, p / c.L, Nat.div_lt_of_lt_mul (by rwa [Nat.mul_comm]),
      by rw [Setup.pixel, Nat.mul_comm, Nat.div_add_mod]⟩

/-- Entries of pixels of later LED indices are not yet changed. -/
theorem sweepGroups_residuals_later (p : PortView) (c : Setup) (w : Work) {n l st ch : Nat} (hn : n ≤ l) (hl : l < c.L)
    (hch : ch < 3) :
    readResidual (sweepGroups p c w n).residuals (c.pixel st l) ch = readResidual w.residuals (c.pixel st l) ch := by
  induction n with
  | zero => rfl
  | succ n ih =>
    rw [sweepGroups, ledGroup_residuals, encodeStrips_residuals_outside p c n _ hch, ih (by omega)]
    intro s _ h
    have := ((pixel_inj (by omega) hl).1 h).2
    omega

/-! ### The strips of one LED index -/

/-- The colour words of the first `n` strips at LED index `l` (R79, R95). -/
def stripColours (s : State) (c : Setup) (l n : Nat) : List Colour :=
  (List.range n).map fun st => Manual.colour s c (c.pixel st l)

/-- The pixels of the first `n` strips at LED index `l`. -/
def stripPixels (c : Setup) (l n : Nat) : List Nat := (List.range n).map fun st => c.pixel st l

/-- The encoding of pixel `i` meets only bytes that hold still, and no error (R56, R108), where the command's write
range is the `len` bytes from `base`. -/
def PixelUndisturbed (s : State) (c : Setup) (base : Word) (len i : Nat) : Prop :=
  ∀ a ∈ Manual.encodeReads s c i, (s.portView base len).unstable a = false ∧ Config.busError s.config a = false

section Undisturbed

variable {s : State} {c : Setup} {base : Word} {len l : Nat}

theorem encodePixel_undisturbed (hc : c.coeff.toNat ≤ 0x10000) {i : Nat} (h : PixelUndisturbed s c base len i) {w : Work}
    (hr : ∀ ch, ch < 3 → readResidual w.residuals i ch = readResidual s.residuals i ch) :
    encodePixel (s.portView base len) c i w =
      (Manual.colour s c i, { w with residuals := advanced s c i w.residuals }) := by
  rw [encodePixel_portView hc (fun a ha => (h a ha).1) hr, Work.afterReads_of_no_error fun a ha => (h a ha).2]

theorem encodeStrips_undisturbed (hc : c.coeff.toNat ≤ 0x10000) (hl : l < c.L) {n : Nat}
    (h : ∀ st, st < n → PixelUndisturbed s c base len (c.pixel st l)) {w : Work}
    (hr : ∀ st ch, st < n → ch < 3 →
      readResidual w.residuals (c.pixel st l) ch = readResidual s.residuals (c.pixel st l) ch) :
    encodeStrips (s.portView base len) c l w n =
      (stripColours s c l n, { w with residuals := advancedAll s c (stripPixels c l n) w.residuals }) := by
  induction n with
  | zero => rfl
  | succ n ih =>
    have hn : ∀ ch, ch < 3 →
        readResidual (encodeStrips (s.portView base len) c l w n).2.residuals (c.pixel n l) ch =
          readResidual s.residuals (c.pixel n l) ch := by
      intro ch hch
      rw [encodeStrips_residuals_outside _ c l w hch, hr n ch (Nat.lt_succ_self n) hch]
      intro st hst e
      have := ((pixel_inj hl hl).1 e).1
      omega
    rw [encodeStrips, encodePixel_undisturbed hc (h n (Nat.lt_succ_self n)) hn,
      ih (fun st hst => h st (by omega)) fun st ch hst => hr st ch (by omega)]
    simp only [stripColours, stripPixels, List.range_succ, List.map_append, List.map_cons, List.map_nil,
      advancedAll_append, advancedAll_cons, advancedAll_nil]

/-! ### The six words of one LED index -/

/-- The writes use nothing of the port but its build. -/
theorem writeGroup_config {p q : PortView} (h : q.config = p.config) (base : Word) (out : Vector Word 6) (w : Work) (n : Nat) :
    writeGroup q base out w n = writeGroup p base out w n := by
  induction n with
  | zero => rfl
  | succ n ih => simp only [writeGroup, writeWord, ih, h]

/-- Where no byte of the words is answered with an error, writing them changes memory alone. -/
theorem writeGroup_of_no_error {p : PortView} {base : Word} {n : Nat}
    (h : ∀ k, k < 4 * n → Config.busError p.config (addrAt base k) = false) (out : Vector Word 6) (w : Work) :
    writeGroup p base out w n = { w with mem := (writeGroup p base out w n).mem } := by
  induction n with
  | zero => rfl
  | succ n ih =>
    have hk {b : Nat} (hb : b < 4) : Config.busError p.config (addrAt base (4 * n + b)) = false := h _ (by omega)
    have h0 := hk (b := 0) (by decide)
    rw [writeGroup, ih fun k hk => h k (by omega)]
    simp only [writeWord, addrAt_addrAt, hk (show 1 < 4 by decide), hk (show 2 < 4 by decide), hk (show 3 < 4 by decide),
      Bool.or_false]
    rw [Nat.add_zero] at h0
    rw [h0, Bool.or_false]

/-- What `LedGroup(l)` (R95) finds where nothing disturbs it; the command's write range is the `len` bytes from `base`. -/
structure LedUndisturbed (s : State) (c : Setup) (base : Word) (len l : Nat) (w : Work) : Prop where
  coeff : c.coeff.toNat ≤ 0x10000
  led : l < c.L
  reads : ∀ st, st < c.activeStrips → PixelUndisturbed s c base len (c.pixel st l)
  writes : ∀ k, k < 24 → Config.busError s.config (addrAt (groupAddr c l) k) = false
  /-- None of its pixels is encoded yet. -/
  residuals : ∀ st ch, st < c.activeStrips → ch < 3 →
    readResidual w.residuals (c.pixel st l) ch = readResidual s.residuals (c.pixel st l) ch

theorem LedUndisturbed.encodeStrips_eq {w : Work} (h : LedUndisturbed s c base len l w) :
    encodeStrips (s.portView base len) c l w c.activeStrips =
      (stripColours s c l c.activeStrips, { w with residuals := advancedAll s c (ledPixels c l) w.residuals }) :=
  encodeStrips_undisturbed h.coeff h.led h.reads h.residuals

/-- It writes memory and advances its pixels; nothing is drawn and no error is met. -/
theorem LedUndisturbed.ledGroup_eq {w : Work} (h : LedUndisturbed s c base len l w) :
    ledGroup (s.portView base len) c l w =
      { w with
        mem := (ledGroup (s.portView base len) c l w).mem
        residuals := advancedAll s c (ledPixels c l) w.residuals } := by
  unfold ledGroup
  rw [h.encodeStrips_eq]
  exact writeGroup_of_no_error (fun k hk => h.writes k (by omega)) _ _

/-- The 24 bytes of the LED index are the bit-planes of its colour words (R51, R93). -/
theorem LedUndisturbed.ledGroup_read {w : Work} (h : LedUndisturbed s c base len l w) (hw : w.mem.wf = true) {a : Word}
    (ha : (a - groupAddr c l).toNat < 24) {b : Nat} (hb : b < 8) :
    ((ledGroup (s.portView base len) c l w).mem.read a.toNat).getLsbD b =
      Manual.imageBit s c l (a - groupAddr c l).toNat b := by
  unfold ledGroup
  rw [h.encodeStrips_eq]
  dsimp only
  rw [writeGroup_read _ _ _ (by exact hw) le_rfl, if_pos ha]
  generalize (a - groupAddr c l).toNat = m at ha ⊢
  have hbits := transposedImageIsBitPlanes (fun st => (stripColours s c l c.activeStrips).getD st 0) c.activeStrips
    ⟨m, ha⟩ ⟨b, hb⟩
  dsimp only at hbits
  rw [Vector.getElem?_eq_getElem (by omega), Option.getD_some, hbits, Manual.imageBit]
  have hactive : b < c.activeStrips ↔ b < c.strips.toNat := by
    simp only [Setup.activeStrips, Setup.N]; omega
  by_cases hs : b < c.activeStrips
  · rw [if_pos hs, decide_eq_true (hactive.1 hs), Bool.true_and]
    simp [stripColours, hs, Setup.pixel, Setup.L]
  · rw [if_neg hs, decide_eq_false fun e => hs (hactive.2 e), Bool.false_and]

/-! ### The groups of a sweep -/

/-- What the groups of a SWEEP (R97) find where nothing disturbs them, with that write range. -/
structure SweepUndisturbed (s : State) (c : Setup) (base : Word) (len : Nat) : Prop where
  coeff : c.coeff.toNat ≤ 0x10000
  reads : ∀ st l, st < c.activeStrips → l < c.L → PixelUndisturbed s c base len (c.pixel st l)
  writes : ∀ k, k < 24 * c.L → Config.busError s.config (addrAt c.outBase k) = false

/-- Each LED index in its turn is undisturbed: the ones before it encoded other pixels. -/
theorem SweepUndisturbed.led (h : SweepUndisturbed s c base len) (hl : l < c.L) :
    LedUndisturbed s c base len l (sweepGroups (s.portView base len) c s.startWork l) where
  coeff := h.coeff
  led := hl
  reads st hst := h.reads st l hst hl
  writes k hk := by
    rw [groupAddr, addrAt_addrAt]
    exact h.writes _ (by omega)
  residuals _ _ _ hch := sweepGroups_residuals_later _ c _ le_rfl hl hch

/-- The groups write memory and advance their pixels; nothing is drawn and no error is met. -/
theorem SweepUndisturbed.sweepGroups_eq (h : SweepUndisturbed s c base len) {n : Nat} (hn : n ≤ c.L) :
    sweepGroups (s.portView base len) c s.startWork n =
      { s.startWork with
        mem := (sweepGroups (s.portView base len) c s.startWork n).mem
        residuals := advancedAll s c (sweptPixels c n) s.residuals } := by
  induction n with
  | zero => rfl
  | succ n ih =>
    rw [sweepGroups, (h.led hn).ledGroup_eq, ih (by omega), sweptPixels_succ, advancedAll_append]

/-- LED index and byte of the group are the digits of the offset from OUT_BASE (R50). -/
theorem offset_digits {n : Nat} (hn : 24 * (n + 1) ≤ 2 ^ 32) {a : Word} (ha : (a - c.outBase).toNat < 24 * (n + 1))
    (hg : (a - groupAddr c n).toNat < 24) :
    (a - c.outBase).toNat / 24 = n ∧ (a - c.outBase).toNat % 24 = (a - groupAddr c n).toNat := by
  rw [sub_groupAddr] at hg ⊢
  generalize a - c.outBase = d at ha hg ⊢
  have hd : (d - BitVec.ofNat 32 (24 * n)).toNat = d.toNat - 24 * n := by bv_omega
  have hge : 24 * n ≤ d.toNat := by bv_omega
  omega

/-- Byte by byte the groups written are the bit-planes of the colour words (R50, R51). -/
theorem SweepUndisturbed.sweepGroups_read (h : SweepUndisturbed s c base len) (hw : s.mem.wf = true) {n : Nat}
    (hn : n ≤ c.L) {a : Word} (ha : (a - c.outBase).toNat < 24 * n) {b : Nat} (hb : b < 8) :
    ((sweepGroups (s.portView base len) c s.startWork n).mem.read a.toNat).getLsbD b =
      Manual.imageBit s c ((a - c.outBase).toNat / 24) ((a - c.outBase).toNat % 24) b := by
  have hL := c.L_lt
  induction n with
  | zero => omega
  | succ n ih =>
    rw [sweepGroups]
    by_cases hg : (a - groupAddr c n).toNat < 24
    · rw [(h.led hn).ledGroup_read (sweepGroups_wf _ c hw n) hg hb]
      obtain ⟨hdiv, hmod⟩ := offset_digits (by omega) ha hg
      rw [hdiv, hmod]
    · rw [ledGroup_read_outside _ c n _ hg]
      refine ih (by omega) ?_
      rw [sub_groupAddr] at hg
      generalize a - c.outBase = d at ha hg ⊢
      bv_omega

end Undisturbed

/-! ### The completions -/

theorem pixelUndisturbed_of_undisturbed {i : Instr} {c : Setup} {s : State} (h : Manual.undisturbed i c s) {p : Nat}
    (hp : p ∈ commandPixels i c) :
    PixelUndisturbed s c (writeRange ⟨i, c⟩).1 (writeRange ⟨i, c⟩).2 p := by
  intro a ha
  obtain ⟨hraced, hwrites, herr⟩ := h.1 p (encodes_of_mem_commandPixels hp) a ha
  exact ⟨PortView.unstable_eq_false.2 ⟨hraced, Bool.eq_false_iff.2 (mt (writes_iff ⟨i, c⟩ a).2 hwrites)⟩, herr⟩

theorem ledUndisturbed_of_undisturbed {l : Nat} {c : Setup} {s : State} (hl : c.legalFor s.config (.sweepLed l))
    (h : Manual.undisturbed (.sweepLed l) c s) : LedUndisturbed s c (groupAddr c l) 24 l s.startWork := by
  obtain ⟨-, -, hcoeff, -, -, hled⟩ := hl
  refine ⟨hcoeff, hled, fun st hst => ?_, fun k hk => h.2 _ ?_, fun _ _ _ _ => rfl⟩
  · exact pixelUndisturbed_of_undisturbed h (mem_ledPixels.2 ⟨st, hst, rfl⟩)
  · exact (addrAt_sub (groupAddr c l) (by omega)).trans_lt hk

theorem sweepUndisturbed_of_undisturbed {a : Nat} {c : Setup} {s : State} (hl : c.legalFor s.config (.sweep a))
    (h : Manual.undisturbed (.sweep a) c s) : SweepUndisturbed s c c.outBase (24 * c.L) := by
  have hL := c.L_lt
  obtain ⟨-, -, hcoeff, -⟩ := hl
  refine ⟨hcoeff, fun st l hst hled => ?_, fun k hk => h.2 _ ?_⟩
  · exact pixelUndisturbed_of_undisturbed h (mem_sweepPixels.2 (pixel_lt hst hled))
  · exact (addrAt_sub c.outBase (by omega)).trans_lt hk

/-- The end of a command that drew nothing and met no error (R100): its work is kept. -/
theorem endWork_undisturbed {s : State} {w : Work} {res : Memory}
    (h : w = { s.startWork with mem := w.mem, residuals := res }) (base : Word) (len : Nat) (pixels : List Nat) :
    endWork base len pixels w s =
      { s with
        mem := w.mem
        residuals := res
        inflight := none
        status := Manual.doneStatus s.status
        raced := [] } := by
  have herr : w.err = false := congrArg Work.err h
  have hres : w.residuals = res := congrArg Work.residuals h
  have hdraws : w.draws = s.draws := congrArg Work.draws h
  rw [endWork, if_neg (by rw [herr]; decide), hres, hdraws]
  rfl

theorem completed_sweepLed_of_undisturbed {s : State} {c : Setup} {l : Nat}
    (hf : s.inflight = some { cmd := .sweepLed l, snapshot := c })
    (h : LedUndisturbed s c (groupAddr c l) 24 l s.startWork) :
    completed (.sweepLed l) s =
      { s with
        mem := (ledGroup (s.portView (groupAddr c l) 24) c l s.startWork).mem
        residuals := advancedAll s c (ledPixels c l) s.residuals
        inflight := none
        status := Manual.doneStatus s.status
        raced := [] } := by
  rw [completed, completeSweepLed, State.command_of_inflight hf]
  exact endWork_undisturbed h.ledGroup_eq ..

theorem completed_sweep_of_undisturbed {s : State} {c : Setup} {a : Nat}
    (hf : s.inflight = some { cmd := .sweep a, snapshot := c })
    (h : SweepUndisturbed s c c.outBase (24 * c.L)) :
    completed (.sweep a) s =
      { s with
        mem := (sweepGroups (s.portView c.outBase (24 * c.L)) c s.startWork c.L).mem
        residuals := advancedAll s c (sweptPixels c c.L) s.residuals
        inflight := none
        status := Manual.doneStatus s.status
        raced := [] } := by
  rw [completed, completeSweep, State.command_of_inflight hf]
  exact endWork_undisturbed (h.sweepGroups_eq le_rfl) ..

/-- Settles O17: the group written is the image of the colour words, and its pixels are advanced. -/
theorem sweepLedCompletes : Obligations.SweepLedCompletes := by
  rintro s c l ⟨hm, hf⟩ hl hmem hres hu
  have h := ledUndisturbed_of_undisturbed hl hu
  have hencodes {i : Nat} : Manual.encodes (.sweepLed l) c i ↔ i ∈ ledPixels c l := by
    refine ⟨fun ⟨st, hst, e⟩ => mem_ledPixels.2 ⟨st, ?_, e.symm⟩, fun hi => encodes_of_mem_commandPixels hi⟩
    rwa [Setup.activeStrips_eq hl.1]
  have hread := fun (i : Nat) {ch : Nat} (hch : ch < 3) => readResidual_advancedAll s c (ledPixels c l) hres i hch
  refine ⟨_, _, (exec_engine hm _).trans (congrArg _ (completed_sweepLed_of_undisturbed hf h)), ledGroup_wf _ c l hmem,
    advancedAll_wf s c _ hres, fun a => ?_, fun i ch hch => ⟨fun hi => ?_, fun hi => ?_⟩⟩
  · dsimp only
    split
    next ha => exact fun b hb => h.ledGroup_read hmem ha hb
    next ha => exact ledGroup_read_outside _ c l _ ha
  · exact (hread i hch).trans (if_pos (hencodes.1 hi))
  · exact (hread i hch).trans (if_neg fun hmem => hi (hencodes.2 hmem))

/-- Settles O18: the groups written are the images of the colour words, and the pixels of all LED indices are those of
the active strips. -/
theorem sweepCompletes : Obligations.SweepCompletes := by
  rintro s c a ⟨hm, hf⟩ hl hmem hres hu
  have hL := c.L_lt
  have h := sweepUndisturbed_of_undisturbed hl hu
  refine ⟨_, _, (exec_engine hm _).trans (congrArg _ (completed_sweep_of_undisturbed hf h)), sweepGroups_wf _ c hmem _,
    advancedAll_wf s c _ hres, fun x => ?_, fun i ch hch => ?_⟩
  · dsimp only
    split
    next hx => exact fun b hb => h.sweepGroups_read hmem le_rfl hx hb
    next hx => exact sweepGroups_read_outside _ c _ (by omega) hx
  · have hswept : i ∈ sweptPixels c c.L ↔ i < c.strips.toNat * c.leds.toNat := by
      rw [mem_sweptPixels, Setup.activeStrips_eq hl.1]
      rfl
    have hread := readResidual_advancedAll s c (sweptPixels c c.L) hres i hch
    split
    next hi => exact hread.trans (if_pos (hswept.2 hi))
    next hi => exact hread.trans (if_neg fun hmem => hi (hswept.1 hmem))

/-! ### A SWEEP and its SWEEP_LEDs -/

/-- Two undisturbed runs of `LedGroup(l)` on the same work, from states whose bytes and residual entries read are the
same, do the same, whatever their write ranges are. -/
theorem LedUndisturbed.ledGroup_congr {s u : State} {c : Setup} {base base' : Word} {len len' l : Nat} {w : Work}
    (hs : LedUndisturbed s c base len l w) (hu : LedUndisturbed u c base' len' l w) (hconfig : u.config = s.config)
    (hmem : ∀ st, st < c.activeStrips → ∀ a ∈ Manual.encodeReads s c (c.pixel st l),
      u.mem.read a.toNat = s.mem.read a.toNat) :
    ledGroup (u.portView base' len') c l w = ledGroup (s.portView base len) c l w := by
  have hsat : ∀ st ch, st < c.activeStrips → ch < 3 →
      Manual.saturated u c (c.pixel st l) ch = Manual.saturated s c (c.pixel st l) ch := fun st ch hst hch =>
    saturated_congr (fun a ha => hmem st hst a (mem_encodeReads hch ha))
      ((hu.residuals st ch hst hch).symm.trans (hs.residuals st ch hst hch))
  have hcolours : stripColours u c l c.activeStrips = stripColours s c l c.activeStrips :=
    List.map_congr_left fun st hst => colour_congr (hsat st · (List.mem_range.1 hst))
  have hadvanced : advancedAll u c (ledPixels c l) w.residuals = advancedAll s c (ledPixels c l) w.residuals := by
    refine List.foldl_ext _ _ _ fun r i hi => ?_
    obtain ⟨st, hst, rfl⟩ := mem_ledPixels.1 hi
    have hleft := fun {ch : Nat} (hch : ch < 3) => leftover_congr (hsat st ch hst hch)
    rw [advanced, advanced, hleft (show 0 < 3 by decide), hleft (show 1 < 3 by decide), hleft (show 2 < 3 by decide)]
  unfold ledGroup
  rw [hs.encodeStrips_eq, hu.encodeStrips_eq, hcolours, hadvanced]
  exact writeGroup_config (by exact hconfig) ..

/-- The work of a SWEEP with the registers' configuration after its first `n` LED indices. -/
def sweepWork (s : State) (n : Nat) : Work :=
  sweepGroups (s.portView s.setup.outBase (24 * s.setup.L)) s.setup s.startWork n

/-- The idle block with the first `n` LED indices of a SWEEP from `s` refreshed. -/
def refreshed (s : State) (n : Nat) (mover : Agent) (done : Bool) (schedule : List Move) : State :=
  { s with
    mem := (sweepWork s n).mem
    residuals := (sweepWork s n).residuals
    inflight := none
    status := { s.status with done := done }
    raced := []
    mover := mover
    schedule := schedule }

/-- The block with the SWEEP accepted and the engine moving. -/
def sweepNext (s : State) : State := accept (.sweep 0) { s with schedule := [], mover := .engine }

/-- The block after `n` LED indices, with SWEEP_LED `n` accepted and the engine moving. -/
def sweepLedNext (s : State) (n : Nat) (rest : List Move) : State :=
  accept (.sweepLed n) (refreshed s n .engine true rest)

theorem refreshed_zero {s : State} (hi : s.inflight = none) (hr : s.raced = []) (schedule : List Move) :
    { s with schedule := schedule } = refreshed s 0 s.mover s.status.done schedule := by
  rw [refreshed, ← hi, ← hr]
  rfl

/-- A legal command issued to the idle block, and the engine's turn after it: two steps. -/
theorem run_issue {s : State} {i : Instr} {rest : List Move} (hw : i.WellFormed) (hi : s.inflight = none)
    (hl : s.setup.legalFor s.config i) (hs : s.schedule = Manual.issueAll [i] ++ rest) (n : Nat) :
    core.run (n + 2) s = core.run n (completed i (accept i { s with schedule := rest, mover := .engine })) := by
  have hissue : step s = .next (accept i { s with schedule := .engine :: rest, mover := .host }) := by
    rw [stepRunsTheIssuedCommand.1 s _ _ i hs (decode_encode hw), exec_host rfl, ownChecks_eq_none.2 (by exact hl)]
    simp [issue, State.busy, hi]
  have hcomplete : step (accept i { s with schedule := .engine :: rest, mover := .host }) =
      .next (completed i (accept i { s with schedule := rest, mover := .engine })) :=
    (stepRunsTheCommandInFlight.1 _ _ (.inr rfl) (accept_inflight i _)).trans (exec_engine rfl i)
  rw [run_succ hissue, run_succ hcomplete]

/-- What a SWEEP from `s` needs in order to equal its SWEEP_LEDs. -/
structure SweepReady (s : State) : Prop where
  legal : s.setup.legalFor s.config (.sweep 0)
  undisturbed : SweepUndisturbed s s.setup s.setup.outBase (24 * s.setup.L)

section Refresh

variable {s : State} (h : SweepReady s)
include h

/-- The block with the next SWEEP_LED in flight goes on from the work of the SWEEP so far. -/
theorem SweepReady.startWork_next {n : Nat} (hn : n ≤ s.setup.L) (rest : List Move) :
    (sweepLedNext s n rest).startWork = sweepWork s n := by
  have hwork := h.undisturbed.sweepGroups_eq hn
  have hres : (sweepWork s n).residuals = advancedAll s s.setup (sweptPixels s.setup n) s.residuals :=
    congrArg Work.residuals hwork
  refine Eq.trans ?_ hwork.symm
  rw [← hres]
  rfl

/-- The bytes that the encoding of a pixel reads are not in the draw buffer. -/
theorem SweepReady.outside_of_mem_encodeReads {st l : Nat} (hst : st < s.setup.activeStrips) (hl : l < s.setup.L) {a : Word}
    (ha : a ∈ Manual.encodeReads s s.setup (s.setup.pixel st l)) :
    ¬(a - s.setup.outBase).toNat < 24 * s.setup.L :=
  of_decide_eq_false (PortView.unstable_eq_false.1 (h.undisturbed.reads st l hst hl a ha).1).2

theorem SweepReady.sweepWork_read {n st l : Nat} (hn : n ≤ s.setup.L) (hst : st < s.setup.activeStrips)
    (hl : l < s.setup.L) {a : Word} (ha : a ∈ Manual.encodeReads s s.setup (s.setup.pixel st l)) :
    (sweepWork s n).mem.read a.toNat = s.mem.read a.toNat := by
  have hL := s.setup.L_lt
  have hout := h.outside_of_mem_encodeReads hst hl ha
  exact sweepGroups_read_outside _ _ _ (by omega) (by omega)

/-- The next SWEEP_LED is undisturbed too: its write range is part of the draw buffer. -/
theorem SweepReady.led_next {n : Nat} (hn : n < s.setup.L) (rest : List Move) :
    LedUndisturbed (sweepLedNext s n rest) s.setup (groupAddr s.setup n) 24 n (sweepWork s n) := by
  have hled := h.undisturbed.led hn
  refine ⟨hled.coeff, hn, fun st hst a ha => ?_, hled.writes, fun _ _ _ _ => rfl⟩
  rw [encodeReads_congr (s := s) fun a ha => h.sweepWork_read hn.le hst hn ha] at ha
  obtain ⟨-, herr⟩ := hled.reads st hst a ha
  have hL := s.setup.L_lt
  have hout := h.outside_of_mem_encodeReads hst hn ha
  have hgroup : ¬(a - groupAddr s.setup n).toNat < 24 := by
    rw [sub_groupAddr]
    generalize a - s.setup.outBase = d at hout ⊢
    bv_omega
  exact ⟨PortView.unstable_eq_false.2 ⟨List.not_mem_nil, decide_eq_false hgroup⟩, herr⟩

/-- SWEEP_LED `n` does what the SWEEP does at LED index `n`. -/
theorem SweepReady.completed_sweepLed {n : Nat} (hn : n < s.setup.L) (rest : List Move) :
    completed (.sweepLed n) (sweepLedNext s n rest) = refreshed s (n + 1) .engine true rest := by
  have hstart := h.startWork_next hn.le rest
  have hnext := h.led_next hn rest
  have hwork : ledGroup ((sweepLedNext s n rest).portView (groupAddr s.setup n) 24) s.setup n (sweepWork s n) =
      sweepWork s (n + 1) :=
    (h.undisturbed.led hn).ledGroup_congr hnext rfl fun st hst a ha => h.sweepWork_read hn.le hst hn ha
  have hres := congrArg Work.residuals hnext.ledGroup_eq
  rw [hwork] at hres
  rw [completed_sweepLed_of_undisturbed (c := s.setup) rfl (hstart.symm ▸ hnext), hstart, hwork, refreshed, hres]
  rfl

theorem SweepReady.run_sweepLed {n : Nat} (hn : n < s.setup.L) (mover : Agent) (done : Bool) (rest : List Move)
    (k : Nat) :
    core.run (k + 2) (refreshed s n mover done (Manual.issueAll [.sweepLed n] ++ rest)) =
      core.run k (refreshed s (n + 1) .engine true rest) := by
  have hL := s.setup.L_lt
  obtain ⟨hN, hleds, hcoeff, hout, hgamma⟩ := h.legal
  have hwf : (Instr.sweepLed n).WellFormed := show n < 2 ^ 24 by omega
  have hrun := run_issue (s := refreshed s n mover done (Manual.issueAll [.sweepLed n] ++ rest)) hwf rfl
    ⟨hN, hleds, hcoeff, hout, hgamma, hn⟩ rfl k
  exact hrun.trans (congrArg (core.run k) (h.completed_sweepLed hn rest))

/-- The SWEEP_LEDs `n`, ..., `n + k - 1` in order. -/
theorem SweepReady.run_sweepLeds {k : Nat} (hk : 0 < k) {n : Nat} (hn : n + k ≤ s.setup.L) (mover : Agent) (done : Bool) :
    core.run (2 * k) (refreshed s n mover done (Manual.issueAll ((List.range' n k).map .sweepLed))) =
      .next (refreshed s (n + k) .engine true []) := by
  induction k generalizing n mover done with
  | zero => cases hk
  | succ k ih =>
    refine (h.run_sweepLed (by omega) mover done (Manual.issueAll ((List.range' (n + 1) k).map .sweepLed)) (2 * k)).trans ?_
    rcases Nat.eq_zero_or_pos k with rfl | hpos
    · rfl
    · rw [show n + (k + 1) = n + 1 + k by omega]
      exact ih hpos (by omega) .engine true

/-- The SWEEP as one command. -/
theorem SweepReady.completed_sweep (hr : s.raced = []) :
    completed (.sweep 0) (sweepNext s) = refreshed s s.setup.L .engine true [] := by
  have hport : (sweepNext s).portView s.setup.outBase (24 * s.setup.L) =
      s.portView s.setup.outBase (24 * s.setup.L) := by
    rw [State.portView, State.portView, State.racedAddrs, State.racedAddrs, hr]
    rfl
  have hnext : SweepUndisturbed (sweepNext s) s.setup s.setup.outBase (24 * s.setup.L) := by
    refine ⟨h.undisturbed.coeff, fun st l hst hl a ha => ?_, h.undisturbed.writes⟩
    rw [hport]
    exact h.undisturbed.reads st l hst hl a ha
  have hwork : sweepGroups ((sweepNext s).portView s.setup.outBase (24 * s.setup.L)) s.setup (sweepNext s).startWork
      s.setup.L = sweepWork s s.setup.L := by
    rw [hport]
    rfl
  have hres := congrArg Work.residuals (hnext.sweepGroups_eq le_rfl)
  rw [hwork] at hres
  rw [completed_sweep_of_undisturbed (c := s.setup) rfl hnext, hwork, refreshed, hres]
  rfl

theorem SweepReady.run_sweep (hi : s.inflight = none) (hr : s.raced = []) :
    core.run 2 { s with schedule := Manual.issueAll [.sweep 0] } = .next (refreshed s s.setup.L .engine true []) := by
  have hrun := run_issue (s := { s with schedule := Manual.issueAll [.sweep 0] }) (rest := [])
    (show (Instr.sweep 0).WellFormed by decide) hi h.legal rfl 0
  exact hrun.trans (congrArg Host.Outcome.next (h.completed_sweep hr))

end Refresh

/-- Settles O24: SWEEP_LED `n` goes on where the SWEEP is after its first `n` LED indices. -/
theorem sweepEqualsItsSweepLeds : Obligations.SweepEqualsItsSweepLeds := by
  intro s t u hinv hi hl hund ht hu
  have hr : s.raced = [] := (State.engineInv_idle hi).1 hinv.engine
  have h : SweepReady s := ⟨hl, sweepUndisturbed_of_undisturbed hl hund⟩
  obtain ⟨-, ⟨hpos, -⟩, -⟩ := hl
  have hleds := h.run_sweepLeds (n := 0) hpos (by omega) s.mover s.status.done
  rw [← refreshed_zero hi hr, ← List.range_eq_range', Nat.zero_add] at hleds
  exact Host.Outcome.next.inj ((ht.symm.trans (h.run_sweep hi hr)).trans (hleds.symm.trans hu))

end Sys2Proof.Machine
end

section
/-! PROOFS. The write of a command word to CMD (spec/60_exceptions.md section 1): the checks in their order, acceptance,
rejection, and the life of an error once it is recorded. -/

namespace Sys2Proof.Machine

/-! ### No command stops the machine -/

/-- Settles O7: both halves of a command answer a next state. -/
theorem everyCommandHasANextState : Obligations.EveryCommandHasANextState := by
  intro i s
  cases h : s.mover with
  | host => exact ⟨_, exec_host h i⟩
  | engine => exact ⟨_, exec_engine h i⟩

/-! ### The order of the checks -/

/-- The fields of a word that decodes, as digits of the word (R62). -/
theorem digits_of_decode {w : Word} {i : Instr} (h : decode w = .ok i) :
    w.toNat % 16 = i.opcode.toNat ∧ w.toNat / 16 % 16 = 0 ∧ w.toNat / 256 = i.arg := by
  obtain ⟨hrsv, hc⟩ := decode_eq_ok_iff.1 h
  exact ⟨((commandOf_opcode hc).trans (opField_toNat w)).symm, hrsv, ((commandOf_arg hc).trans (argField_eq w)).symm⟩

/-- While BUSY no check comes before BUSY (R105). -/
theorem firstError_busy {s : State} (h : s.inflight ≠ none) (w : Word) : Manual.firstError s w = some .busy :=
  if_pos h

/-- An idle block first checks that the word is a command (R66, R105). -/
theorem firstError_illegal {s : State} (h : s.inflight = none) {w : Word} {e : DecodeError} (hd : decode w = .error e) :
    Manual.firstError s w = some .illegalCmd := by
  have hr := decode_eq_error_iff.1 hd
  rw [Manual.firstError, if_neg (not_not.2 h), if_pos (by omega)]

/-- For a command given to an idle block, the pseudocode of R105 is the command's own checks in their order. -/
theorem firstError_legal {s : State} (h : s.inflight = none) {w : Word} {i : Instr} (hd : decode w = .ok i) :
    Manual.firstError s w = ownChecks i s := by
  obtain ⟨hop, hrsv, harg⟩ := digits_of_decode hd
  rw [Manual.firstError, hop, hrsv, harg]
  cases i with
  | nop => simp only [h, ownChecks, Instr.opcode]; grind
  | transpose => simp only [h, ownChecks, transposeChecks, checkStrips_eq, Instr.opcode, Setup.N]; grind
  | sweep => simp only [h, ownChecks, sweepChecks_eq, Instr.opcode, Setup.N, Setup.L]; grind
  | sweepLed => simp only [h, ownChecks, sweepLedChecks_eq, Instr.opcode, Instr.arg, Setup.N, Setup.L]; grind
  | encode => simp only [h, ownChecks, encodeChecks_eq, Instr.opcode, Instr.arg, Setup.N, Setup.L]; grind

/-! ### What a write to CMD does -/

theorem State.not_busy {s : State} (h : s.inflight = none) : ¬s.busy = true :=
  Bool.eq_false_iff.1 (State.busy_eq_false.2 h)

/-- The checks do not see whose half of a command is performed. -/
theorem ownChecks_mover (i : Instr) (s : State) (mover : Agent) :
    ownChecks i { s with mover := mover } = ownChecks i s := by
  cases i <;> rfl

/-- A word for which a check fails records the first such error, and nothing else happens (R105, R106). -/
theorem issueWord_of_failing {s : State} {w : Word} {e : ErrCode} (he : Manual.firstError s w = some e) :
    issueWord w s = .next (recordError e { s with mover := .host }) := by
  by_cases hi : s.inflight = none
  · cases hd : decode w with
    | error d =>
      have hcode := (firstError_illegal hi hd).symm.trans he
      cases hcode
      rw [issueWord_of_error hd, rejectIllegal, if_neg (State.not_busy (by exact hi))]
    | ok i =>
      have hcheck := (firstError_legal hi hd).symm.trans he
      rw [issueWord_of_decode hd, exec_host rfl, ownChecks_mover, hcheck, issue, if_neg (State.not_busy (by exact hi))]
  · have hcode := (firstError_busy hi w).symm.trans he
    cases hcode
    exact issueWord_busy hi w

/-- A word for which no check fails finds an idle block and is accepted as the command it decodes to (R105). -/
theorem issueWord_of_none_failing {s : State} {w : Word} (he : Manual.firstError s w = none) :
    s.inflight = none ∧ ∃ i, decode w = .ok i ∧ issueWord w s = .next (accept i { s with mover := .host }) := by
  by_cases hi : s.inflight = none
  · cases hd : decode w with
    | error d => cases (firstError_illegal hi hd).symm.trans he
    | ok i =>
      have hcheck := (firstError_legal hi hd).symm.trans he
      refine ⟨hi, i, rfl, ?_⟩
      rw [issueWord_of_decode hd, exec_host rfl, ownChecks_mover, hcheck, issue, if_neg (State.not_busy (by exact hi))]
  · cases (firstError_busy hi w).symm.trans he

/-- The error of a rejection is a code of the table (R104). -/
theorem firstError_ne_none {s : State} {w : Word} {e : ErrCode} (he : Manual.firstError s w = some e) : e ≠ .none := by
  rintro rfl
  by_cases hi : s.inflight = none
  · cases hd : decode w with
    | error d => cases (firstError_illegal hi hd).symm.trans he
    | ok i => exact ownChecks_ne_none ((firstError_legal hi hd).symm.trans he) rfl
  · cases (firstError_busy hi w).symm.trans he

/-- The step of a write to CMD for which a check fails. -/
theorem step_write_cmd_of_failing {s : State} {w : Word} {rest : List Move} (hs : s.schedule = .write 0x10 w :: rest)
    {e : ErrCode} (he : Manual.firstError s w = some e) :
    step s = .next { s with schedule := rest, mover := .host, status := Manual.recordedStatus e s.status } := by
  rw [step_write_cmd hs, issueWord_of_failing (by exact he), recordedStatus_eq]
  rfl

/-- Settles O9: by whether a check fails. -/
theorem commandWriteIsCheckedInOrder : Obligations.CommandWriteIsCheckedInOrder := by
  intro s w rest hs
  cases he : Manual.firstError s w with
  | some e => exact step_write_cmd_of_failing hs he
  | none =>
    rw [step_write_cmd hs]
    exact (issueWord_of_none_failing (s := { s with schedule := rest }) he).2

/-- Settles O10: the checks pass exactly when the configuration is legal. -/
theorem everyCommandIsAcceptedWhenLegal : Obligations.EveryCommandIsAcceptedWhenLegal := by
  intro i s hm hi hl
  rw [exec_host hm, ownChecks_eq_none.2 hl, issue, if_neg (State.not_busy (by exact hi))]
  rfl

/-- Settles O11: a write that puts nothing new in flight was not accepted, so a check failed. -/
theorem rejectionDoesNoWork : Obligations.RejectionDoesNoWork := by
  intro s t w rest hs hrejected ht
  cases he : Manual.firstError s w with
  | some e =>
    rw [step_write_cmd_of_failing hs he] at ht
    cases ht
    exact ⟨e, firstError_ne_none he, rfl, recordedStatus_eq e s.status ▸ Status.recorded_done e s.status⟩
  | none =>
    obtain ⟨hidle, i, -, haccept⟩ := issueWord_of_none_failing (s := { s with schedule := rest }) he
    rw [step_write_cmd hs, haccept] at ht
    cases ht
    rcases hrejected with hbusy | hnothing
    · exact absurd hidle hbusy
    · cases hnothing

/-! ### The life of a recorded error -/

/-- STATUS `u` still holds what `t` holds of an error: the flags, and the code beside ERR (R107). -/
structure Status.KeepsError (t u : Status) : Prop where
  err : t.err = true → u.err = true
  errOvf : t.errOvf = true → u.errOvf = true
  errCode : t.err = true → u.errCode = t.errCode

/-- No error stands in STATUS: ERR, ERR_OVF and ERRCODE are all clear (R107). -/
structure Status.ErrorsClear (t : Status) : Prop where
  err : t.err = false
  errOvf : t.errOvf = false
  errCode : t.errCode = .none

theorem Status.KeepsError.of_eq {t u : Status} (he : u.err = t.err) (ho : u.errOvf = t.errOvf)
    (hc : u.errCode = t.errCode) : t.KeepsError u :=
  ⟨fun h => he.trans h, fun h => ho.trans h, fun _ => hc⟩

/-- The first error stays, and the overflow of a second one is added (R107). -/
theorem Status.keepsError_recorded (e : ErrCode) (t : Status) : t.KeepsError (t.recorded e) := by
  cases ht : t.err with
  | false => rw [Status.recorded_of_clear e ht]; exact ⟨fun _ => rfl, id, fun h => absurd h (by simp [ht])⟩
  | true => rw [Status.recorded_of_set e ht]; exact ⟨id, fun _ => rfl, fun _ => rfl⟩

/-- A write of STATUS clears all three with bit 2 and none without it (R26). -/
theorem Status.written_error (v : Word) (t : Status) :
    t.KeepsError (t.written v) ∨ v.getLsbD 2 = true ∧ (t.written v).ErrorsClear := by
  unfold Status.written
  cases v.getLsbD 2 with
  | false => exact .inl (.of_eq (Bool.and_true _) (Bool.and_true _) rfl)
  | true => exact .inr ⟨rfl, Bool.and_false _, Bool.and_false _, rfl⟩

theorem issue_keepsError (i : Instr) (failing : Option ErrCode) {s u : State} (h : u.status = s.status) :
    s.status.KeepsError (issue i failing u).status := by
  rw [← h]
  rcases issue_cases i failing u with ⟨-, e⟩ | ⟨-, _, -, e⟩ | ⟨-, -, e⟩ <;> rw [e]
  · exact Status.keepsError_recorded _ _
  · exact Status.keepsError_recorded _ _
  · exact .of_eq rfl rfl rfl

/-- A completion sets DONE, and at most records BUS_ERR. -/
theorem completed_keepsError (i : Instr) {s u : State} (h : u.status = s.status) :
    s.status.KeepsError (completed i u).status := by
  rw [← h]
  rcases (completed_frame i u).1.status with e | ⟨e, -⟩ <;> rw [e]
  · exact .of_eq rfl rfl rfl
  · obtain ⟨herr, hovf, hcode⟩ := Status.keepsError_recorded .busErr u.status
    exact ⟨herr, hovf, hcode⟩

/-- No register write but that of STATUS reaches STATUS. -/
theorem writeReg_status_of_ne {r : Reg} (hr : r ≠ .status) (v : Word) (s : State) :
    (writeReg r v s).status = s.status := by
  cases r with
  | status => exact absurd rfl hr
  | id | cap | cmd | result | xout | ctrl => rfl
  | coeff | leds | strips | prevBase | nextBase | outBase | gammaBase | xin =>
    rw [writeReg]
    rcases unlessBusy_cases s _ with h | h <;> rw [h]

/-- A register write keeps the error or is the write of STATUS that clears it (R26). -/
theorem writeReg_error (r : Reg) (v : Word) {s u : State} (h : u.status = s.status) :
    s.status.KeepsError (writeReg r v u).status ∨
      (r = .status ∧ v.getLsbD 2 = true) ∧ (writeReg r v u).status.ErrorsClear := by
  by_cases hr : r = .status
  · subst hr
    rw [writeReg, h]
    rcases Status.written_error v s.status with hkeep | ⟨hv, hclear⟩
    · exact .inl hkeep
    · exact .inr ⟨⟨rfl, hv⟩, hclear⟩
  · rw [writeReg_status_of_ne hr, h]
    exact .inl (.of_eq rfl rfl rfl)

/-- A recorded error outlives every step but the host's write of STATUS with bit 2 and a reset, and those clear all of
it (R107). -/
theorem step_keepsError {s t : State} (h : step s = .next t) :
    s.status.KeepsError t.status ∨
    ((∃ v : Word, v.getLsbD 2 = true ∧ s.schedule.head? = some (.write 0x0C v)) ∨ s.schedule.head? = some .reset) ∧
      t.status.ErrorsClear := by
  rcases step_cases h with ⟨-, -, rfl⟩ | ⟨f, -, -, rfl⟩ | ⟨w, rest, -, ⟨i, -, rfl⟩ | ⟨-, rfl⟩⟩ |
    ⟨r, v, rest, -, hs, rfl⟩ | ⟨off, v, rest, -, -, rfl⟩ | ⟨off, rest, -, rfl⟩ | ⟨rest, -, rfl⟩ |
    ⟨width, a, v, rest, -, rfl⟩ | ⟨width, a, rest, -, rfl⟩ | ⟨rest, hs, rfl⟩
  · exact .inl (.of_eq rfl rfl rfl)
  · exact .inl (completed_keepsError f.cmd rfl)
  · exact .inl (issue_keepsError i _ rfl)
  · exact .inl (Status.keepsError_recorded _ _)
  · rcases writeReg_error r v (s := s) (u := { s with schedule := rest }) rfl with hkeep | ⟨⟨rfl, hv⟩, hclear⟩
    · exact .inl hkeep
    · exact .inr ⟨.inl ⟨v, hv, by rw [hs]; rfl⟩, hclear⟩
  · exact .inl (.of_eq rfl rfl rfl)
  · exact .inl (.of_eq rfl rfl rfl)
  · exact .inl (.of_eq rfl rfl rfl)
  · exact .inl (.of_eq rfl rfl rfl)
  · exact .inl (.of_eq rfl rfl rfl)
  · exact .inr ⟨.inr (by rw [hs]; rfl), rfl, rfl, rfl⟩

/-- Settles O50: a recording is R107's, and a step that loses any part of an error is one of the two that clear all. -/
theorem errorsAreClearedByTheHostOnly : Obligations.ErrorsAreClearedByTheHostOnly := by
  refine ⟨fun e s => by rw [recordedStatus_eq]; rfl, fun s t h hlost => ?_⟩
  rcases step_keepsError h with ⟨herr, hovf, hcode⟩ | ⟨hcause, herr, hovf, hcode⟩
  · rcases hlost with ⟨hs, ht⟩ | ⟨hs, ht⟩ | ⟨hs, ht⟩
    · exact absurd (herr hs) (by simp [ht])
    · exact absurd (hovf hs) (by simp [ht])
    · exact absurd (hcode hs) ht
  · exact ⟨hcause, herr, hovf, hcode⟩

end Sys2Proof.Machine
end

section
/-! PROOFS. Commands that meet a bus error (spec/60_exceptions.md section 1): which accesses are answered with an error,
whatever else the command met before, and the end that R108 gives such a command. -/

namespace Sys2Proof.Machine

/-! ### An error once met stays -/

theorem gammaLookup_err_mono (p : PortView) (c : Setup) (ch : Nat) (lin : BitVec 16) {w : Work} (h : w.err = true) :
    (gammaLookup p c ch lin w).2.err = true := by
  unfold gammaLookup
  cases c.gmode with
  | direct => simp [gammaDirect, gammaEntry, h]
  | interp257 => simp [gammaInterp, gammaEntry, h]

/-- A channel's encoding ends in an error that came before it or that one of its two framebuffer bytes is answered
with. -/
theorem encodeChannel_err (p : PortView) (c : Setup) (i ch : Nat) {w : Work}
    (h : w.err = true ∨ Config.busError p.config (channelAddr c.prevBase i ch) = true ∨
      Config.busError p.config (channelAddr c.nextBase i ch) = true) :
    (encodeChannel p c i ch w).2.err = true := by
  refine gammaLookup_err_mono p c ch _ ?_
  simpa [or_assoc] using h

theorem encodePixel_err_mono (p : PortView) (c : Setup) (i : Nat) {w : Work} (h : w.err = true) :
    (encodePixel p c i w).2.err = true :=
  encodeChannel_err p c i 2 (.inl (encodeChannel_err p c i 1 (.inl (encodeChannel_err p c i 0 (.inl h)))))

theorem encodeStrips_err_mono (p : PortView) (c : Setup) (l : Nat) {w : Work} (h : w.err = true) (n : Nat) :
    (encodeStrips p c l w n).2.err = true := by
  induction n with
  | zero => exact h
  | succ n ih => exact encodePixel_err_mono p c _ ih

/-! ### The accesses that meet one -/

/-- The encoding of pixel `i` meets an error through this port, whatever the command did before. -/
def PixelMeetsError (p : PortView) (c : Setup) (i : Nat) : Prop := ∀ w, (encodePixel p c i w).2.err = true

/-- The framebuffer bytes of a pixel are always read (R80). -/
theorem pixelMeetsError_of_framebuffer {p : PortView} {c : Setup} {i ch : Nat} (hch : ch < 3)
    (h : Config.busError p.config (channelAddr c.prevBase i ch) = true ∨
      Config.busError p.config (channelAddr c.nextBase i ch) = true) : PixelMeetsError p c i := by
  intro w
  obtain rfl | rfl | rfl : ch = 0 ∨ ch = 1 ∨ ch = 2 := by omega
  · exact encodeChannel_err p c i 2 (.inl (encodeChannel_err p c i 1 (.inl (encodeChannel_err p c i 0 (.inr h)))))
  · exact encodeChannel_err p c i 2 (.inl (encodeChannel_err p c i 1 (.inr h)))
  · exact encodeChannel_err p c i 2 (.inr h)

/-- Where all bytes that the encoding of a pixel reads hold still, these bytes are those of R80, whatever the residual
entries are. -/
theorem pixelMeetsError_of_stable_reads {s : State} {c : Setup} {base : Word} {len i : Nat} (hc : c.coeff.toNat ≤ 0x10000)
    (hstable : ∀ a ∈ Manual.encodeReads s c i, (s.portView base len).unstable a = false) {x : Word}
    (hx : x ∈ Manual.encodeReads s c i) (herr : Config.busError s.config x = true) :
    PixelMeetsError (s.portView base len) c i := by
  intro w
  have hpixel := encodePixel_portView (s := { s with residuals := w.residuals }) (w := w) hc hstable fun _ _ => rfl
  have hany : (Manual.encodeReads s c i).any (Config.busError s.config) = true := List.any_eq_true.2 ⟨x, hx, herr⟩
  calc (encodePixel (s.portView base len) c i w).2.err
      = (w.err || (Manual.encodeReads s c i).any (Config.busError s.config)) := congrArg (fun e => e.2.err) hpixel
    _ = true := by rw [hany, Bool.or_true]

theorem encodeStrips_err {p : PortView} {c : Setup} {l st n : Nat} (hst : st < n)
    (h : PixelMeetsError p c (c.pixel st l)) (w : Work) : (encodeStrips p c l w n).2.err = true := by
  induction n with
  | zero => omega
  | succ n ih =>
    rcases Nat.lt_succ_iff_lt_or_eq.1 hst with hlt | rfl
    · exact encodePixel_err_mono p c _ (ih hlt)
    · exact h _

/-- One erring byte fails the write of its word (log 4). -/
theorem writeGroup_err {p : PortView} {base : Word} {k n : Nat} (hk : k < 4 * n)
    (h : Config.busError p.config (addrAt base k) = true) (out : Vector Word 6) (w : Work) :
    (writeGroup p base out w n).err = true := by
  induction n with
  | zero => omega
  | succ n ih =>
    by_cases hlt : k < 4 * n
    · simp [writeGroup, writeWord, ih hlt]
    · obtain rfl | rfl | rfl | rfl : k = 4 * n ∨ k = 4 * n + 1 ∨ k = 4 * n + 2 ∨ k = 4 * n + 3 := by omega
      all_goals simp [writeGroup, writeWord, addrAt_addrAt, h]

/-- LED index `l` meets an error in one of its pixels or in one of its 24 bytes of the draw buffer. -/
def LedMeetsError (p : PortView) (c : Setup) (l : Nat) : Prop :=
  (∃ st, st < c.activeStrips ∧ PixelMeetsError p c (c.pixel st l)) ∨
    ∃ k, k < 24 ∧ Config.busError p.config (addrAt (groupAddr c l) k) = true

theorem LedMeetsError.ledGroup_err {p : PortView} {c : Setup} {l : Nat} (h : LedMeetsError p c l) (w : Work) :
    (ledGroup p c l w).err = true := by
  rcases h with ⟨st, hst, hpixel⟩ | ⟨k, hk, hbyte⟩
  · exact writeGroup_err_mono p _ _ (encodeStrips_err hst hpixel w) 6
  · exact writeGroup_err hk hbyte _ _

theorem LedMeetsError.sweepGroups_err {p : PortView} {c : Setup} {l n : Nat} (hl : l < n) (h : LedMeetsError p c l)
    (w : Work) : (sweepGroups p c w n).err = true := by
  induction n with
  | zero => omega
  | succ n ih =>
    rcases Nat.lt_succ_iff_lt_or_eq.1 hl with hlt | rfl
    · exact ledGroup_err_mono p c n (ih hlt)
    · exact h.ledGroup_err _

/-! ### The completions -/

/-- The end of a command that met an error (R108). -/
theorem endWork_of_error {w : Work} (h : w.err = true) (base : Word) (len : Nat) (pixels : List Nat) (s : State) :
    endWork base len pixels w s =
      { s with
        mem := (endWork base len pixels w s).mem
        residuals := (endWork base len pixels w s).residuals
        draws := (endWork base len pixels w s).draws
        inflight := none
        status := Manual.doneStatus (Manual.recordedStatus .busErr s.status)
        busFault := true
        raced := [] } := by
  rw [endWork, if_pos h, recordedStatus_eq]
  rfl

/-- Residual entries of pixels that the command does not encode do not change, bus faults included (R108). -/
theorem completed_residuals_of_not_encodes {i : Instr} {s : State} {c : Setup}
    (hf : s.inflight = some { cmd := i, snapshot := c }) {p ch : Nat} (hch : ch < 3) (hp : ¬Manual.encodes i c p) :
    (completed i s).residuals.read (3 * p + ch) = s.residuals.read (3 * p + ch) := by
  refine completed_residuals_outside hch fun hmem => hp (encodes_of_mem_commandPixels ?_)
  rwa [State.command_of_inflight hf] at hmem

/-- Settles O20: the erring byte is among those that the encoding reads. -/
theorem encodeBusFaultIsRecorded : Obligations.EncodeBusFaultIsRecorded := by
  rintro s c i ⟨hm, hf⟩ hc hraced ⟨x, hx, herr⟩
  have hpixel : PixelMeetsError (s.portView c.outBase 0) c i :=
    pixelMeetsError_of_stable_reads hc (fun a ha => portView_unstable_of_empty_range (hraced a ha)) hx herr
  refine ⟨_, exec_engine hm _, ?_, fun j ch hj hch => completed_residuals_of_not_encodes hf hch hj⟩
  rw [completed, completeEncode, State.command_of_inflight hf]
  dsimp only
  rw [if_pos (hpixel _), endWork, if_pos (hpixel _), recordedStatus_eq]
  rfl

/-- The pixel's encoding meets the error of a byte that it reads for certain: a framebuffer byte, or any byte where all
that it reads hold still (R56). -/
theorem pixelMeetsError_of_read {i : Instr} {s : State} {c : Setup} {x : Word} (hc : c.coeff.toNat ≤ 0x10000)
    (herr : Config.busError s.config x = true) {p : Nat}
    (h : (∃ ch, ch < 3 ∧ (x = Manual.fbAddr c.prevBase p ch ∨ x = Manual.fbAddr c.nextBase p ch)) ∨
      x ∈ Manual.encodeReads s c p ∧ ∀ a ∈ Manual.encodeReads s c p, a.toNat ∉ s.racedAddrs ∧ ¬Manual.writes i c a) :
    PixelMeetsError (s.portView (writeRange ⟨i, c⟩).1 (writeRange ⟨i, c⟩).2) c p := by
  rcases h with ⟨ch, hch, hfb⟩ | ⟨hx, hquiet⟩
  · refine pixelMeetsError_of_framebuffer hch ?_
    rcases hfb with rfl | rfl
    · exact .inl herr
    · exact .inr herr
  · refine pixelMeetsError_of_stable_reads hc (fun a ha => ?_) hx herr
    obtain ⟨hraced, hwrites⟩ := hquiet a ha
    exact PortView.unstable_eq_false.2 ⟨hraced, Bool.eq_false_iff.2 (mt (writes_iff ⟨i, c⟩ a).2 hwrites)⟩

/-- SWEEP_LED meets an error in its group when one of its pixels or a byte that it writes does. -/
theorem ledMeetsError_of_sweepLed {p : PortView} {c : Setup} {l : Nat} (hN : 1 ≤ c.N ∧ c.N ≤ 8)
    (h : (∃ x, Manual.writes (.sweepLed l) c x ∧ Config.busError p.config x = true) ∨
      ∃ i, Manual.encodes (.sweepLed l) c i ∧ PixelMeetsError p c i) : LedMeetsError p c l := by
  rcases h with ⟨x, hx, herr⟩ | ⟨_, ⟨st, hst, rfl⟩, hpixel⟩
  · exact .inr ⟨_, hx, eq_addrAt (groupAddr c l) x ▸ herr⟩
  · exact .inl ⟨st, (Setup.activeStrips_eq hN).symm ▸ hst, hpixel⟩

/-- SWEEP meets an error in the group of the erring pixel or byte. -/
theorem ledMeetsError_of_sweep {p : PortView} {c : Setup} {a : Nat} (hN : 1 ≤ c.N ∧ c.N ≤ 8)
    (h : (∃ x, Manual.writes (.sweep a) c x ∧ Config.busError p.config x = true) ∨
      ∃ i, Manual.encodes (.sweep a) c i ∧ PixelMeetsError p c i) : ∃ l, l < c.L ∧ LedMeetsError p c l := by
  rcases h with ⟨x, hx, herr⟩ | ⟨i, hi, hpixel⟩
  · have hx : (x - c.outBase).toNat < 24 * c.L := hx
    refine ⟨(x - c.outBase).toNat / 24, by omega, .inr ⟨(x - c.outBase).toNat % 24, by omega, ?_⟩⟩
    rw [groupAddr, addrAt_addrAt, Nat.div_add_mod, ← eq_addrAt]
    exact herr
  · have hi : i < c.N * c.L := hi
    have hL : 0 < c.L := Nat.pos_of_ne_zero fun h0 => by simp [h0] at hi
    refine ⟨i % c.L, Nat.mod_lt _ hL, .inl ⟨i / c.L, ?_, ?_⟩⟩
    · rw [Setup.activeStrips_eq hN]
      exact Nat.div_lt_of_lt_mul (Nat.mul_comm .. ▸ hi)
    · rw [Setup.pixel, Nat.div_add_mod']
      exact hpixel

/-- Settles O21: the erring byte lies in the group of an LED index that the command refreshes. -/
theorem sweepBusFaultIsRecorded : Obligations.SweepBusFaultIsRecorded := by
  rintro i s c x ⟨k, hi⟩ ⟨hm, hf⟩ hl herr hcause
  refine ⟨_, exec_engine hm i, ?_, fun a ha => completed_read_outside hf ha,
    fun p ch hch hp => completed_residuals_of_not_encodes hf hch hp⟩
  have hmeets (hc : c.coeff.toNat ≤ 0x10000) : (∃ x, Manual.writes i c x ∧ Config.busError s.config x = true) ∨
      ∃ p, Manual.encodes i c p ∧ PixelMeetsError (s.portView (writeRange ⟨i, c⟩).1 (writeRange ⟨i, c⟩).2) c p := by
    rcases hcause with hw | ⟨p, ch, hp, hch, hfb⟩ | ⟨p, hp, hread⟩
    · exact .inl ⟨x, hw, herr⟩
    · exact .inr ⟨p, hp, pixelMeetsError_of_read hc herr (.inl ⟨ch, hch, hfb⟩)⟩
    · exact .inr ⟨p, hp, pixelMeetsError_of_read hc herr (.inr hread)⟩
  rcases hi with rfl | rfl
  · obtain ⟨hN, -, hc, -⟩ := hl
    obtain ⟨l, hlt, hled⟩ := ledMeetsError_of_sweep (p := s.portView c.outBase (24 * c.L)) hN (hmeets hc)
    rw [completed, completeSweep, State.command_of_inflight hf]
    exact endWork_of_error (hled.sweepGroups_err hlt _) ..
  · obtain ⟨hN, -, hc, -⟩ := hl
    rw [completed, completeSweepLed, State.command_of_inflight hf]
    exact endWork_of_error ((ledMeetsError_of_sweepLed hN (hmeets hc)).ledGroup_err _) ..

end Sys2Proof.Machine
end

section
/-! PROOFS. The reset input (spec/70_reset_and_hazards.md section 1): what the window reads after it, what it leaves in
memory, and what a command word meets next. -/

namespace Sys2Proof.Machine

/-! ### The block after reset -/

/-- Settles O56: nothing is stored, no error is recorded, nothing is in flight, and the build has LEDs. -/
theorem resetSatisfiesTheInvariant : Obligations.ResetSatisfiesTheInvariant where
  memWf := rfl
  memBelow := rfl
  residualsWf := rfl
  residualsBelow := rfl
  codeIffErr := iff_of_true rfl rfl
  ovfErr := nofun
  engine := rfl
  build := show (64 : BitVec 16) ≠ 0 by decide

/-- The step of the reset input. -/
theorem step_reset {s : State} {rest : List Move} (hs : s.schedule = .reset :: rest) :
    step s = .next (coldReset { s with schedule := rest }) := step_cons hs

/-- Every register but ID and CAP reads 0 after reset (R116). -/
theorem regValue_coldReset {r : Reg} (hid : r ≠ .id) (hcap : r ≠ .cap) (s : State) :
    regValue r (coldReset s) = 0 := by
  cases r with
  | id => exact absurd rfl hid
  | cap => exact absurd rfl hcap
  | ctrl => exact show State.reset.ctrlWord = 0 by decide
  | status => exact show State.reset.statusWord = 0 by decide
  | xin k =>
    have hxin : ∀ k : Fin 8, State.reset.xin[k].setWidth 32 = 0 := by decide
    exact hxin k
  | xout j =>
    have hxout : ∀ j : Fin 6, State.reset.xout[j] = 0 := by decide
    exact hxout j
  | _ => rfl

/-- Every offset but those of ID and CAP reads 0 after reset (R19, R116). -/
theorem windowValue_coldReset {off : BitVec 8} (hid : off ≠ 0x00) (hcap : off ≠ 0x04) (s : State) :
    windowValue off (coldReset s) = 0 := by
  cases hr : Reg.ofOffset off with
  | none => exact windowValue_reserved hr _
  | some r =>
    have ho := Reg.offset_of_ofOffset hr
    rw [windowValue_of_ofOffset hr]
    exact regValue_coldReset (by rintro rfl; exact hid ho.symm) (by rintro rfl; exact hcap ho.symm) s

/-- Settles O58: the window offset by offset; the rest of the state is that of `State.reset`, and the mark is kept. -/
theorem resetSetsEveryRegister : Obligations.ResetSetsEveryRegister := fun _ _ hs =>
  ⟨_, step_reset hs, fun _ hid hcap => windowValue_coldReset hid hcap _,
    rfl, rfl, fun _ _ => rfl, rfl, rfl, rfl, rfl, rfl⟩

/-! ### Memory after a reset -/

/-- A reset that is next ends the command now: no further byte is raced before its end (R56, R117). -/
theorem memoryIfCompleted_of_reset_next {s : State} {rest : List Move} (hs : s.schedule = .reset :: rest) :
    memoryIfCompleted { s with schedule := rest } = memoryToCome s := by
  have hraced : racedToCome s.mem s.schedule s.raced = s.raced := by rw [hs]; rfl
  rw [memoryToCome, hraced]
  exact memoryIfCompleted_congr rfl rfl rfl rfl rfl rfl

theorem resetMemory_idle {s : State} (h : s.inflight = none) : resetMemory s = s.mem := by
  unfold resetMemory; rw [h]

theorem resetMemory_busy {s : State} {f : InFlight} (h : s.inflight = some f) :
    resetMemory s = oldOrNew (memoryIfCompleted s) (writeRange f).1 s.choices s.mem (writeRange f).2 := by
  unfold resetMemory; rw [h]

/-- Every write range is shorter than the address space (R55). -/
theorem writeRange_length_le (f : InFlight) : (writeRange f).2 ≤ 2 ^ 32 := by
  have hL := f.snapshot.L_lt
  unfold writeRange
  split <;> dsimp only <;> omega

theorem coldReset_mem (s : State) : (coldReset s).mem = resetMemory s := rfl

/-- What the reset that is next leaves in memory while a command is in flight (R117). -/
theorem coldReset_mem_of_reset_next {s : State} {rest : List Move} (hs : s.schedule = .reset :: rest) {f : InFlight}
    (hf : s.inflight = some f) :
    (coldReset { s with schedule := rest }).mem =
      oldOrNew (memoryToCome s) (writeRange f).1 s.choices s.mem (writeRange f).2 := by
  rw [coldReset_mem, resetMemory_busy (by exact hf), memoryIfCompleted_of_reset_next hs]

/-- Settles O59: idle, memory is kept; in flight, each byte of the write range is chosen, and only those are written. -/
theorem resetLeavesMemoryOldOrNew : Obligations.ResetLeavesMemoryOldOrNew := by
  intro s rest hinv hs
  refine ⟨_, step_reset hs, rfl, rfl, fun hidle => resetMemory_idle (by exact hidle), fun f hf a => ?_⟩
  rw [coldReset_mem_of_reset_next hs hf]
  constructor
  · exact fun _ => oldOrNew_read hinv.memWf ..
  · refine fun hout => oldOrNew_read_outside _ _ _ _ (writeRange_length_le f) fun hin => ?_
    exact hout ((writes_iff f a).2 (decide_eq_true hin))

/-! ### A command issued after a reset -/

/-- With the configuration of a reset, STRIPS is 0: the first check of every command but NOP fails (R105, R118). -/
theorem ownChecks_of_setup_reset {s : State} (h : s.setup = Setup.reset) (i : Instr) :
    ownChecks i s = if i.opcode = 0 then none else some .cfgStrips := by
  have hstrips : checkStrips s = some .cfgStrips := by rw [checkStrips, h]; rfl
  cases i with
  | nop => rfl
  | sweep => rw [ownChecks, sweepChecks, hstrips]; rfl
  | sweepLed => rw [ownChecks, sweepLedChecks, sweepChecks, hstrips]; rfl
  | encode => rw [ownChecks, encodeChecks, hstrips]; rfl
  | transpose => exact hstrips

/-- The step that issues a command with the configuration of a reset. -/
theorem step_issue_of_setup_reset {s : State} (h : s.setup = Setup.reset) {i : Instr} (hw : i.WellFormed)
    {rest : List Move} (hs : s.schedule = .write 0x10 (encode i) :: rest) :
    step s =
      .next (issue i (if i.opcode = 0 then none else some .cfgStrips) { s with schedule := rest, mover := .host }) := by
  rw [step_write_cmd hs, issueWord_of_decode (decode_encode hw), exec_host rfl, ownChecks_of_setup_reset (by exact h)]

/-- Settles O60: the reset, then the write to CMD, which finds an idle block with the configuration of a reset. -/
theorem afterResetOnlyNopIsAccepted : Obligations.AfterResetOnlyNopIsAccepted := by
  intro s rest i hw hs
  have hissue := step_issue_of_setup_reset
    (s := coldReset { s with schedule := .write 0x10 (encode i) :: rest }) rfl hw rfl
  refine ⟨_, (run_succ (step_reset hs) 1).trans (run_succ hissue 0), ?_⟩
  split
  · exact ⟨Option.some_ne_none _, rfl⟩
  · exact ⟨rfl, rfl⟩

end Sys2Proof.Machine
end
